-- ==== Sys2Proof/Word.lean ====
section
/-! DEFINITION. The widths of the engine's values (rules R5, R10, R16): all unsigned. -/

namespace Sys2Proof

/-- One byte of buffer memory (R40). -/
abbrev Byte := BitVec 8

/-- A 32-bit value: a command word, a tag, a checksum, a table entry, a 32-bit register (R10). -/
abbrev Word := BitVec 32

/-- A 64-bit value: an address, a byte count, a 64-bit register, a host transfer (R10, R25). -/
abbrev DWord := BitVec 64

/-- A signature: eight bytes, the first at the lowest address (R68). -/
abbrev Signature := Vector Byte 8

/-- The 69 bits of `RESULT` (R16). -/
abbrev ResultWord := BitVec 69

end Sys2Proof
end

