-- ==== Sys2Proof/Config.lean ====
section
/-! DEFINITION. The implementation parameters of rule R4 (`SIG` is a field of State, with its default here), and the two
values the model chooses for contents that no rule gives: a byte of buffer memory that nothing has written, and the checksum
table while it is not valid. -/

namespace Sys2Proof.Config

/-- `ALEN`: address bits of buffer memory (R4, R40). DESIGN CHOICE (log entry 6): the default 64 of a parameter that D4
leaves open; unsafe for an instance with a smaller address space. -/
abbrev alen : Nat := 64

/-- `CRC_POLY`, reflected form (R90). -/
def crcPoly : Word := 0xEDB88320#32

/-- `CRC_INIT` (R90). -/
def crcInit : Word := 0xFFFFFFFF#32

/-- `CRC_XOROUT` (R90). -/
def crcXorOut : Word := 0xFFFFFFFF#32

/-- The default of the parameter `SIG` (R4, R68), the PNG signature. PRESUMED (log entry 5): the spec marks it as general
knowledge. Only `State.reset` uses it: the machine's signature is `State.sig`, and a state with any eight bytes there is
an instance with that signature. -/
def sig : Signature := #v[0x89#8, 0x50#8, 0x4E#8, 0x47#8, 0x0D#8, 0x0A#8, 0x1A#8, 0x0A#8]

/-- `TAG_IHDR` (R69). -/
def tagIhdr : Word := 0x49484452#32

/-- `TAG_IDAT` (R69). -/
def tagIdat : Word := 0x49444154#32

/-- `TAG_IEND` (R69). -/
def tagIend : Word := 0x49454E44#32

/-- `HDR_LEN`: bytes of the header record (R70). -/
abbrev hdrLen : Nat := 13

/-- `FRAME`: bytes a chunk adds to its data (R66). -/
abbrev frame : Nat := 12

/-- `MIN_OUT`: the least `CAP` that `ENCODE` accepts (R136). -/
abbrev minOut : Nat := 58

/-- What a byte of buffer memory that nothing has written reads as. DESIGN CHOICE (log entry 3), unsafe: the spec gives
buffer memory no contents at power-on (R27 says only that reset does not change it). -/
def unlistedByte : Byte := 0#8

/-- `TABLE` right after reset. DESIGN CHOICE (log entry 4), unsafe in form only: R27 leaves it unspecified and no
command reads it while `TVALID = 0` (R22). -/
def resetTable : List Word := List.replicate 256 0#32

end Sys2Proof.Config
end

