-- ==== Sys2Proof/Syntax.lean ====
section
/-! DEFINITION. The rows of spec/opcode_table.json: eleven commands (R61), `RDCHUNK` in its four spellings (R62), and the
three rows that the table marks as no commands (R69). Commands carry no operands (R64). -/

namespace Sys2Proof

/-- One constructor per row of the opcode table. -/
inductive Instr where
  /-- `NOP` (R175). -/
  | nop
  /-- `TBLINIT`: build the checksum table (R99). -/
  | tblinit
  /-- `CRC32`: checksum of the source window (R98). -/
  | crc32
  /-- `PUT32`: big-endian store (R108). -/
  | put32
  /-- `GET32`: big-endian load (R109). -/
  | get32
  /-- `WRCHUNK`: frame data as a chunk (R118). -/
  | wrchunk
  /-- `RDCHUNK`, `WT = 0`, `WD = 0` (R121, R62). -/
  | rdchunk
  /-- `RDCHUNK.T`, `WT = 1`, `WD = 0` (R121, R62). -/
  | rdchunkT
  /-- `RDCHUNK.D`, `WT = 0`, `WD = 1` (R121, R62). -/
  | rdchunkD
  /-- `RDCHUNK.TD`, `WT = 1`, `WD = 1` (R121, R62). -/
  | rdchunkTD
  /-- `CKCHUNK`: verify a chunk's checksum (R125). -/
  | ckchunk
  /-- `ENCODE`: build a container (R135). -/
  | encode
  /-- `PARSE`: take a container apart (R152). -/
  | parse
  /-- `INFLATE`: hand the payload to the decompressor (R158). -/
  | inflate
  /-- The row `TAG_IHDR`: a chunk tag, no command; as a command word it is illegal (R63, R69; log entry 7). -/
  | tagIhdr
  /-- The row `TAG_IDAT`: a chunk tag, no command; as a command word it is illegal (R63, R69; log entry 7). -/
  | tagIdat
  /-- The row `TAG_IEND`: a chunk tag, no command; as a command word it is illegal (R63, R69; log entry 7). -/
  | tagIend
  deriving DecidableEq, Repr

end Sys2Proof
end

