-- ==== Sys2Proof/WellFormed.lean ====
section
/-! DEFINITION. Well-formed instructions. A command has no operands, so there is one check: the row is a command of R61
and not one of the table's three `TAG32` rows, whose numbers are illegal as command words (R63). -/

namespace Sys2Proof

/-- The row is one of the eleven commands, in a legal spelling (R61, R62). -/
def Instr.wellFormed : Instr → Bool
  | .nop => true
  | .tblinit => true
  | .crc32 => true
  | .put32 => true
  | .get32 => true
  | .wrchunk => true
  | .rdchunk => true
  | .rdchunkT => true
  | .rdchunkD => true
  | .rdchunkTD => true
  | .ckchunk => true
  | .encode => true
  | .parse => true
  | .inflate => true
  | .tagIhdr => false
  | .tagIdat => false
  | .tagIend => false

end Sys2Proof
end

