-- ==== Sys2Proof/Decode.lean ====
section
/-! DEFINITION. The command word (R60 to R65): one 32-bit format with `OPC` in bits 7:0, `WT` in bit 8, `WD` in bit 9 and
zeros above. The decoder is total and names why it turns a word away; the encoder is written from the same layout. -/

namespace Sys2Proof

/-- Why a word is no command (R63). Every reason ends in `ILLCMD` when the word is executed (R174). -/
inductive DecodeReject where
  /-- A bit of 31:10 is set. -/
  | reservedBits
  /-- `OPC` is 0x0B to 0xFF. -/
  | unknownOpcode
  /-- `WT` or `WD` is set on an operation other than `RDCHUNK`. -/
  | flagNotAllowed
  deriving DecidableEq, Repr

/-- What decoding a word gives. -/
inductive Decoded where
  | ok (i : Instr)
  | reject (r : DecodeReject)
  deriving DecidableEq, Repr

/-- `OPC`, bits 7:0 (R60). -/
def opcOf (w : Word) : Nat := (w.extractLsb' 0 8).toNat

/-- `WT`, bit 8 (R60). -/
def wtOf (w : Word) : Bool := w.getLsbD 8

/-- `WD`, bit 9 (R60). -/
def wdOf (w : Word) : Bool := w.getLsbD 9

/-- The reserved field, bits 31:10 (R60). -/
def reservedOf (w : Word) : BitVec 22 := w.extractLsb' 10 22

/-- R61's definition of a legal command word, in its own terms. -/
def legalWord (w : Word) : Bool :=
  reservedOf w == 0#22 && decide (opcOf w ≤ 0x0A) && (opcOf w == 0x06 || (!wtOf w && !wdOf w))

/-- An operation that takes no flags: any flag makes the word illegal (R60, R63). -/
def decodeFlagless (wt wd : Bool) (i : Instr) : Decoded :=
  if wt || wd then .reject .flagNotAllowed else .ok i

/-- `RDCHUNK` in its four spellings (R62). -/
def decodeRdchunk (wt wd : Bool) : Instr :=
  match wt, wd with
  | false, false => .rdchunk
  | true, false => .rdchunkT
  | false, true => .rdchunkD
  | true, true => .rdchunkTD

/-- The decoder (R60 to R63). The three numbers of the table's `TAG32` rows are illegal words like any other with a bit
of 31:10 set; they are only named, so that each table row is some instruction's (log entry 7). -/
def decode (w : Word) : Decoded :=
  if w = Config.tagIhdr then .ok .tagIhdr
  else if w = Config.tagIdat then .ok .tagIdat
  else if w = Config.tagIend then .ok .tagIend
  else if reservedOf w ≠ 0#22 then .reject .reservedBits
  else
    let wt := wtOf w
    let wd := wdOf w
    match opcOf w with
    | 0x00 => decodeFlagless wt wd .nop
    | 0x01 => decodeFlagless wt wd .tblinit
    | 0x02 => decodeFlagless wt wd .crc32
    | 0x03 => decodeFlagless wt wd .put32
    | 0x04 => decodeFlagless wt wd .get32
    | 0x05 => decodeFlagless wt wd .wrchunk
    | 0x06 => .ok (decodeRdchunk wt wd)
    | 0x07 => decodeFlagless wt wd .ckchunk
    | 0x08 => decodeFlagless wt wd .encode
    | 0x09 => decodeFlagless wt wd .parse
    | 0x0A => decodeFlagless wt wd .inflate
    | _ => .reject .unknownOpcode

/-- A command word from its fields (R60). -/
def commandWord (opc : Byte) (wt wd : Bool) : Word :=
  opc.setWidth 32 ||| ((BitVec.ofBool wt).setWidth 32 <<< 8) ||| ((BitVec.ofBool wd).setWidth 32 <<< 9)

/-- The encoder: the word of each table row (R61, R62, R69). -/
def encode : Instr → Word
  | .nop => commandWord 0x00#8 false false
  | .tblinit => commandWord 0x01#8 false false
  | .crc32 => commandWord 0x02#8 false false
  | .put32 => commandWord 0x03#8 false false
  | .get32 => commandWord 0x04#8 false false
  | .wrchunk => commandWord 0x05#8 false false
  | .rdchunk => commandWord 0x06#8 false false
  | .rdchunkT => commandWord 0x06#8 true false
  | .rdchunkD => commandWord 0x06#8 false true
  | .rdchunkTD => commandWord 0x06#8 true true
  | .ckchunk => commandWord 0x07#8 false false
  | .encode => commandWord 0x08#8 false false
  | .parse => commandWord 0x09#8 false false
  | .inflate => commandWord 0x0A#8 false false
  | .tagIhdr => Config.tagIhdr
  | .tagIdat => Config.tagIdat
  | .tagIend => Config.tagIend

/-- What the decoder gives as an option. -/
def Decoded.instr? : Decoded → Option Instr
  | .ok i => some i
  | .reject _ => none

/-- The instruction the decoder reads from the low `nbits` bits of `w`. A command word is a number of 32 bits and has no
byte order (R25, R64); a number that needs more bits is no command word. -/
def decodeTableWord (nbits w : Nat) : Option Instr :=
  let v := w % 2 ^ nbits
  if v < 2 ^ 32 then (decode (BitVec.ofNat 32 v)).instr? else none

end Sys2Proof
end

