-- ==== Sys2Proof/Machine/State.lean ====
section
/-! DEFINITION. The state of the engine (10_state.md), buffer memory, and the outside agents' coming moves, all as plain
data; and the state right after reset (R27). -/

namespace Sys2Proof.Machine

/-- `PHASE` (R18). -/
inductive Phase where
  /-- No command in progress. -/
  | idle
  /-- A command has been accepted and not yet executed. -/
  | busy
  /-- A request has been sent to the collaborator. -/
  | waitc
  /-- The collaborator's answer has arrived and has not been consumed. -/
  | resume
  deriving DecidableEq, Repr

/-- The values of `STATUS.ERR` that are ever produced (R185); their numbers are `ErrCode.bits` (Flags.lean). -/
inductive ErrCode where
  /-- 0: success. -/
  | ok
  /-- 1: signature mismatch (R186). -/
  | sig
  /-- 2: capacity exhaustion (R187). -/
  | cap
  /-- 3: collaborator failure (R188). -/
  | collab
  /-- 4: stored and computed checksum differ (R189). -/
  | corrupt
  /-- 5: a chunk is not the one the container layout puts there (R191). -/
  | format
  /-- 6: the source window is too short (R192). -/
  | trunc
  /-- 7: an operand names something that cannot exist (R193). -/
  | range
  /-- 8: illegal command word (R194). -/
  | illcmd
  deriving DecidableEq, Repr

/-- The classes of `STATUS.KIND` (R19, R115); their numbers are `TagClass.bits` (Flags.lean). -/
inductive TagClass where
  | other
  | header
  | payload
  | terminator
  deriving DecidableEq, Repr

/-- The kind of a collaborator request (R24). -/
inductive RequestKind where
  | compress
  | decompress
  deriving DecidableEq, Repr

/-- `CREQ` when it is not `none` (R24). -/
structure CReq where
  kind : RequestKind
  inAddr : DWord
  inLen : DWord
  outAddr : DWord
  outMax : DWord
  level : Word
  deriving DecidableEq, Repr

/-- `CRSP` when it is not `none` (R24). -/
inductive CRsp where
  | error
  | ok (outLen : DWord)
  deriving DecidableEq, Repr

/-- A window `[base, base+size)` of buffer memory (R8), on unbounded naturals (R44). -/
structure Window where
  base : Nat
  size : Nat
  deriving DecidableEq, Repr

/-- Buffer memory: listed bytes in strictly rising order of address, none equal to `Config.unlistedByte` (Ops.lean). -/
abbrev Memory := List Host.Cell

/-- One step's choice: which agent moves, and, for an agent outside the engine, what it does (log entry 1). -/
inductive Move where
  /-- The engine takes its enabled step, if it has one (R174, R178). -/
  | engine
  /-- `HostWrite(i, v)` (R172). -/
  | hostWrite (i : Nat) (v : DWord)
  /-- `HostRead(i)` (R171). -/
  | hostRead (i : Nat)
  /-- The host writes one byte of buffer memory by its own means (R40, R49). -/
  | hostStore (a : DWord) (b : Byte)
  /-- The host reads one byte of buffer memory by its own means (R40, R49). -/
  | hostLoad (a : DWord)
  /-- The collaborator writes bytes of its window and answers (R177). -/
  | collaborator (writes : List (DWord × Byte)) (answer : CRsp)
  /-- The reset event; `left` are the bytes that the abandoned command leaves in its write windows (R210, R211). -/
  | reset (left : List (DWord × Byte))
  /-- A collaborator that a reset abandoned goes on writing its window (R211). -/
  | strayWrites (writes : List (DWord × Byte))
  /-- The abandoned collaborator has become quiet (R211). -/
  | quiet
  deriving DecidableEq, Repr

/-- The machine: the register file of R10 (registers 0 to 16, `RESULT` as one value of R16), the stored fields of
`STATUS` (R19) and `CTRL` (R20), the hidden state (R18, R22, R24), buffer memory (R40), and the MODEL's own fields
`sig`, `agenda`, `hostIn`, `lent`, `stray` (log entries 1, 5, 10, 11, 16). -/
structure State where
  /-- register 0, `CMD` (R21) -/
  cmd : Word
  /-- `STATUS.DONE` (R19) -/
  done : Bool
  /-- `STATUS.OVR` (R19) -/
  ovr : Bool
  /-- `STATUS.ERR` (R19, R185) -/
  err : ErrCode
  /-- `STATUS.KIND` (R19, R115) -/
  kind : TagClass
  /-- `CTRL.VERIFY` (R20) -/
  verify : Bool
  /-- register 3, `SRC` (R11) -/
  src : DWord
  /-- register 4, `LEN` (R12) -/
  len : DWord
  /-- register 5, `DST` (R13) -/
  dst : DWord
  /-- register 6, `CAP` (R14) -/
  cap : DWord
  /-- register 7, `TAG` (R15) -/
  tag : Word
  /-- register 8, `VAL` (R15) -/
  val : Word
  /-- register 9, `WIDTH` (R17) -/
  width : Word
  /-- register 10, `HEIGHT` (R17) -/
  height : Word
  /-- register 11, `DEPTH` (R17) -/
  depth : Byte
  /-- register 12, `LEVEL` (R17) -/
  level : Word
  /-- registers 13 and 14, `RESULT` (R16) -/
  result : ResultWord
  /-- register 15, `PAYOFF` (R17) -/
  payoff : DWord
  /-- register 16, `PAYLEN` (R17) -/
  paylen : Word
  /-- hidden `PHASE` (R18) -/
  phase : Phase
  /-- hidden `OP` (R18) -/
  op : Word
  /-- hidden `TVALID`, also `STATUS[3]` (R22) -/
  tvalid : Bool
  /-- hidden `TABLE`, 256 entries (R22) -/
  table : List Word
  /-- hidden `CREQ` (R24) -/
  creq : Option CReq
  /-- hidden `CRSP` (R24) -/
  crsp : Option CRsp
  /-- buffer memory (R40) -/
  mem : Memory
  /-- MODEL: the parameter `SIG` of this instance of the block, which no step changes (R4, R68; log entry 5) -/
  sig : Signature
  /-- MODEL: the moves to come; when it is empty the engine moves (log entry 1) -/
  agenda : List Move
  /-- MODEL: what the host's last read transaction returned (log entry 16) -/
  hostIn : DWord
  /-- MODEL: the windows the host has handed over and not taken back (R49; log entry 10) -/
  lent : List Window
  /-- MODEL: the windows an abandoned collaborator may still write (R211; log entry 11) -/
  stray : List Window
  deriving DecidableEq, Repr

/-- The machine right after reset (R27). `table` is the DESIGN CHOICE of log entry 4, the empty memory that of log
entry 3, `sig` the default of log entry 5; the MODEL's other fields are empty or 0 (log entries 1, 10, 11, 16). -/
def State.reset : State where
  cmd := 0#32
  done := false
  ovr := false
  err := .ok
  kind := .other
  verify := true
  src := 0#64
  len := 0#64
  dst := 0#64
  cap := 0#64
  tag := 0#32
  val := 0#32
  width := 0#32
  height := 0#32
  depth := 0#8
  level := 0#32
  result := 0#69
  payoff := 0#64
  paylen := 0#32
  phase := .idle
  op := 0#32
  tvalid := false
  table := Config.resetTable
  creq := none
  crsp := none
  mem := []
  sig := Config.sig
  agenda := []
  hostIn := 0#64
  lent := []
  stray := []

/-- The race the model stops at. It is raised by a move of the HOST that the spec forbids it; no command, no engine
step and no collaborator step faults (R46: the master port has no error response). It is safe: the hardware goes on
with whatever the byte-by-byte interleaving gives. -/
inductive Fault where
  /-- Raised by `hostStore` and `hostLoad` on a byte of a window that the host has handed over and not taken back
  (R49, R217, U8: "refuse: the host has no such move"). Safe: the hardware goes on. -/
  | ownedWindow
  deriving DecidableEq, Repr

/-- Instructions without a meaning. None is left: every arm of `exec` calls its meaning. -/
inductive Refusal where
  /-- The arm of `exec` for this table row has no meaning yet; raised by no arm of this model. Safe. -/
  | notModelled (mnemonic : String)
  deriving DecidableEq, Repr

/-- How a step or an instruction ends. -/
abbrev Result := Host.Outcome State Fault Refusal

end Sys2Proof.Machine
end

