-- ==== Sys2Proof/Machine/Ops.lean ====
section
/-! DEFINITION. The named operations over buffer memory (R42 to R45) and over a command's end (R176, R190). -/

namespace Sys2Proof.Machine

/-! ## Buffer memory -/

/-- The canonical form: addresses strictly rising and inside the address space, no entry equal to what an unlisted
address reads as. -/
abbrev Memory.wf (m : Memory) : Prop :=
  m.Pairwise (fun c d => c.1 < d.1) ∧ ∀ c ∈ m, c.1 < 2 ^ Config.alen ∧ c.2 ≠ Config.unlistedByte

/-- One-byte read (R42, R45). -/
def Memory.read : Memory → Nat → Byte
  | [], _ => Config.unlistedByte
  | c :: m, a => if c.1 = a then c.2 else Memory.read m a

/-- Insertion of a cell before the first listed address that is not below it. -/
def Memory.insert : Memory → Nat → Byte → Memory
  | [], a, b => [(a, b)]
  | c :: m, a, b => if c.1 < a then c :: Memory.insert m a b else (a, b) :: c :: m

/-- One-byte write (R42, R45); writing what an unlisted address reads as removes the entry. -/
def Memory.write (m : Memory) (a : Nat) (b : Byte) : Memory :=
  let rest := m.filter (fun c => c.1 != a)
  if b = Config.unlistedByte then rest else Memory.insert rest a b

/-- `MemRead(a, n)`: `n` one-byte reads, ascending, lowest address first (R42). -/
def Memory.readBytes (m : Memory) (a : Nat) : Nat → List Byte
  | 0 => []
  | n + 1 => m.read a :: Memory.readBytes m (a + 1) n

/-- `MemWrite(a, |s|, s)`: one-byte writes, ascending (R42). -/
def Memory.writeBytes (m : Memory) (a : Nat) : List Byte → Memory
  | [] => m
  | b :: s => Memory.writeBytes (m.write a b) (a + 1) s

/-- The ascending one-byte copy loop of `WRCHUNK` and `RDCHUNK` (R118, R121): overlap is as the loop gives (R120 (b)). -/
def Memory.copyUp (m : Memory) (src dst : Nat) : Nat → Memory
  | 0 => m
  | n + 1 => Memory.copyUp (m.write dst (m.read src)) (src + 1) (dst + 1) n

/-! ## Windows -/

/-- The window `[a, a+n)` does not wrap (R44). -/
abbrev fits (a n : Nat) : Prop := a + n ≤ 2 ^ Config.alen

/-- Address `a` lies in the window. -/
abbrev Window.holds (w : Window) (a : Nat) : Prop := w.base ≤ a ∧ a < w.base + w.size

/-- Address `a` lies in one of the windows. -/
abbrev inWindows (ws : List Window) (a : Nat) : Prop := ∃ w ∈ ws, w.holds a

/-- Byte writes by an agent that touches nothing outside the windows `ws` (R50, R211): a listed write outside them is
none of its moves and is left out (log entries 9, 11). -/
def Memory.writeWithin (m : Memory) (ws : List Window) : List (DWord × Byte) → Memory
  | [] => m
  | (a, b) :: rest =>
    Memory.writeWithin (if inWindows ws a.toNat then m.write a.toNat b else m) ws rest

/-! ## How a command ends -/

/-- `complete(RESULT <- r)` after the other listed register writes (R176). -/
def State.complete (s : State) (r : Nat) : State :=
  { s with
    result := BitVec.ofNat 69 r
    err := .ok
    done := true
    creq := none
    crsp := none
    phase := .idle }

/-- `raise E(code)`: the engine's one way of failing (R190). Nothing is saved and control goes nowhere: `RESULT`, `ERR`,
`DONE`, the port and `PHASE` are written, everything else keeps its value. The "return" is the next command's issue
(R196). -/
def State.raise (s : State) (e : ErrCode) : State :=
  { s with
    result := 0#69
    err := e
    done := true
    creq := none
    crsp := none
    phase := .idle }

/-- The first half's end: the request is out and the engine waits (R139, R158, R174). -/
def State.request (s : State) (q : CReq) : State :=
  { s with creq := some q, phase := .waitc }

/-- Issue of a command word (R173). -/
def State.issueWord (s : State) (w : Word) : State :=
  { s with cmd := w, op := w, done := false, err := .ok, phase := .busy }

end Sys2Proof.Machine
end

