-- ==== Sys2Proof/Machine/Flags.lean ====
section
/-! DEFINITION. The fields of `STATUS` and `CTRL` (R19, R20): the numbers of the error codes (R185) and of the tag classes
(R115), the type-tag router, and the registers as the host reads them. -/

namespace Sys2Proof.Machine

/-- The number of an error code (R185). -/
def ErrCode.bits : ErrCode → BitVec 4
  | .ok => 0#4
  | .sig => 1#4
  | .cap => 2#4
  | .collab => 3#4
  | .corrupt => 4#4
  | .format => 5#4
  | .trunc => 6#4
  | .range => 7#4
  | .illcmd => 8#4

/-- The number of a tag class (R19, R115). -/
def TagClass.bits : TagClass → BitVec 2
  | .other => 0#2
  | .header => 1#2
  | .payload => 2#2
  | .terminator => 3#2

/-- The type-tag router (R115). -/
def route (t : Word) : TagClass :=
  if t = Config.tagIhdr then .header
  else if t = Config.tagIdat then .payload
  else if t = Config.tagIend then .terminator
  else .other

/-- `STATUS.BUSY` is `PHASE != IDLE` (R18, R19). -/
def State.isBusy (s : State) : Bool := s.phase != .idle

/-- `STATUS` as it is composed at the instant of a read (R19, R171): `KIND` 9:8, `ERR` 7:4, `TVALID` 3, `OVR` 2, `DONE` 1,
`BUSY` 0, the rest 0. -/
def State.statusWord (s : State) : Word :=
  0#22 ++ s.kind.bits ++ s.err.bits ++ BitVec.ofBool s.tvalid ++ BitVec.ofBool s.ovr ++ BitVec.ofBool s.done
    ++ BitVec.ofBool s.isBusy

/-- `CTRL` as it is read (R20). -/
def State.ctrlWord (s : State) : Word := 0#31 ++ BitVec.ofBool s.verify

end Sys2Proof.Machine
end

