-- ==== Sys2Proof/Machine/Operands.lean ====
section
/-! DEFINITION. The operand forms (R64: every operand is a fixed register): the source and destination windows, and the
register file by number as the host reaches it (R10, R25). -/

namespace Sys2Proof.Machine

/-- Byte 0 of the source window (R11). -/
abbrev State.srcAddr (s : State) : Nat := s.src.toNat

/-- The byte count that goes with `SRC` (R12). -/
abbrev State.srcLen (s : State) : Nat := s.len.toNat

/-- Byte 0 of the destination window (R13). -/
abbrev State.dstAddr (s : State) : Nat := s.dst.toNat

/-- The byte capacity of the destination window (R14). -/
abbrev State.dstCap (s : State) : Nat := s.cap.toNat

/-- `RESULT_LO` (R16). -/
def State.resultLo (s : State) : DWord := s.result.extractLsb' 0 64

/-- `RESULT_HI` (R16). -/
def State.resultHi (s : State) : BitVec 5 := s.result.extractLsb' 64 5

/-- The 64-bit slot of register `i`: `zext_64(x[i])`, and 0 above 16 (R25, R171). -/
def State.readReg (s : State) (i : Nat) : DWord :=
  match i with
  | 0 => s.cmd.setWidth 64
  | 1 => s.statusWord.setWidth 64
  | 2 => s.ctrlWord.setWidth 64
  | 3 => s.src
  | 4 => s.len
  | 5 => s.dst
  | 6 => s.cap
  | 7 => s.tag.setWidth 64
  | 8 => s.val.setWidth 64
  | 9 => s.width.setWidth 64
  | 10 => s.height.setWidth 64
  | 11 => s.depth.setWidth 64
  | 12 => s.level.setWidth 64
  | 13 => s.resultLo
  | 14 => s.resultHi.setWidth 64
  | 15 => s.payoff
  | 16 => s.paylen.setWidth 64
  | _ => 0#64

/-- The part of a host write that stores into a register while the engine is idle: `CTRL` and the operand registers 3 to
12 take the low bits, every other number takes nothing (R172, R25). -/
def State.writeOperand (s : State) (i : Nat) (v : DWord) : State :=
  match i with
  | 2 => { s with verify := v.getLsbD 0 }
  | 3 => { s with src := v }
  | 4 => { s with len := v }
  | 5 => { s with dst := v }
  | 6 => { s with cap := v }
  | 7 => { s with tag := v.setWidth 32 }
  | 8 => { s with val := v.setWidth 32 }
  | 9 => { s with width := v.setWidth 32 }
  | 10 => { s with height := v.setWidth 32 }
  | 11 => { s with depth := v.setWidth 8 }
  | 12 => { s with level := v.setWidth 32 }
  | _ => s

end Sys2Proof.Machine
end

