-- ==== Sys2Proof/Machine/Checksum.lean ====
section
/-! DEFINITION. The checksum engine (40_checksum_engine.md): the table, the update step, the checksum, the table as state,
and the commands `CRC32` and `TBLINIT`. -/

namespace Sys2Proof.Machine

/-! ## The function -/

/-- `f` of R91: one bit of the reflected division. -/
def crcBit (c : Word) : Word :=
  if c.getLsbD 0 then (c >>> 1) ^^^ Config.crcPoly else c >>> 1

/-- `f` applied eight times (R91). -/
def crcByte (c : Word) : Word :=
  crcBit (crcBit (crcBit (crcBit (crcBit (crcBit (crcBit (crcBit c)))))))

/-- The contents of a built `TABLE` (R91). -/
def crcTable : List Word := (List.range 256).map (fun i => crcByte (BitVec.ofNat 32 i))

/-- The table-driven update step of R92, for any table. -/
def crcUpd (table : List Word) (acc : Word) (b : Byte) : Word :=
  table.getD ((acc ^^^ b.setWidth 32).extractLsb' 0 8).toNat 0#32 ^^^ (acc >>> 8)

/-- The update step without a table (R93). -/
def crcUpdPoly (acc : Word) (b : Byte) : Word := crcByte (acc ^^^ b.setWidth 32)

/-- The checksum of a byte sequence through a table (R94). -/
def crcWith (table : List Word) (bytes : List Byte) : Word :=
  bytes.foldl (crcUpd table) Config.crcInit ^^^ Config.crcXorOut

/-- `crc32` of R94: the checksum through the table of R91. -/
def crc32 (bytes : List Byte) : Word := crcWith crcTable bytes

/-! ## The table as state -/

/-- What every command does before it reads `TABLE`: build it if it is not valid (R96). -/
def State.buildTable (s : State) : State :=
  if s.tvalid then s else { s with tvalid := true, table := crcTable }

/-- The checksum the engine computes, from the table it holds (R92, R94; log entry 19). -/
def State.crc (s : State) (bytes : List Byte) : Word := crcWith s.table bytes

/-! ## Commands -/

/-- `CRC32` (R98). `LEN = 0` consumes no byte and does not build the table (R96). -/
def execCrc32 (s : State) : Result :=
  if fits s.srcAddr s.srcLen then
    let s1 := if s.srcLen = 0 then s else s.buildTable
    .next (s1.complete (s1.crc (s1.mem.readBytes s1.srcAddr s1.srcLen)).toNat)
  else .next (s.raise .range)

/-- `TBLINIT` (R99). -/
def execTblinit (s : State) : Result := .next (s.buildTable.complete 0)

end Sys2Proof.Machine
end

