-- ==== Sys2Proof/Machine/Serializer.lean ====
section
/-! DEFINITION. The big-endian serializer and deserializer (41_byte_serializer.md) and the commands `PUT32`, `GET32`. -/

namespace Sys2Proof.Machine

/-- `be32_ser(v)`: most significant byte first (R105). -/
def be32Ser (v : Word) : List Byte :=
  [v.extractLsb' 24 8, v.extractLsb' 16 8, v.extractLsb' 8 8, v.extractLsb' 0 8]

/-- `be32_des(s)` of a four-byte sequence (R106). The engine applies it to the four bytes of `Get32` only; on other
lengths it folds what there is. -/
def be32Des (s : List Byte) : Word :=
  BitVec.ofNat 32 (s.foldl (fun n b => n * 2 ^ 8 + b.toNat) 0)

/-- `Put32(addr, v)` (R107). -/
def Memory.put32 (m : Memory) (a : Nat) (v : Word) : Memory := m.writeBytes a (be32Ser v)

/-- `Get32(addr)` (R107). -/
def Memory.get32 (m : Memory) (a : Nat) : Word := be32Des (m.readBytes a 4)

/-- `PUT32` (R108). -/
def execPut32 (s : State) : Result :=
  if fits s.dstAddr 4 then
    .next ({ s with mem := s.mem.put32 s.dstAddr s.val }.complete 4)
  else .next (s.raise .range)

/-- `GET32` (R109). -/
def execGet32 (s : State) : Result :=
  if fits s.srcAddr 4 then
    let v := s.mem.get32 s.srcAddr
    .next ({ s with val := v }.complete v.toNat)
  else .next (s.raise .range)

end Sys2Proof.Machine
end

