-- ==== Sys2Proof/Machine/ChunkCodec.lean ====
section
/-! DEFINITION. The chunk codec (42_chunk_codec.md): the chunk as bytes and the commands `WRCHUNK`, `RDCHUNK` (four
spellings) and `CKCHUNK`. -/

namespace Sys2Proof.Machine

/-! ## Chunks as byte sequences -/

/-- `chunk(t, data)` (R116), its checksum computed through the table given. -/
def chunkWith (table : List Word) (t : Word) (data : List Byte) : List Byte :=
  be32Ser (BitVec.ofNat 32 data.length) ++ be32Ser t ++ data ++ be32Ser (crcWith table (be32Ser t ++ data))

/-- `chunk(t, data)` of R116. -/
def chunk (t : Word) (data : List Byte) : List Byte := chunkWith crcTable t data

/-- `clen(b)` (R117). -/
def chunkLen (b : List Byte) : Nat := (be32Des (b.take 4)).toNat

/-- `ctag(b)` (R117). -/
def chunkTag (b : List Byte) : Word := be32Des ((b.drop 4).take 4)

/-- `cdata(b)` (R117). -/
def chunkData (b : List Byte) : List Byte := (b.drop 8).take (chunkLen b)

/-- `cstored(b)` (R117). -/
def chunkStored (b : List Byte) : Word := be32Des ((b.drop (8 + chunkLen b)).take 4)

/-- `cvalid(b)` (R117). -/
def chunkValid (b : List Byte) : Bool :=
  chunkStored b == crc32 ((b.drop 4).take (4 + chunkLen b))

/-! ## Framing in memory -/

/-- The last two writes of a chunk whose length, tag and data stand at `dst`: its checksum over tag and data as they
stand in memory (R118, R141). -/
def Memory.sealChunk (m : Memory) (table : List Word) (dst n : Nat) : Memory :=
  m.put32 (dst + 8 + n) (crcWith table (m.readBytes (dst + 4) (n + 4)))

/-- The in-place form: length, tag, checksum around `n` data bytes that already stand at `dst + 8` (R119, R141). -/
def Memory.frameInPlace (m : Memory) (table : List Word) (dst n : Nat) (t : Word) : Memory :=
  ((m.put32 dst (BitVec.ofNat 32 n)).put32 (dst + 4) t).sealChunk table dst n

/-- The copying form: length, tag, the `n` bytes at `src` one by one, checksum (R118). -/
def Memory.frameCopy (m : Memory) (table : List Word) (dst n : Nat) (t : Word) (src : Nat) : Memory :=
  (((m.put32 dst (BitVec.ofNat 32 n)).put32 (dst + 4) t).copyUp src (dst + 8) n).sealChunk table dst n

/-! ## WRCHUNK -/

/-- The data is not copied: there is none, or `SRC = DST + 8` (R119). -/
abbrev State.writesInPlace (s : State) : Prop := s.srcLen = 0 ∨ s.srcAddr = s.dstAddr + 8

/-- `WRCHUNK` (R118 to R120). -/
def execWrchunk (s : State) : Result :=
  if s.srcLen < 2 ^ 32 then
    if fits s.dstAddr (s.srcLen + 12) then
      if s.writesInPlace then
        let s1 := s.buildTable
        .next ({ s1 with mem := s1.mem.frameInPlace s1.table s.dstAddr s.srcLen s.tag }.complete (s.srcLen + 12))
      else if fits s.srcAddr s.srcLen then
        let s1 := s.buildTable
        .next ({ s1 with mem := s1.mem.frameCopy s1.table s.dstAddr s.srcLen s.tag s.srcAddr }.complete (s.srcLen + 12))
      else .next (s.raise .range)
    else .next (s.raise .range)
  else .next (s.raise .range)

/-! ## RDCHUNK -/

/-- The data length that the chunk at `SRC` announces. -/
def State.announced (s : State) : Nat := (s.mem.get32 s.srcAddr).toNat

/-- The tag of the chunk at `SRC`. -/
def State.tagAtSrc (s : State) : Word := s.mem.get32 (s.srcAddr + 4)

/-- `RDCHUNK` copies the data field: it is wanted and fits (R121). -/
abbrev State.copiesData (s : State) (wd : Bool) : Prop := wd = true ∧ s.announced ≤ s.dstCap

/-- The successful end of `RDCHUNK` over the memory `m` (R121). -/
def State.completeRdchunk (s : State) (wt : Bool) (m : Memory) : State :=
  { s with
    mem := m
    kind := route s.tagAtSrc
    tag := if wt then s.tagAtSrc else s.tag }.complete (s.announced + 12)

/-- `RDCHUNK` with the flags `WT` and `WD` (R121 to R123). -/
def rdchunkWith (wt wd : Bool) (s : State) : Result :=
  if fits s.srcAddr s.srcLen then
    if 8 ≤ s.srcLen then
      if s.copiesData wd then
        if 8 + s.announced ≤ s.srcLen then
          if fits s.dstAddr s.announced then
            .next (s.completeRdchunk wt (s.mem.copyUp (s.srcAddr + 8) s.dstAddr s.announced))
          else .next (s.raise .range)
        else .next (s.raise .trunc)
      else .next (s.completeRdchunk wt s.mem)
    else .next (s.raise .trunc)
  else .next (s.raise .range)

/-- `RDCHUNK`, word 0x006 (R62, R121). -/
def execRdchunk (s : State) : Result := rdchunkWith false false s

/-- `RDCHUNK.T`, word 0x106 (R62, R121). -/
def execRdchunkT (s : State) : Result := rdchunkWith true false s

/-- `RDCHUNK.D`, word 0x206 (R62, R121). -/
def execRdchunkD (s : State) : Result := rdchunkWith false true s

/-- `RDCHUNK.TD`, word 0x306 (R62, R121). -/
def execRdchunkTD (s : State) : Result := rdchunkWith true true s

/-! ## CKCHUNK -/

/-- `CKCHUNK` (R125). -/
def execCkchunk (s : State) : Result :=
  if fits s.srcAddr s.srcLen then
    if 12 ≤ s.srcLen then
      if s.announced + 12 ≤ s.srcLen then
        let s1 := s.buildTable
        if s1.crc (s.mem.readBytes (s.srcAddr + 4) (s.announced + 4)) = s.mem.get32 (s.srcAddr + 8 + s.announced) then
          .next ({ s1 with kind := route s.tagAtSrc }.complete (s.announced + 12))
        else .next (s1.raise .corrupt)
      else .next (s.raise .trunc)
    else .next (s.raise .trunc)
  else .next (s.raise .range)

end Sys2Proof.Machine
end

