-- ==== Sys2Proof/Machine/Decoder.lean ====
section
/-! DEFINITION. The container decoder (44_container_decoder.md): `PARSE`, and the two halves of `INFLATE`. -/

namespace Sys2Proof.Machine

/-- `rawsize(w, h, d)` (R151), exact. -/
def rawSize (w h : Word) (d : Byte) : Nat := w.toNat * h.toNat * d.toNat / 8

/-! ## PARSE -/

/-- The successful end of `PARSE` (R152, R154): the raster descriptor and the payload's view, all at once. -/
def State.completeParse (s : State) : State :=
  let w := s.mem.get32 (s.srcAddr + 16)
  let h := s.mem.get32 (s.srcAddr + 20)
  let d := s.mem.read (s.srcAddr + 24)
  { s with
    width := w
    height := h
    depth := d
    payoff := 41#64
    paylen := s.mem.get32 (s.srcAddr + 33) }.complete (rawSize w h d)

/-- The extra checks of `VERIFY = 1` for a payload of `n` bytes, in the order of R153; the table is built. -/
def parseVerified (n : Nat) (s : State) : Result :=
  if 57 + n ≤ s.srcLen then
    if s.crc (s.mem.readBytes (s.srcAddr + 37) (n + 4)) = s.mem.get32 (s.srcAddr + 41 + n) then
      if s.mem.get32 (s.srcAddr + 45 + n) = 0#32 then
        if s.mem.get32 (s.srcAddr + 49 + n) = Config.tagIend then
          if s.mem.get32 (s.srcAddr + 53 + n) = 0xAE426082#32 then .next s.completeParse
          else .next (s.raise .corrupt)
        else .next (s.raise .format)
      else .next (s.raise .format)
    else .next (s.raise .corrupt)
  else .next (s.raise .trunc)

/-- Step 4 of R152: the payload chunk's prefix, after the header chunk. -/
def parsePayload (s : State) : Result :=
  if 41 ≤ s.srcLen then
    if s.mem.get32 (s.srcAddr + 37) = Config.tagIdat then
      let n := (s.mem.get32 (s.srcAddr + 33)).toNat
      if 41 + n ≤ s.srcLen then
        if s.verify then parseVerified n s else .next s.completeParse
      else .next (s.raise .trunc)
    else .next (s.raise .format)
  else .next (s.raise .trunc)

/-- Step 2 of R152: the header chunk, with its checksum when `VERIFY = 1` (the first place that builds the table). -/
def parseHeader (s : State) : Result :=
  if 33 ≤ s.srcLen then
    if s.mem.get32 (s.srcAddr + 8) = 13#32 then
      if s.mem.get32 (s.srcAddr + 12) = Config.tagIhdr then
        if s.verify then
          let s1 := s.buildTable
          if s1.crc (s.mem.readBytes (s.srcAddr + 12) 17) = s.mem.get32 (s.srcAddr + 29) then parsePayload s1
          else .next (s1.raise .corrupt)
        else parsePayload s
      else .next (s.raise .format)
    else .next (s.raise .format)
  else .next (s.raise .trunc)

/-- `PARSE` for a signature: the range check and step 1 of R152, then the rest in its order. -/
def parseWith (sig : Signature) (s : State) : Result :=
  if fits s.srcAddr s.srcLen then
    if 8 ≤ s.srcLen then
      if s.mem.readBytes s.srcAddr 8 = sig.toList then parseHeader s
      else .next (s.raise .sig)
    else .next (s.raise .trunc)
  else .next (s.raise .range)

/-- `PARSE` (R150 to R155), with the instance's signature (R68). -/
def execParse (s : State) : Result := parseWith s.sig s

/-! ## INFLATE -/

/-- The decompression request (R158). -/
def State.decompressRequest (s : State) : CReq where
  kind := .decompress
  inAddr := s.src
  inLen := s.len
  outAddr := s.dst
  outMax := s.cap
  level := 0#32

/-- `INFLATE`, the execution step: its first half (R158). -/
def execInflate (s : State) : Result :=
  if fits s.srcAddr s.srcLen then
    if fits s.dstAddr s.dstCap then .next (s.request s.decompressRequest)
    else .next (s.raise .range)
  else .next (s.raise .range)

/-- The second half of `INFLATE` on the answer `r` (R160). -/
def resumeInflate (r : CRsp) (s : State) : Result :=
  match r with
  | .error => .next (s.raise .collab)
  | .ok k =>
    if k.toNat ≤ s.dstCap then
      if 1 ≤ k.toNat then .next (s.complete k.toNat)
      else .next (s.raise .collab)
    else .next (s.raise .cap)

end Sys2Proof.Machine
end

