-- ==== Sys2Proof/Machine/Encoder.lean ====
section
/-! DEFINITION. The container encoder (43_container_encoder.md): the header record, the container as bytes, and the two
halves of `ENCODE`. -/

namespace Sys2Proof.Machine

/-- `hdr(w, h, d)`: the header record (R70). -/
def hdr (w h : Word) (d : Byte) : List Byte := be32Ser w ++ be32Ser h ++ [d, 0#8, 0#8, 0#8, 0#8]

/-- `container(w, h, d, p)` (R142), for the signature given (R68). -/
def container (sig : Signature) (w h : Word) (d : Byte) (p : List Byte) : List Byte :=
  sig.toList ++ chunk Config.tagIhdr (hdr w h d) ++ chunk Config.tagIdat p ++ chunk Config.tagIend []

/-- `budget`: the most the compressor may write (R139). -/
def State.budget (s : State) : Nat := min (s.dstCap - 57) (2 ^ 32 - 1)

/-- The compression request (R139). -/
def State.compressRequest (s : State) : CReq where
  kind := .compress
  inAddr := s.src
  inLen := s.len
  outAddr := BitVec.ofNat 64 (s.dstAddr + 41)
  outMax := BitVec.ofNat 64 s.budget
  level := s.level

/-- The first half of `ENCODE` for a signature (R136 to R139). -/
def encodeFirstHalf (sig : Signature) (s : State) : Result :=
  if fits s.dstAddr s.dstCap then
    if fits s.srcAddr s.srcLen then
      if Config.minOut ≤ s.dstCap then
        let s1 := s.buildTable
        let m1 := s1.mem.writeBytes s.dstAddr sig.toList
        let m2 := m1.writeBytes (s.dstAddr + 8) (chunkWith s1.table Config.tagIhdr (hdr s.width s.height s.depth))
        .next ({ s1 with mem := m2 }.request s.compressRequest)
      else .next (s.raise .cap)
    else .next (s.raise .range)
  else .next (s.raise .range)

/-- `ENCODE`, the execution step: its first half with the instance's signature (R135, R68). -/
def execEncode (s : State) : Result := encodeFirstHalf s.sig s

/-- The second half of `ENCODE` on the answer `r` to the request `q` (R140, R141). -/
def resumeEncode (q : CReq) (r : CRsp) (s : State) : Result :=
  match r with
  | .error => .next (s.raise .collab)
  | .ok k =>
    let m := k.toNat
    if m ≤ q.outMax.toNat then
      if 1 ≤ m then
        let s1 := s.buildTable
        let m1 := s1.mem.frameInPlace s1.table (s.dstAddr + 33) m Config.tagIdat
        let m2 := m1.writeBytes (s.dstAddr + 45 + m) (chunkWith s1.table Config.tagIend [])
        .next ({ s1 with mem := m2 }.complete (57 + m))
      else .next (s.raise .collab)
    else .next (s.raise .cap)

end Sys2Proof.Machine
end

