-- ==== Sys2Proof/Machine/System.lean ====
section
/-! DEFINITION. `NOP` (R175) and the illegal command words (R63, R174, R194), among them the numbers of the opcode table's
three `TAG32` rows. -/

namespace Sys2Proof.Machine

/-- `NOP` (R175). -/
def execNop (s : State) : Result := .next (s.complete 0)

/-- An illegal command word: it fails with `ILLCMD`, reads no operand and touches no memory (R174, R194). -/
def illegalWord (s : State) : Result := .next (s.raise .illcmd)

/-- The number of the row `TAG_IHDR` as a command word: bits of 31:10 are set, so it is illegal (R63; log entry 7). -/
def execTagIhdr (s : State) : Result := illegalWord s

/-- The number of the row `TAG_IDAT` as a command word: bits of 31:10 are set, so it is illegal (R63; log entry 7). -/
def execTagIdat (s : State) : Result := illegalWord s

/-- The number of the row `TAG_IEND` as a command word: bits of 31:10 are set, so it is illegal (R63; log entry 7). -/
def execTagIend (s : State) : Result := illegalWord s

end Sys2Proof.Machine
end

