-- ==== Sys2Proof/Machine/Dispatch.lean ====
section
/-! DEFINITION. The execution step of each command (R174), one arm per row of the opcode table. -/

namespace Sys2Proof.Machine

def exec (i : Instr) (s : State) : Host.Outcome State Fault Refusal :=
  match i with
  | .nop => Sys2Proof.Machine.execNop s
  | .tblinit => Sys2Proof.Machine.execTblinit s
  | .crc32 => Sys2Proof.Machine.execCrc32 s
  | .put32 => Sys2Proof.Machine.execPut32 s
  | .get32 => Sys2Proof.Machine.execGet32 s
  | .wrchunk => Sys2Proof.Machine.execWrchunk s
  | .rdchunk => Sys2Proof.Machine.execRdchunk s
  | .rdchunkT => Sys2Proof.Machine.execRdchunkT s
  | .rdchunkD => Sys2Proof.Machine.execRdchunkD s
  | .rdchunkTD => Sys2Proof.Machine.execRdchunkTD s
  | .ckchunk => Sys2Proof.Machine.execCkchunk s
  | .encode => Sys2Proof.Machine.execEncode s
  | .parse => Sys2Proof.Machine.execParse s
  | .inflate => Sys2Proof.Machine.execInflate s
  | .tagIhdr => Sys2Proof.Machine.execTagIhdr s
  | .tagIdat => Sys2Proof.Machine.execTagIdat s
  | .tagIend => Sys2Proof.Machine.execTagIend s

end Sys2Proof.Machine
end

