-- ==== Sys2Proof/Machine/Engine.lean ====
section
/-! DEFINITION. The engine's own steps (45_command_sequencer.md): the execution step and the resume step. -/

namespace Sys2Proof.Machine

/-- The execution step of the word in `OP` (R174): an illegal word fails with `ILLCMD`, any other runs its command. -/
def executionStep (s : State) : Result :=
  match decode s.op with
  | .ok i => exec i s
  | .reject _ => illegalWord s

/-- The resume step (R178): the second half of the command that `OP` names, on the answer that has arrived. In a state
that no run reaches (no request, no answer, or another command in `OP`) no step is enabled (log entry 18). -/
def resumeStep (s : State) : Result :=
  match decode s.op, s.creq, s.crsp with
  | .ok .encode, some q, some r => resumeEncode q r s
  | .ok .inflate, some _, some r => resumeInflate r s
  | _, _, _ => .next s

/-- The engine's enabled step (R174, R178, R179). In `IDLE` and `WAITC` it has none and nothing changes: an idle engine
stays idle, and a collaborator that never answers leaves the command waiting for ever (R199; log entry 2). -/
def engineStep (s : State) : Result :=
  match s.phase with
  | .idle => .next s
  | .busy => executionStep s
  | .waitc => .next s
  | .resume => resumeStep s

end Sys2Proof.Machine
end

