-- ==== Sys2Proof/Machine/Footprint.lean ====
section
/-! DEFINITION. The footprints of R48: the bytes each command may read and write, computed from the registers and memory
it starts from. They say what a command claims when it is issued (R49) and what a reset may leave unspecified (R211). -/

namespace Sys2Proof.Machine

/-- The data window that `RDCHUNK` with `WD = 1` writes, empty when nothing is copied (R48). -/
def State.copyTarget (s : State) : List Window :=
  if s.announced ≤ s.dstCap then [⟨s.dstAddr, s.announced⟩] else []

/-- The data window that `RDCHUNK` with `WD = 1` reads, empty when nothing is copied (R48). -/
def State.copySource (s : State) : List Window :=
  if s.announced ≤ s.dstCap then [⟨s.srcAddr + 8, s.announced⟩] else []

/-- The bytes the execution step of a command may write (R48; for `ENCODE` its first half, R137 and R138). -/
def execWrites (i : Instr) (s : State) : List Window :=
  match i with
  | .put32 => [⟨s.dstAddr, 4⟩]
  | .wrchunk => [⟨s.dstAddr, s.srcLen + 12⟩]
  | .rdchunkD | .rdchunkTD => s.copyTarget
  | .encode => [⟨s.dstAddr, 33⟩]
  | .nop | .tblinit | .crc32 | .get32 | .rdchunk | .rdchunkT | .ckchunk | .parse | .inflate
  | .tagIhdr | .tagIdat | .tagIend => []

/-- The bytes the second half of `ENCODE` may write for a payload of `m` bytes (R141). -/
def resumeWrites (s : State) (m : Nat) : List Window := [⟨s.dstAddr + 33, 8⟩, ⟨s.dstAddr + 41 + m, 16⟩]

/-- A request's output window (R50). -/
def CReq.outWindow (q : CReq) : Window := ⟨q.outAddr.toNat, q.outMax.toNat⟩

/-- The bytes the engine may read (R48), `ENCODE` aside (see `claims`). -/
def engineReads (i : Instr) (s : State) : List Window :=
  match i with
  | .crc32 => [⟨s.srcAddr, s.srcLen⟩]
  | .get32 => [⟨s.srcAddr, 4⟩]
  | .wrchunk =>
    (if s.srcAddr = s.dstAddr + 8 then [] else [⟨s.srcAddr, s.srcLen⟩]) ++ [⟨s.dstAddr + 4, s.srcLen + 4⟩]
  | .rdchunk | .rdchunkT => [⟨s.srcAddr, 8⟩]
  | .rdchunkD | .rdchunkTD => ⟨s.srcAddr, 8⟩ :: s.copySource
  | .ckchunk => [⟨s.srcAddr, s.announced + 12⟩]
  | .parse =>
    if s.verify then [⟨s.srcAddr, 57 + (s.mem.get32 (s.srcAddr + 33)).toNat⟩] else [⟨s.srcAddr, 41⟩]
  | .nop | .tblinit | .put32 | .encode | .inflate | .tagIhdr | .tagIdat | .tagIend => []

/-- The windows a command claims when it is issued: its row of R48. For `ENCODE` the payload's length is not known yet;
the row is taken over every length up to `budget`, which stays inside `[DST, DST+CAP)` (R141). With `CAP < 58` the row has
no `budget` (R227); DESIGN CHOICE (log entry 10): the row is then its parts that need none, `[SRC, SRC+LEN)` and
`[DST, DST+41)`. -/
def claims (i : Instr) (s : State) : List Window :=
  match i with
  | .encode => [⟨s.srcAddr, s.srcLen⟩, ⟨s.dstAddr, if Config.minOut ≤ s.dstCap then 57 + s.budget else 41⟩]
  | .inflate => [⟨s.srcAddr, s.srcLen⟩, ⟨s.dstAddr, s.dstCap⟩]
  | .nop | .tblinit | .crc32 | .put32 | .get32 | .wrchunk | .rdchunk | .rdchunkT | .rdchunkD | .rdchunkTD | .ckchunk
  | .parse | .tagIhdr | .tagIdat | .tagIend => engineReads i s ++ execWrites i s

/-- The windows a command word claims; an illegal word touches nothing (R63). -/
def claimsOfWord (w : Word) (s : State) : List Window :=
  match decode w with
  | .ok i => claims i s
  | .reject _ => []

/-- The step ends its command in failure. Such a step writes no memory: every check of a step stands before its first
write (R190, R144). -/
def stepFails : Result → Bool
  | .next t => decide (t.phase = .idle ∧ t.err ≠ .ok)
  | .fault _ => true
  | .refused _ => true

/-- The bytes that the step the engine or the collaborator is about to take may write: what a reset that strikes now may
leave unspecified (R211, U6). A step that fails one of its checks writes nothing. -/
def State.openWrites (s : State) : List Window :=
  match s.phase with
  | .idle => []
  | .busy =>
    match decode s.op with
    | .ok i => if stepFails (exec i s) then [] else execWrites i s
    | .reject _ => []
  | .waitc =>
    match s.creq with
    | some q => [q.outWindow]
    | none => []
  | .resume =>
    match decode s.op, s.creq, s.crsp with
    | .ok .encode, some q, some (.ok k) => if stepFails (resumeEncode q (.ok k) s) then [] else resumeWrites s k.toNat
    | _, _, _ => []

end Sys2Proof.Machine
end

