-- ==== Sys2Proof/Machine/Outside.lean ====
section
/-! DEFINITION. The agents outside the engine: the host's transactions (R170 to R173), the host's own access to buffer
memory under the ownership rule (R40, R49), the collaborator (R50, R177) and the reset event (R210, R211). -/

namespace Sys2Proof.Machine

/-! ## The host's register transactions -/

/-- Issue of a command (R173), with the hand-over of its windows (R49). Windows of an earlier command that the host has
not taken back stay handed over. -/
def State.issue (s : State) (w : Word) : State :=
  { s.issueWord w with lent := s.lent ++ claimsOfWord w s }

/-- `HostWrite(i, v)` (R172). The order of the cases is the rule's: while the engine is busy every write but one to
`STATUS` is dropped and sets `OVR` (log entry 12). -/
def State.hostWrite (s : State) (i : Nat) (v : DWord) : State :=
  if i = 1 then (if v.getLsbD 2 then { s with ovr := false } else s)
  else if s.phase ≠ .idle then { s with ovr := true }
  else if i = 0 then s.issue (v.setWidth 32)
  else s.writeOperand i v

/-- `HostRead(i)` (R171): the value goes to the host. A read of `STATUS` that returns `DONE = 1` takes the windows back
(R49); the engine's state does not change. -/
def State.hostRead (s : State) (i : Nat) : State :=
  { s with
    hostIn := s.readReg i
    lent := if i = 1 ∧ s.done = true then [] else s.lent }

/-! ## The host's access to buffer memory -/

/-- The host may touch the byte at `a`, unless it has handed it over (R49, U8). A byte that an abandoned collaborator may
still write is the host's to touch: its value is whatever that collaborator's moves make of it (R211, U7). -/
def State.hostMayTouch (s : State) (a : Nat) (go : State) : Result :=
  if inWindows s.lent a then .fault .ownedWindow else .next go

/-- The host writes one byte of buffer memory (R40, R45). -/
def hostStore (a : DWord) (b : Byte) (s : State) : Result :=
  s.hostMayTouch a.toNat { s with mem := s.mem.write a.toNat b }

/-- The host reads one byte of buffer memory (R40, R45). -/
def hostLoad (a : DWord) (s : State) : Result :=
  s.hostMayTouch a.toNat { s with hostIn := (s.mem.read a.toNat).setWidth 64 }

/-! ## The collaborator -/

/-- The collaborator's step (R50, R177): any bytes of its output window, any answer. Outside `WAITC` it has no step. -/
def collaboratorStep (writes : List (DWord × Byte)) (answer : CRsp) (s : State) : State :=
  match s.phase, s.creq with
  | .waitc, some q =>
    { s with
      mem := s.mem.writeWithin [q.outWindow] writes
      crsp := some answer
      phase := .resume }
  | _, _ => s

/-- An abandoned collaborator writes bytes of the windows it may still be using (R211). -/
def strayStep (writes : List (DWord × Byte)) (s : State) : State :=
  { s with mem := s.mem.writeWithin s.stray writes }

/-! ## Reset -/

/-- The output window of a request that is outstanding when a reset strikes (R211). -/
def State.abandoned (s : State) : List Window :=
  match s.phase, s.creq with
  | .waitc, some q => [q.outWindow]
  | _, _ => []

/-- The reset event (R210, R211): every register and the hidden state take their reset values; buffer memory keeps its
contents, but for `left` in the windows that the interrupted step may write. The outside agents go on, and the parameter
`SIG` is the instance's. -/
def resetStep (left : List (DWord × Byte)) (s : State) : State :=
  { State.reset with
    mem := s.mem.writeWithin s.openWrites left
    sig := s.sig
    agenda := s.agenda
    hostIn := s.hostIn
    stray := s.stray ++ s.abandoned }

/-! ## Moves -/

/-- One move of one agent (R179's steps and the host's transactions). -/
def moveStep (mv : Move) (s : State) : Result :=
  match mv with
  | .engine => engineStep s
  | .hostWrite i v => .next (s.hostWrite i v)
  | .hostRead i => .next (s.hostRead i)
  | .hostStore a b => hostStore a b s
  | .hostLoad a => hostLoad a s
  | .collaborator ws r => .next (collaboratorStep ws r s)
  | .reset left => .next (resetStep left s)
  | .strayWrites ws => .next (strayStep ws s)
  | .quiet => .next { s with stray := [] }

end Sys2Proof.Machine
end

