-- ==== Sys2Proof/Machine/Step.lean ====
section
/-! DEFINITION. One step of the machine, and the host's issue of a command word as "where the next instruction is
fetched" (the engine has no program counter and fetches nothing, R18, R53). -/

namespace Sys2Proof.Machine

/-- One step: the next move of the agenda, or, when the agenda is empty, the engine's enabled step (log entry 1). -/
def step (s : State) : Host.Outcome State Fault Refusal :=
  match s.agenda with
  | [] => engineStep s
  | mv :: rest => moveStep mv { s with agenda := rest }

/-- The state in which the host has just written the command word `w` to `CMD` and the engine moves next (R173, R174): the
very next step runs that word (log entry 20). -/
def State.withFetchWord (s : State) (nbits w : Nat) : State :=
  { s.issue (BitVec.ofNat 32 (w % 2 ^ nbits)) with agenda := .engine :: s.agenda }

end Sys2Proof.Machine
end

