-- ==== Sys2Proof/Safety.lean ====
section
/-! DEFINITION. The invariant of the machine: what holds of every state a run from reset can be in; the form in which
statements name the end of a command; and runs of several steps. -/

namespace Sys2Proof.Machine

/-- `TABLE` has 256 entries, and the contents of R91 whenever `TVALID = 1` (R22, R96). -/
abbrev State.tableOk (s : State) : Prop :=
  s.table.length = 256 ∧ (s.tvalid = true → s.table = crcTable)

/-- The port records are `none` in `IDLE` and `BUSY` (R24); a request is out in `WAITC`, with no answer yet, and both
stand in `RESUME` (R18, R24). -/
def State.portOk (s : State) : Prop :=
  match s.phase with
  | .idle => s.creq = none ∧ s.crsp = none
  | .busy => s.creq = none ∧ s.crsp = none
  | .waitc => s.creq.isSome = true ∧ s.crsp = none
  | .resume => s.creq.isSome = true ∧ s.crsp.isSome = true

/-- While a command is in progress `OP` is a copy of `CMD` (R18) and `DONE` and `ERR` stand cleared (R173, R19). -/
abbrev State.busyOk (s : State) : Prop :=
  s.phase ≠ .idle → s.cmd = s.op ∧ s.done = false ∧ s.err = .ok

/-- The request that is out is the one that `ENCODE` (R136 to R139) or `INFLATE` (R158) makes from the operand
registers as they still stand (R23). -/
def State.requestOk (s : State) : Prop :=
  ∀ q, s.creq = some q →
    (s.op = encode .encode ∧ q = s.compressRequest ∧ fits s.dstAddr s.dstCap ∧ fits s.srcAddr s.srcLen ∧
      Config.minOut ≤ s.dstCap ∧ s.tvalid = true) ∨
    (s.op = encode .inflate ∧ q = s.decompressRequest ∧ fits s.srcAddr s.srcLen ∧ fits s.dstAddr s.dstCap)

/-- The failure sentinel (R190): a nonzero `ERR` stands with `RESULT = 0` and `DONE = 1`. -/
abbrev State.sentinelOk (s : State) : Prop :=
  s.err ≠ .ok → s.result = 0#69 ∧ s.done = true

/-- The state `s` after a command that ended with result `r` and code `e` and wrote nothing else (R176, R190): the form in
which statements name the end of a command, spelled out field by field. -/
def State.ended (s : State) (r : Nat) (e : ErrCode) : State :=
  { s with result := BitVec.ofNat 69 r, err := e, done := true, creq := none, crsp := none, phase := .idle }

/-- `k` steps, stopping at the first fault: the runs that statements speak of. -/
def runSteps : Nat → State → Result
  | 0, s => .next s
  | k + 1, s =>
    match step s with
    | .next t => runSteps k t
    | .fault r => .fault r
    | .refused r => .refused r

/-- The invariant. -/
structure State.Inv (s : State) : Prop where
  mem : s.mem.wf
  table : s.tableOk
  port : s.portOk
  busy : s.busyOk
  request : s.requestOk
  sentinel : s.sentinelOk

end Sys2Proof.Machine
end

