-- ==== Sys2Proof/Certificates/Slice0/Obligations.lean ====
section
/-! DEFINITION. The statements about the model, each with the rule of spec/ it formalises. `s.ended r e` is `s` with
`RESULT = r`, `ERR = e`, `DONE = 1`, the port empty, `PHASE = IDLE`, and every other field as in `s` (Safety.lean): an
equation with it states the instruction's whole effect, frame included. `s.tableOk` is the part of the invariant `State.Inv`
that rules out a table marked valid with other contents than R91's; that every step keeps it is `StepKeepsInvariant`. -/

open Sys2Proof Sys2Proof.Machine

/-! ## Encodings -/

/-- R61, R62, R63: words written out from the table of R61 and what they decode to. -/
def Obligations.CommandWordsDecode : Prop :=
  decode 0x00000000#32 = .ok .nop ∧ decode 0x00000001#32 = .ok .tblinit ∧ decode 0x00000002#32 = .ok .crc32 ∧
  decode 0x00000003#32 = .ok .put32 ∧ decode 0x00000004#32 = .ok .get32 ∧ decode 0x00000005#32 = .ok .wrchunk ∧
  decode 0x00000006#32 = .ok .rdchunk ∧ decode 0x00000106#32 = .ok .rdchunkT ∧ decode 0x00000206#32 = .ok .rdchunkD ∧
  decode 0x00000306#32 = .ok .rdchunkTD ∧ decode 0x00000007#32 = .ok .ckchunk ∧ decode 0x00000008#32 = .ok .encode ∧
  decode 0x00000009#32 = .ok .parse ∧ decode 0x0000000A#32 = .ok .inflate ∧
  decode 0x0000000B#32 = .reject .unknownOpcode ∧ decode 0x00000105#32 = .reject .flagNotAllowed ∧
  decode 0x00000208#32 = .reject .flagNotAllowed ∧ decode 0x00000400#32 = .reject .reservedBits ∧
  decode 0x80000002#32 = .reject .reservedBits

/-- R61: exactly fourteen of the 2^32 words are legal. -/
def Obligations.LegalWordsAreThoseOfR61 : Prop :=
  ∀ w : Word,
    (∃ i : Instr, i.wellFormed = true ∧ decode w = .ok i) ↔
      (w.toNat ≤ 0x0A ∨ w.toNat = 0x106 ∨ w.toNat = 0x206 ∨ w.toNat = 0x306)

/-- R60 to R62 (and the tags of R69): encoding and decoding agree in both directions, so no bit of a word is dropped and no
two words mean one instruction. -/
def Obligations.DecodeEncodeAgreeBothWays : Prop :=
  (∀ i : Instr, decode (encode i) = .ok i) ∧ ∀ (w : Word) (i : Instr), decode w = .ok i → w = encode i

/-! ## Steps -/

/-- R174: the execution step runs the command that `OP` names, and nothing is added around it. -/
def Obligations.StepRunsTheLatchedCommand : Prop :=
  ∀ (s : State) (i : Instr), s.phase = .busy → decode s.op = .ok i →
    (s.agenda = [] → step s = exec i s) ∧
    (∀ rest, s.agenda = .engine :: rest → step s = exec i { s with agenda := rest })

/-- R173, R174: the step after `withFetchWord` runs exactly the word issued. That `withFetchWord` is the host's issue is the
MODEL's choice (log entry 20). -/
def Obligations.IssuedWordRunsNext : Prop :=
  ∀ (s : State) (w : Word) (i : Instr), decode w = .ok i →
    step (s.withFetchWord 32 w.toNat) =
      exec i { s with cmd := w, op := w, done := false, err := .ok, phase := .busy, lent := (s.issue w).lent }

/-- R63, R194: a word outside the fourteen of R61 fails with `ILLCMD`; no memory, no operand, no other field changes. -/
def Obligations.IllegalWordsFail : Prop :=
  ∀ s : State, s.phase = .busy → s.agenda = [] →
    ¬ (s.op.toNat ≤ 0x0A ∨ s.op.toNat = 0x106 ∨ s.op.toNat = 0x206 ∨ s.op.toNat = 0x306) →
    step s = .next (s.ended 0 .illcmd)

/-- R63, R194: the numbers of the opcode table's three `TAG32` rows are illegal command words. That these rows are
constructors is the MODEL's choice (log entry 7). -/
def Obligations.TagRowsAreIllegalCommands : Prop :=
  ∀ s : State, exec .tagIhdr s = .next (s.ended 0 .illcmd) ∧ exec .tagIdat s = .next (s.ended 0 .illcmd) ∧
    exec .tagIend s = .next (s.ended 0 .illcmd)

/-- R174: every execution step answers a next state, which is the end of the command or, for `ENCODE` and `INFLATE`, the
wait for the collaborator. -/
def Obligations.EveryExecutionStepEnds : Prop :=
  ∀ (i : Instr) (s : State), ∃ t, exec i s = .next t ∧
    ((t.phase = .idle ∧ t.done = true ∧ t.creq = none ∧ t.crsp = none) ∨
     ((i = .encode ∨ i = .inflate) ∧ t.phase = .waitc ∧ t.creq.isSome = true ∧ t.err = s.err ∧ t.done = s.done))

/-- R178: in every state of the invariant the resume step ends the command. -/
def Obligations.ResumeStepEnds : Prop :=
  ∀ s : State, s.Inv → s.phase = .resume → s.agenda = [] →
    ∃ t, step s = .next t ∧ t.phase = .idle ∧ t.done = true ∧ t.creq = none ∧ t.crsp = none

/-- R199: without a collaborator's answer and without a reset the command never ends, whatever the host does and however
often the engine is scheduled. -/
def Obligations.UnansweredRequestHangs : Prop :=
  ∀ (k : Nat) (s t : State), s.phase = .waitc → s.done = false →
    (∀ mv ∈ s.agenda, (∀ ws r, mv ≠ .collaborator ws r) ∧ ∀ left, mv ≠ .reset left) →
    runSteps k s = .next t → t.phase = .waitc ∧ t.done = false

/-! ## The host's transactions and the registers -/

/-- R27: what reset leaves in every register and in the hidden state (`TABLE` is not mentioned: the rule leaves it
unspecified), and that a reset of an idle engine does not change buffer memory (the other phases are `ResetEventAnyPhase`). -/
def Obligations.ResetValues : Prop :=
  (∀ i : Nat, State.reset.readReg i = if i = 2 then 1#64 else 0#64) ∧ State.reset.phase = .idle ∧
  State.reset.op = 0#32 ∧ State.reset.tvalid = false ∧ State.reset.creq = none ∧ State.reset.crsp = none ∧
  ∀ (s : State) (left : List (DWord × Byte)) (rest : List Move), s.agenda = .reset left :: rest → s.phase = .idle →
    ∃ t, step s = .next t ∧ t.mem = s.mem

/-- R210, R27, R211: the reset event, in any phase, gives every register and the hidden state its reset value, and does not
touch the parameter `SIG`. Buffer memory is unchanged outside the windows of an interrupted step, and unchanged altogether
when that step has written nothing, in particular in `IDLE` and where the step would fail: in `WAITC` only the
collaborator's output window may have changed, in `RESUME` nothing when the answer is refused. The window of an outstanding
request stays the abandoned collaborator's. That `left` may hold any bytes of the interrupted step's windows, and the record
`stray`, are the MODEL's choice (log entry 11). -/
def Obligations.ResetEventAnyPhase : Prop :=
  ∀ (s : State) (left : List (DWord × Byte)) (rest : List Move), s.agenda = .reset left :: rest →
    ∃ t, step s = .next t ∧ (∀ i : Nat, t.readReg i = if i = 2 then 1#64 else 0#64) ∧ t.phase = .idle ∧ t.op = 0#32 ∧
      t.tvalid = false ∧ t.creq = none ∧ t.crsp = none ∧ t.sig = s.sig ∧
      (∀ a, ¬ inWindows { s with agenda := rest }.openWrites a → t.mem.read a = s.mem.read a) ∧
      (left = [] → t.mem = s.mem) ∧
      (s.phase = .idle → t.mem = s.mem) ∧
      (∀ i u, s.phase = .busy → decode s.op = .ok i → exec i { s with agenda := rest } = .next u → u.phase = .idle →
        u.err ≠ .ok → t.mem = s.mem) ∧
      (∀ q, s.phase = .waitc → s.creq = some q → ⟨q.outAddr.toNat, q.outMax.toNat⟩ ∈ t.stray ∧
        ∀ a, a < q.outAddr.toNat ∨ q.outAddr.toNat + q.outMax.toNat ≤ a → t.mem.read a = s.mem.read a) ∧
      (∀ q r, s.phase = .resume → s.creq = some q → s.crsp = some r →
        (∀ k, r = .ok k → q.outMax.toNat < k.toNat ∨ k.toNat = 0) → t.mem = s.mem) ∧
      ∀ w, w ∈ s.stray → w ∈ t.stray

/-- R19, R185: `STATUS` is composed of `BUSY`, `DONE`, `OVR`, `TVALID`, `ERR` and `KIND` at their places, with the numbers
of R185 for the codes and those of R115 for the classes; the reserved bits read 0. -/
def Obligations.StatusComposition : Prop :=
  ∀ s : State, (s.readReg 1).toNat =
    (if s.phase = .idle then 0 else 1) + (if s.done then 2 else 0) + (if s.ovr then 4 else 0) +
    (if s.tvalid then 8 else 0) +
    16 * (match s.err with
      | .ok => 0 | .sig => 1 | .cap => 2 | .collab => 3 | .corrupt => 4 | .format => 5 | .trunc => 6 | .range => 7
      | .illcmd => 8) +
    256 * (match s.kind with | .other => 0 | .header => 1 | .payload => 2 | .terminator => 3)

/-- R171: a host read returns the register's slot, in any phase, and changes nothing of the engine; and while a command is
in progress the registers that commands write keep what the previous command left, until the step that ends it. -/
def Obligations.HostReadReturnsSlot : Prop :=
  (∀ (s : State) (i : Nat) (rest : List Move), s.agenda = .hostRead i :: rest →
    ∃ t, step s = .next t ∧ t.hostIn = s.readReg i ∧
      t = { s with agenda := rest, hostIn := t.hostIn, lent := t.lent }) ∧
  (∀ s : State, s.readReg 0 = s.cmd.setWidth 64 ∧ s.readReg 1 = s.statusWord.setWidth 64 ∧ s.readReg 2 = (if s.verify then 1#64 else 0#64) ∧ s.readReg 3 = s.src ∧
    s.readReg 4 = s.len ∧ s.readReg 5 = s.dst ∧ s.readReg 6 = s.cap ∧ s.readReg 7 = s.tag.setWidth 64 ∧
    s.readReg 8 = s.val.setWidth 64 ∧ s.readReg 9 = s.width.setWidth 64 ∧ s.readReg 10 = s.height.setWidth 64 ∧
    s.readReg 11 = s.depth.setWidth 64 ∧ s.readReg 12 = s.level.setWidth 64 ∧
    (s.readReg 13).toNat + 2 ^ 64 * (s.readReg 14).toNat = s.result.toNat ∧ s.readReg 15 = s.payoff ∧
    s.readReg 16 = s.paylen.setWidth 64 ∧ ∀ i, 16 < i → s.readReg i = 0#64) ∧
  (∀ s t : State, step s = .next t → t.phase ≠ .idle →
    ∀ i : Nat, i = 7 ∨ i = 8 ∨ i = 9 ∨ i = 10 ∨ i = 11 ∨ i = 13 ∨ i = 14 ∨ i = 15 ∨ i = 16 → t.readReg i = s.readReg i)

/-- R172: the effect of a host write to any register number but `CMD` while idle (which is R173), in the rule's order of
cases. That a write to a number above 16 while busy sets `OVR` is the MODEL's reading (log entry 12). -/
def Obligations.HostWriteRule : Prop :=
  ∀ (s : State) (i : Nat) (v : DWord) (rest : List Move), s.agenda = .hostWrite i v :: rest →
    (i = 1 → step s = .next { s with agenda := rest, ovr := if v.getLsbD 2 then false else s.ovr }) ∧
    (i ≠ 1 → s.phase ≠ .idle → step s = .next { s with agenda := rest, ovr := true }) ∧
    (s.phase = .idle →
      (i = 2 → step s = .next { s with agenda := rest, verify := v.getLsbD 0 }) ∧
      (i = 3 → step s = .next { s with agenda := rest, src := v }) ∧
      (i = 4 → step s = .next { s with agenda := rest, len := v }) ∧
      (i = 5 → step s = .next { s with agenda := rest, dst := v }) ∧
      (i = 6 → step s = .next { s with agenda := rest, cap := v }) ∧
      (i = 7 → step s = .next { s with agenda := rest, tag := v.setWidth 32 }) ∧
      (i = 8 → step s = .next { s with agenda := rest, val := v.setWidth 32 }) ∧
      (i = 9 → step s = .next { s with agenda := rest, width := v.setWidth 32 }) ∧
      (i = 10 → step s = .next { s with agenda := rest, height := v.setWidth 32 }) ∧
      (i = 11 → step s = .next { s with agenda := rest, depth := v.setWidth 8 }) ∧
      (i = 12 → step s = .next { s with agenda := rest, level := v.setWidth 32 }) ∧
      (13 ≤ i → step s = .next { s with agenda := rest }))

/-- R173: a write to `CMD` while idle issues the command, whatever the word: `CMD`, `OP`, `DONE`, `ERR` and `PHASE` are
written and nothing else of the machine. (`lent` is the MODEL's record of the hand-over of R49.) -/
def Obligations.IssueAcceptsAnyWord : Prop :=
  ∀ (s : State) (v : DWord) (rest : List Move), s.agenda = .hostWrite 0 v :: rest → s.phase = .idle →
    ∃ t, step s = .next t ∧
      t = { s with agenda := rest, cmd := v.setWidth 32, op := v.setWidth 32, done := false, err := .ok, phase := .busy,
                   lent := t.lent }

/-- R19: `OVR` is sticky: set, it is cleared only by a host write to `STATUS` with bit 2 set, or by reset. -/
def Obligations.OvrIsSticky : Prop :=
  ∀ s t : State, step s = .next t → s.ovr = true → t.ovr = false →
    (∃ v rest, s.agenda = .hostWrite 1 v :: rest ∧ v.getLsbD 2 = true) ∨ ∃ left rest, s.agenda = .reset left :: rest

/-! ## Ownership, the collaborator -/

/-- R48, R49: the windows of a command's row are handed over at its issue and stay so until the host reads `STATUS` with
`DONE = 1` (or a reset abandons the command). The first clause writes the rows out, command word by command word. The record
`lent` is the MODEL's, and so is the row of `ENCODE`: taken up to its budget, and with `CAP < 58`, where there is no budget,
the parts that need none (log entry 10). -/
def Obligations.WindowsAreLentUntilDoneIsRead : Prop :=
  (∀ (s t : State) (v : DWord) (rest : List Move), s.agenda = .hostWrite 0 v :: rest → s.phase = .idle →
    step s = .next t →
    let owned := fun (base size : Nat) => ∀ a, base ≤ a → a < base + size → inWindows t.lent a
    let w := v.setWidth 32
    let n := (be32Des (s.mem.readBytes s.src.toNat 4)).toNat
    (w = 0x00000002#32 → owned s.src.toNat s.len.toNat) ∧
    (w = 0x00000003#32 → owned s.dst.toNat 4) ∧
    (w = 0x00000004#32 → owned s.src.toNat 4) ∧
    (w = 0x00000005#32 → owned s.dst.toNat (s.len.toNat + 12) ∧
      (s.src.toNat ≠ s.dst.toNat + 8 → owned s.src.toNat s.len.toNat)) ∧
    (w = 0x00000006#32 ∨ w = 0x00000106#32 ∨ w = 0x00000206#32 ∨ w = 0x00000306#32 → owned s.src.toNat 8) ∧
    (w = 0x00000206#32 ∨ w = 0x00000306#32 → n ≤ s.cap.toNat → owned (s.src.toNat + 8) n ∧ owned s.dst.toNat n) ∧
    (w = 0x00000007#32 → owned s.src.toNat (n + 12)) ∧
    (w = 0x00000008#32 → owned s.src.toNat s.len.toNat ∧ owned s.dst.toNat 41 ∧
      (58 ≤ s.cap.toNat → owned s.dst.toNat (57 + min (s.cap.toNat - 57) (2 ^ 32 - 1)))) ∧
    (w = 0x00000009#32 → s.verify = false → owned s.src.toNat 41) ∧
    (w = 0x00000009#32 → s.verify = true →
      owned s.src.toNat (57 + (be32Des (s.mem.readBytes (s.src.toNat + 33) 4)).toNat)) ∧
    (w = 0x0000000A#32 → owned s.src.toNat s.len.toNat ∧ owned s.dst.toNat s.cap.toNat)) ∧
  (∀ (s t : State) (w : Window), step s = .next t → w ∈ s.lent → w ∉ t.lent →
    (∃ rest, s.agenda = .hostRead 1 :: rest ∧ s.done = true) ∨ ∃ left rest, s.agenda = .reset left :: rest)

/-- R49, R217, R45 and U8 as the MODEL treats them (log entry 10): a host access to a byte of a window that is handed over
is a fault; any other host access is plain storage, also to a byte that an abandoned collaborator may still write (R211,
U7). -/
def Obligations.HostRacesFault : Prop :=
  (∀ (s : State) (a : DWord) (b : Byte) (rest : List Move), s.agenda = .hostStore a b :: rest →
    (inWindows s.lent a.toNat → step s = .fault .ownedWindow) ∧
    (¬ inWindows s.lent a.toNat →
      ∃ t, step s = .next t ∧ t = { s with agenda := rest, mem := t.mem } ∧
        ∀ k, t.mem.read k = if k = a.toNat then b else s.mem.read k)) ∧
  (∀ (s : State) (a : DWord) (rest : List Move), s.agenda = .hostLoad a :: rest →
    (inWindows s.lent a.toNat → step s = .fault .ownedWindow) ∧
    (¬ inWindows s.lent a.toNat →
      step s = .next { s with agenda := rest, hostIn := (s.mem.read a.toNat).setWidth 64 })) ∧
  (∀ (s : State) (mv : Move) (rest : List Move), s.agenda = mv :: rest →
    (∀ a b, mv ≠ .hostStore a b) → (∀ a, mv ≠ .hostLoad a) → ∃ t, step s = .next t) ∧
  ∀ s : State, s.agenda = [] → ∃ t, step s = .next t

/-- R177, R50, R211: in `WAITC` the collaborator's step sets the answer and the phase, writes nothing outside its output
window and no register; abandoned by a reset, it writes nothing outside the windows it may still be using, and no register,
until it is quiet (the moves `strayWrites` and `quiet` are the MODEL's, log entry 11). -/
def Obligations.CollaboratorStaysInItsWindow : Prop :=
  (∀ (s : State) (q : CReq) (ws : List (DWord × Byte)) (r : CRsp) (rest : List Move),
    s.phase = .waitc → s.creq = some q → s.agenda = .collaborator ws r :: rest →
    ∃ t, step s = .next t ∧ t = { s with agenda := rest, mem := t.mem, crsp := some r, phase := .resume } ∧
      ∀ a, a < q.outAddr.toNat ∨ q.outAddr.toNat + q.outMax.toNat ≤ a → t.mem.read a = s.mem.read a) ∧
  (∀ (s : State) (ws : List (DWord × Byte)) (rest : List Move), s.agenda = .strayWrites ws :: rest →
    ∃ t, step s = .next t ∧ t = { s with agenda := rest, mem := t.mem } ∧
      ∀ a, ¬ inWindows s.stray a → t.mem.read a = s.mem.read a) ∧
  ∀ (s : State) (rest : List Move), s.agenda = .quiet :: rest →
    step s = .next { s with agenda := rest, stray := [] }

/-- R50, U1, U2: the collaborator may leave any bytes whatever in its whole window, with any answer. The second clause is the
MODEL's choice (log entry 11), the second of the two that R211 and U7 leave to it: after a reset the collaborator may leave
any bytes in a window that it may still be using (the record `stray` and the move `strayWrites`). -/
def Obligations.CollaboratorMayWriteAnything : Prop :=
  (∀ (s : State) (q : CReq) (bytes : List Byte) (r : CRsp), s.phase = .waitc → s.creq = some q →
    bytes.length = q.outMax.toNat → q.outAddr.toNat + q.outMax.toNat ≤ 2 ^ 64 →
    ∃ ws t, step { s with agenda := [.collaborator ws r] } = .next t ∧ t.crsp = some r ∧
      t.mem.readBytes q.outAddr.toNat q.outMax.toNat = bytes) ∧
  ∀ (s : State) (w : Window) (bytes : List Byte), w ∈ s.stray → bytes.length = w.size → w.base + w.size ≤ 2 ^ 64 →
    ∃ ws t, step { s with agenda := [.strayWrites ws] } = .next t ∧ t.mem.readBytes w.base w.size = bytes

/-! ## The simple commands -/

/-- R175: the command word and the whole effect of `NOP`. -/
def Obligations.NopCompletes : Prop :=
  decode 0x00000000#32 = .ok .nop ∧ ∀ s : State, exec .nop s = .next (s.ended 0 .ok)

/-- R99: the table is built, `RESULT = 0`; with a valid table nothing but the command's end. -/
def Obligations.TblinitBuildsTable : Prop :=
  decode 0x00000001#32 = .ok .tblinit ∧ ∀ s : State, s.tableOk →
    exec .tblinit s = .next ({ s with tvalid := true, table := crcTable }.ended 0 .ok)

/-! ## The checksum -/

/-- R91: the step `f` in numbers, the table's size, and the rule's spot values. -/
def Obligations.TableSpotValues : Prop :=
  (∀ c : Word, (crcBit c).toNat = if c.toNat % 2 = 1 then c.toNat / 2 ^^^ 0xEDB88320 else c.toNat / 2) ∧
  (∀ i : Nat, i < 256 → crcTable[i]? = some (crcBit^[8] (BitVec.ofNat 32 i))) ∧ crcTable.length = 256 ∧
  crcTable[0]? = some 0x00000000#32 ∧ crcTable[1]? = some 0x77073096#32 ∧ crcTable[2]? = some 0xEE0E612C#32 ∧
  crcTable[8]? = some 0x0EDB8832#32 ∧ crcTable[16]? = some 0x1DB71064#32 ∧ crcTable[128]? = some 0xEDB88320#32 ∧
  crcTable[255]? = some 0x2D02EF8D#32

/-- R93: the table-driven update step and the one without a table, `f` applied eight times, are equal. -/
def Obligations.TableAndPolynomialStepsAgree : Prop :=
  ∀ (acc : Word) (b : Byte), crcUpd crcTable acc b = crcBit^[8] (acc ^^^ b.setWidth 32)

/-- R95 and the vectors of 95_test_vectors.md section 2.2. -/
def Obligations.ChecksumVectors : Prop :=
  crc32 [] = 0x00000000#32 ∧ crc32 [0x61#8] = 0xE8B7BE43#32 ∧ crc32 [0x61#8, 0x62#8, 0x63#8] = 0x352441C2#32 ∧
  crc32 [0x31#8, 0x32#8, 0x33#8, 0x34#8, 0x35#8, 0x36#8, 0x37#8, 0x38#8, 0x39#8] = 0xCBF43926#32 ∧
  crc32 [0x49#8, 0x45#8, 0x4E#8, 0x44#8] = 0xAE426082#32 ∧ crc32 [0xFF#8] = 0xFF000000#32

/-- R91, R92, R94: two byte sequences of one length that differ in exactly one byte, in however many of its bits, have
different checksums: for one byte the update is injective in the accumulator, and for one accumulator in the byte. R126 and
G5 say it of a single changed bit. -/
def Obligations.ChecksumSeesOneChangedByte : Prop :=
  ∀ (before after : List Byte) (x y : Byte), x ≠ y → crc32 (before ++ x :: after) ≠ crc32 (before ++ y :: after)

/-- R98: `CRC32`, all cases: the checksum of the source window, the table built unless there is no byte, and `RANGE`. -/
def Obligations.Crc32Result : Prop :=
  decode 0x00000002#32 = .ok .crc32 ∧ ∀ s : State, s.tableOk →
    (s.src.toNat + s.len.toNat ≤ 2 ^ 64 →
      exec .crc32 s = .next
        ({ s with
            tvalid := if s.len.toNat = 0 then s.tvalid else true
            table := if s.len.toNat = 0 then s.table else crcTable }.ended
          (crc32 (s.mem.readBytes s.src.toNat s.len.toNat)).toNat .ok)) ∧
    (2 ^ 64 < s.src.toNat + s.len.toNat → exec .crc32 s = .next (s.ended 0 .range))

/-- R97: no command's registers, code or memory depend on whether the table was built before: two states that differ in
`TVALID` and `TABLE` only answer states that differ in `TVALID` and `TABLE` only, in the execution step and in the resume
step. -/
def Obligations.WarmTableMakesNoDifference : Prop :=
  ∀ (s t : State) (valid : Bool) (table : List Word), s.tableOk → { s with tvalid := valid, table := table }.tableOk →
    (∀ i : Instr, exec i s = .next t →
      ∃ t', exec i { s with tvalid := valid, table := table } = .next t' ∧
        t' = { t with tvalid := t'.tvalid, table := t'.table }) ∧
    (resumeStep s = .next t →
      ∃ t', resumeStep { s with tvalid := valid, table := table } = .next t' ∧
        t' = { t with tvalid := t'.tvalid, table := t'.table })

/-- R22, R101: once valid, the table stays valid and unchanged until a reset. -/
def Obligations.ValidTableStays : Prop :=
  ∀ s t : State, step s = .next t → s.tvalid = true →
    (t.tvalid = true ∧ t.table = s.table) ∨ ∃ left rest, s.agenda = .reset left :: rest

/-! ## The serializer -/

/-- R105, R106: the byte order of a 32-bit field, in numbers: most significant byte first. -/
def Obligations.BigEndianFields : Prop :=
  (∀ v : Word, (be32Ser v).map BitVec.toNat =
    [v.toNat / 2 ^ 24, v.toNat / 2 ^ 16 % 256, v.toNat / 2 ^ 8 % 256, v.toNat % 256]) ∧
  (∀ a b c d : Byte, (be32Des [a, b, c, d]).toNat = a.toNat * 2 ^ 24 + b.toNat * 2 ^ 16 + c.toNat * 2 ^ 8 + d.toNat)

/-- R111: the serializer and the deserializer are inverse bijections. -/
def Obligations.SerializerIsBijection : Prop :=
  (∀ v : Word, be32Des (be32Ser v) = v) ∧ ∀ bytes : List Byte, bytes.length = 4 → be32Ser (be32Des bytes) = bytes

/-- R108: `PUT32`, all cases. The stored bytes are the four at `DST`, most significant first; every other byte, and every
register but `RESULT` and the end of the command, is unchanged. -/
def Obligations.Put32Result : Prop :=
  decode 0x00000003#32 = .ok .put32 ∧ ∀ s : State,
    (s.dst.toNat + 4 ≤ 2 ^ 64 →
      ∃ t, exec .put32 s = .next t ∧ t = { s with mem := t.mem }.ended 4 .ok ∧
        t.mem.readBytes s.dst.toNat 4 = be32Ser s.val ∧
        ∀ a, a < s.dst.toNat ∨ s.dst.toNat + 4 ≤ a → t.mem.read a = s.mem.read a) ∧
    (2 ^ 64 < s.dst.toNat + 4 → exec .put32 s = .next (s.ended 0 .range))

/-- R109: `GET32`, all cases; on failure `VAL` keeps its value. -/
def Obligations.Get32Result : Prop :=
  decode 0x00000004#32 = .ok .get32 ∧ ∀ s : State,
    (s.src.toNat + 4 ≤ 2 ^ 64 →
      exec .get32 s = .next
        ({ s with val := be32Des (s.mem.readBytes s.src.toNat 4) }.ended
          (be32Des (s.mem.readBytes s.src.toNat 4)).toNat .ok)) ∧
    (2 ^ 64 < s.src.toNat + 4 → exec .get32 s = .next (s.ended 0 .range))

/-! ## The chunk codec -/

/-- R115: the type-tag router, its classes by name and by the numbers that `STATUS.KIND` shows. -/
def Obligations.RouteClasses : Prop :=
  (∀ t : Word, (route t).bits.toNat =
    if t = 0x49484452#32 then 1 else if t = 0x49444154#32 then 2 else if t = 0x49454E44#32 then 3 else 0) ∧
  ∀ t : Word, (route t = .header ↔ t = 0x49484452#32) ∧ (route t = .payload ↔ t = 0x49444154#32) ∧
    (route t = .terminator ↔ t = 0x49454E44#32) ∧
    (route t = .other ↔ t ≠ 0x49484452#32 ∧ t ≠ 0x49444154#32 ∧ t ≠ 0x49454E44#32)

/-- R116, R117: a chunk is its length, tag, data and checksum in that order; its parts read back, and its checksum is
valid. -/
def Obligations.ChunkReadsBack : Prop :=
  ∀ (t : Word) (data : List Byte), data.length < 2 ^ 32 →
    chunk t data = be32Ser (BitVec.ofNat 32 data.length) ++ be32Ser t ++ data ++ be32Ser (crc32 (be32Ser t ++ data)) ∧
    (chunk t data).length = data.length + 12 ∧ chunkLen (chunk t data) = data.length ∧ chunkTag (chunk t data) = t ∧
    chunkData (chunk t data) = data ∧ chunkValid (chunk t data) = true

/-- R118, R119, R120, R220: `WRCHUNK`, all cases. It fails with `RANGE`, before any write, exactly when the length does not
fit its field or a window would wrap; else it completes, writes nothing outside `[DST, DST+n+12)` and no register but
`RESULT`, and leaves there the length, the tag, the data and the checksum over tag and data as they stand. The data are what
the ascending one-byte loop gives: byte `i` is the source byte as the command has already rewritten it, or else as it was.
When the windows are disjoint or the form is in place that is `chunk(TAG, data)`. -/
def Obligations.WrchunkWritesTheChunk : Prop :=
  decode 0x00000005#32 = .ok .wrchunk ∧ ∀ s : State, s.tableOk →
    ((2 ^ 32 ≤ s.len.toNat ∨ 2 ^ 64 < s.dst.toNat + s.len.toNat + 12 ∨
        (s.len.toNat ≠ 0 ∧ s.src.toNat ≠ s.dst.toNat + 8 ∧ 2 ^ 64 < s.src.toNat + s.len.toNat)) →
      exec .wrchunk s = .next (s.ended 0 .range)) ∧
    (s.len.toNat < 2 ^ 32 → s.dst.toNat + s.len.toNat + 12 ≤ 2 ^ 64 →
      (s.len.toNat = 0 ∨ s.src.toNat = s.dst.toNat + 8 ∨ s.src.toNat + s.len.toNat ≤ 2 ^ 64) →
      ∃ t, exec .wrchunk s = .next t ∧
        t = { s with mem := t.mem, tvalid := true, table := crcTable }.ended (s.len.toNat + 12) .ok ∧
        (∀ a, a < s.dst.toNat ∨ s.dst.toNat + s.len.toNat + 12 ≤ a → t.mem.read a = s.mem.read a) ∧
        t.mem.readBytes s.dst.toNat 8 = be32Ser (s.len.setWidth 32) ++ be32Ser s.tag ∧
        (∀ i, i < s.len.toNat → t.mem.read (s.dst.toNat + 8 + i) =
          if s.dst.toNat ≤ s.src.toNat + i ∧ s.src.toNat + i < s.dst.toNat + 8 + i then t.mem.read (s.src.toNat + i)
          else s.mem.read (s.src.toNat + i)) ∧
        t.mem.readBytes (s.dst.toNat + 8 + s.len.toNat) 4 =
          be32Ser (crc32 (t.mem.readBytes (s.dst.toNat + 4) (s.len.toNat + 4))) ∧
        ((s.len.toNat = 0 ∨ s.src.toNat = s.dst.toNat + 8 ∨ s.src.toNat + s.len.toNat ≤ s.dst.toNat ∨
            s.dst.toNat + s.len.toNat + 12 ≤ s.src.toNat) →
          t.mem.readBytes s.dst.toNat (s.len.toNat + 12) =
            chunk s.tag (s.mem.readBytes s.src.toNat s.len.toNat)))

/-- R120 (b): whatever the overlap, the chunk that `WRCHUNK` leaves is well formed: it has the length and the tag of the
operands and a valid checksum. -/
def Obligations.WrchunkIsAlwaysWellFormed : Prop :=
  ∀ s t : State, s.tableOk → exec .wrchunk s = .next t → t.err = .ok →
    let b := t.mem.readBytes s.dst.toNat (s.len.toNat + 12)
    chunkLen b = s.len.toNat ∧ chunkTag b = s.tag ∧ chunkValid b = true

/-- R121, R122, R123: `RDCHUNK` in its four spellings, the successful cases. Without a copy the equation is the whole
effect; with one, the bytes written are the `n` at `DST`, and they are what the ascending one-byte loop gives (R122 (g),
R220): byte `i` is the data byte as the loop has already rewritten it, or else as it was. When the windows do not meet that
is a copy of the data field. -/
def Obligations.RdchunkResults : Prop :=
  ∀ (i : Instr) (wt wd : Bool) (s : State),
    (i, wt, wd) ∈ [(Instr.rdchunk, false, false), (.rdchunkT, true, false), (.rdchunkD, false, true),
      (.rdchunkTD, true, true)] →
    s.src.toNat + s.len.toNat ≤ 2 ^ 64 → 8 ≤ s.len.toNat →
    let n := (be32Des (s.mem.readBytes s.src.toNat 4)).toNat
    let t := be32Des (s.mem.readBytes (s.src.toNat + 4) 4)
    ((wd = false ∨ s.cap.toNat < n) →
      exec i s = .next ({ s with kind := route t, tag := if wt then t else s.tag }.ended (n + 12) .ok)) ∧
    (wd = true → n ≤ s.cap.toNat → 8 + n ≤ s.len.toNat → s.dst.toNat + n ≤ 2 ^ 64 →
      ∃ u, exec i s = .next u ∧
        u = { s with kind := route t, tag := if wt then t else s.tag, mem := u.mem }.ended (n + 12) .ok ∧
        (∀ a, a < s.dst.toNat ∨ s.dst.toNat + n ≤ a → u.mem.read a = s.mem.read a) ∧
        (∀ i, i < n → u.mem.read (s.dst.toNat + i) =
          if s.dst.toNat ≤ s.src.toNat + 8 + i ∧ s.src.toNat + 8 + i < s.dst.toNat + i then
            u.mem.read (s.src.toNat + 8 + i)
          else s.mem.read (s.src.toNat + 8 + i)) ∧
        ((s.src.toNat + 8 + n ≤ s.dst.toNat ∨ s.dst.toNat + n ≤ s.src.toNat + 8) →
          u.mem.readBytes s.dst.toNat n = s.mem.readBytes (s.src.toNat + 8) n))

/-- R121, R122 (f), R195: the failing cases of `RDCHUNK`, in the rule's order; nothing is written. -/
def Obligations.RdchunkFailures : Prop :=
  ∀ (i : Instr) (wd : Bool) (s : State),
    (i, wd) ∈ [(Instr.rdchunk, false), (.rdchunkT, false), (.rdchunkD, true), (.rdchunkTD, true)] →
    let n := (be32Des (s.mem.readBytes s.src.toNat 4)).toNat
    (2 ^ 64 < s.src.toNat + s.len.toNat → exec i s = .next (s.ended 0 .range)) ∧
    (s.src.toNat + s.len.toNat ≤ 2 ^ 64 → s.len.toNat < 8 → exec i s = .next (s.ended 0 .trunc)) ∧
    (s.src.toNat + s.len.toNat ≤ 2 ^ 64 → 8 ≤ s.len.toNat → wd = true → n ≤ s.cap.toNat →
      (s.len.toNat < 8 + n → exec i s = .next (s.ended 0 .trunc)) ∧
      (8 + n ≤ s.len.toNat → 2 ^ 64 < s.dst.toNat + n → exec i s = .next (s.ended 0 .range)))

/-- R125: `CKCHUNK`, all cases in the rule's order, whatever `CTRL.VERIFY` is. -/
def Obligations.CkchunkResults : Prop :=
  decode 0x00000007#32 = .ok .ckchunk ∧ ∀ s : State, s.tableOk →
    let n := (be32Des (s.mem.readBytes s.src.toNat 4)).toNat
    let t := be32Des (s.mem.readBytes (s.src.toNat + 4) 4)
    let sum := crc32 (s.mem.readBytes (s.src.toNat + 4) (n + 4))
    let stored := be32Des (s.mem.readBytes (s.src.toNat + 8 + n) 4)
    (2 ^ 64 < s.src.toNat + s.len.toNat → exec .ckchunk s = .next (s.ended 0 .range)) ∧
    (s.src.toNat + s.len.toNat ≤ 2 ^ 64 →
      ((s.len.toNat < 12 ∨ s.len.toNat < n + 12) → exec .ckchunk s = .next (s.ended 0 .trunc)) ∧
      (12 ≤ s.len.toNat → n + 12 ≤ s.len.toNat →
        (sum ≠ stored → exec .ckchunk s = .next ({ s with tvalid := true, table := crcTable }.ended 0 .corrupt)) ∧
        (sum = stored → exec .ckchunk s = .next
          ({ s with tvalid := true, table := crcTable, kind := route t }.ended (n + 12) .ok))))

/-- R126: a chunk that `WRCHUNK` has written passes `CKCHUNK`, and `RDCHUNK.TD` reads its tag and its data back. `u` is any
later state over the same bytes, with the operands the rule asks for. -/
def Obligations.WrittenChunkVerifiesAndReadsBack : Prop :=
  ∀ s t u : State, s.tableOk → exec .wrchunk s = .next t → t.err = .ok →
    (s.len.toNat = 0 ∨ s.src.toNat = s.dst.toNat + 8 ∨ s.src.toNat + s.len.toNat ≤ s.dst.toNat ∨
      s.dst.toNat + s.len.toNat + 12 ≤ s.src.toNat) →
    u.mem = t.mem → u.tableOk → u.src = s.dst → s.len.toNat + 12 ≤ u.len.toNat →
    u.src.toNat + u.len.toNat ≤ 2 ^ 64 →
    (exec .ckchunk u = .next
      ({ u with tvalid := true, table := crcTable, kind := route s.tag }.ended (s.len.toNat + 12) .ok)) ∧
    (s.len.toNat ≤ u.cap.toNat → u.dst.toNat + s.len.toNat ≤ 2 ^ 64 →
      (u.src.toNat + 8 + s.len.toNat ≤ u.dst.toNat ∨ u.dst.toNat + s.len.toNat ≤ u.src.toNat + 8) →
      ∃ v, exec .rdchunkTD u = .next v ∧ v.err = .ok ∧ v.tag = s.tag ∧ v.result.toNat = s.len.toNat + 12 ∧
        v.mem.readBytes u.dst.toNat s.len.toNat = s.mem.readBytes s.src.toNat s.len.toNat)

/-- R126 and, for a whole byte, R91, R92, R94: if any one byte of the tag, data or checksum field of a chunk that `WRCHUNK`
has written is changed (so in particular any single bit), `CKCHUNK` fails with `CORRUPT`. -/
def Obligations.DamagedChunkIsDetected : Prop :=
  ∀ (s t u : State) (a : Nat), s.tableOk → exec .wrchunk s = .next t → t.err = .ok →
    s.dst.toNat + 4 ≤ a → a < s.dst.toNat + s.len.toNat + 12 →
    (∀ k, k ≠ a → u.mem.read k = t.mem.read k) → u.mem.read a ≠ t.mem.read a →
    u.tableOk → u.src = s.dst → s.len.toNat + 12 ≤ u.len.toNat → u.src.toNat + u.len.toNat ≤ 2 ^ 64 →
    exec .ckchunk u = .next ({ u with tvalid := true, table := crcTable }.ended 0 .corrupt)

/-! ## The container encoder -/

/-- R136 to R139: `ENCODE`, first half, all cases: the checks in the rule's order, before any write; then the signature
and the header chunk, the request, and the wait. `s.sig` is the parameter `SIG` of R4, any eight bytes. -/
def Obligations.EncodeSendsItsRequest : Prop :=
  ∀ s : State, s.tableOk →
    ((2 ^ 64 < s.dst.toNat + s.cap.toNat ∨ 2 ^ 64 < s.src.toNat + s.len.toNat) →
      exec .encode s = .next (s.ended 0 .range)) ∧
    (s.dst.toNat + s.cap.toNat ≤ 2 ^ 64 → s.src.toNat + s.len.toNat ≤ 2 ^ 64 → s.cap.toNat < 58 →
      exec .encode s = .next (s.ended 0 .cap)) ∧
    (s.dst.toNat + s.cap.toNat ≤ 2 ^ 64 → s.src.toNat + s.len.toNat ≤ 2 ^ 64 → 58 ≤ s.cap.toNat →
      ∃ t, exec .encode s = .next t ∧
        t = { s with
              mem := t.mem
              tvalid := true
              table := crcTable
              phase := .waitc
              creq := some {
                kind := .compress
                inAddr := s.src
                inLen := s.len
                outAddr := s.dst + 41#64
                outMax := BitVec.ofNat 64 (min (s.cap.toNat - 57) (2 ^ 32 - 1))
                level := s.level } } ∧
        t.mem.readBytes s.dst.toNat 33 =
          s.sig.toList ++ chunk 0x49484452#32 (be32Ser s.width ++ be32Ser s.height ++ [s.depth, 0#8, 0#8, 0#8, 0#8]) ∧
        ∀ a, a < s.dst.toNat ∨ s.dst.toNat + 33 ≤ a → t.mem.read a = s.mem.read a)

/-- R140, R141: `ENCODE`, second half, on every answer: the failures, and the framing of the payload as it stands in
memory. `q` is the request that is out. -/
def Obligations.EncodeFramesTheAnswer : Prop :=
  ∀ (s : State) (q : CReq) (r : CRsp), s.tableOk → s.phase = .resume → s.op = 0x00000008#32 → s.agenda = [] →
    s.creq = some q → s.crsp = some r →
    (r = .error → step s = .next (s.ended 0 .collab)) ∧
    (∀ k, r = .ok k →
      (q.outMax.toNat < k.toNat → step s = .next (s.ended 0 .cap)) ∧
      (k.toNat = 0 → step s = .next (s.ended 0 .collab)) ∧
      (1 ≤ k.toNat → k.toNat ≤ q.outMax.toNat → k.toNat < 2 ^ 32 →
        ∃ t, step s = .next t ∧
          t = { s with mem := t.mem, tvalid := true, table := crcTable }.ended (57 + k.toNat) .ok ∧
          t.mem.readBytes (s.dst.toNat + 33) (24 + k.toNat) =
            chunk 0x49444154#32 (s.mem.readBytes (s.dst.toNat + 41) k.toNat) ++ chunk 0x49454E44#32 [] ∧
          ∀ a, a < s.dst.toNat + 33 ∨ (s.dst.toNat + 41 ≤ a ∧ a < s.dst.toNat + 41 + k.toNat) ∨
            s.dst.toNat + 57 + k.toNat ≤ a → t.mem.read a = s.mem.read a))

/-- R142: `ENCODE`, from its execution step through the collaborator's answer to its end: memory at `DST` is the container
of the registers and of the payload that the collaborator left, `RESULT` is its size, and bytes outside it and outside the
collaborator's window are unchanged. -/
def Obligations.EncodeBuildsTheContainer : Prop :=
  ∀ (s : State) (ws : List (DWord × Byte)) (k : DWord), s.tableOk → s.phase = .busy → s.op = 0x00000008#32 →
    s.agenda = [.engine, .collaborator ws (.ok k), .engine] →
    s.dst.toNat + s.cap.toNat ≤ 2 ^ 64 → s.src.toNat + s.len.toNat ≤ 2 ^ 64 → 58 ≤ s.cap.toNat → 1 ≤ k.toNat →
    k.toNat ≤ min (s.cap.toNat - 57) (2 ^ 32 - 1) →
    ∃ u v, runSteps 2 s = .next u ∧ runSteps 3 s = .next v ∧
      v = { s with mem := v.mem, tvalid := true, table := crcTable, agenda := [] }.ended (57 + k.toNat) .ok ∧
      v.mem.readBytes s.dst.toNat (57 + k.toNat) =
        container s.sig s.width s.height s.depth (u.mem.readBytes (s.dst.toNat + 41) k.toNat) ∧
      ∀ a, a < s.dst.toNat ∨ (s.dst.toNat + 57 + k.toNat ≤ a ∧
        s.dst.toNat + 41 + min (s.cap.toNat - 57) (2 ^ 32 - 1) ≤ a) → v.mem.read a = s.mem.read a

/-! ## The container decoder -/

/-- R152, R153 (with R195's list): `PARSE` always ends, with the code of the first failing check in the rule's order, and
with `OK` when none fails. -/
def Obligations.ParseReportsTheFirstFailure : Prop :=
  ∀ s : State, s.tableOk →
    let get := fun k => be32Des (s.mem.readBytes (s.src.toNat + k) 4)
    let n := (get 33).toNat
    ∃ t, exec .parse s = .next t ∧ t.err =
      if 2 ^ 64 < s.src.toNat + s.len.toNat then .range
      else if s.len.toNat < 8 then .trunc
      else if s.mem.readBytes s.src.toNat 8 ≠ s.sig.toList then .sig
      else if s.len.toNat < 33 then .trunc
      else if get 8 ≠ 13#32 then .format
      else if get 12 ≠ 0x49484452#32 then .format
      else if s.verify = true ∧ crc32 (s.mem.readBytes (s.src.toNat + 12) 17) ≠ get 29 then .corrupt
      else if s.len.toNat < 41 then .trunc
      else if get 37 ≠ 0x49444154#32 then .format
      else if s.len.toNat < 41 + n then .trunc
      else if s.verify = false then .ok
      else if s.len.toNat < 57 + n then .trunc
      else if crc32 (s.mem.readBytes (s.src.toNat + 37) (n + 4)) ≠ get (41 + n) then .corrupt
      else if get (45 + n) ≠ 0#32 then .format
      else if get (49 + n) ≠ 0x49454E44#32 then .format
      else if get (53 + n) ≠ 0xAE426082#32 then .corrupt
      else .ok

/-- R152, R154, R155 (g), R96: what `PARSE` writes when it succeeds, all at once and nothing else, and that it changes no
register but `RESULT` when it fails. A failing `PARSE` has built the table exactly when `VERIFY = 1` and it got as far as the
header chunk's checksum, past the range, length, signature and header checks. -/
def Obligations.ParseResults : Prop :=
  ∀ s t : State, s.tableOk → exec .parse s = .next t →
    let get := fun k => be32Des (s.mem.readBytes (s.src.toNat + k) 4)
    let reached := s.verify = true ∧ s.src.toNat + s.len.toNat ≤ 2 ^ 64 ∧ 33 ≤ s.len.toNat ∧
      s.mem.readBytes s.src.toNat 8 = s.sig.toList ∧ get 8 = 13#32 ∧ get 12 = 0x49484452#32
    (t.err = .ok →
      t = { s with
            width := get 16
            height := get 20
            depth := s.mem.read (s.src.toNat + 24)
            payoff := 41#64
            paylen := get 33
            tvalid := s.tvalid || s.verify
            table := if s.verify then crcTable else s.table }.ended
        ((get 16).toNat * (get 20).toNat * (s.mem.read (s.src.toNat + 24)).toNat / 8) .ok) ∧
    (t.err ≠ .ok → reached → t = { s with tvalid := true, table := crcTable }.ended 0 t.err) ∧
    (t.err ≠ .ok → ¬ reached → t = s.ended 0 t.err)

/-- R153: with `VERIFY = 1`, `PARSE` succeeds exactly when the source window holds a container, up to the four mode bytes,
which may hold anything that the header checksum matches. -/
def Obligations.VerifiedParseAcceptsExactlyContainers : Prop :=
  ∀ s : State, s.tableOk → s.verify = true →
    ((∃ t, exec .parse s = .next t ∧ t.err = .ok) ↔
      (s.src.toNat + s.len.toNat ≤ 2 ^ 64 ∧
        ∃ (w h : Word) (d : Byte) (modes p : List Byte), modes.length = 4 ∧ p.length < 2 ^ 32 ∧
          57 + p.length ≤ s.len.toNat ∧
          s.mem.readBytes s.src.toNat (57 + p.length) =
            s.sig.toList ++ chunk 0x49484452#32 (be32Ser w ++ be32Ser h ++ [d] ++ modes) ++
              chunk 0x49444154#32 p ++ chunk 0x49454E44#32 []))

/-- R152: `PARSE` completes on every container, verified or not, with the values of R152, R154 and the raw size of R151. -/
def Obligations.ParseCompletesOnContainers : Prop :=
  ∀ (s : State) (w h : Word) (d : Byte) (p : List Byte), s.tableOk → s.src.toNat + s.len.toNat ≤ 2 ^ 64 →
    p.length < 2 ^ 32 → 57 + p.length ≤ s.len.toNat →
    s.mem.readBytes s.src.toNat (57 + p.length) = container s.sig w h d p →
    exec .parse s = .next
      ({ s with
          width := w
          height := h
          depth := d
          payoff := 41#64
          paylen := BitVec.ofNat 32 p.length
          tvalid := s.tvalid || s.verify
          table := if s.verify then crcTable else s.table }.ended (w.toNat * h.toNat * d.toNat / 8) .ok) ∧
    s.mem.readBytes (s.src.toNat + 41) p.length = p

/-- R161: the framing half of the round trip: what `ENCODE` has built, `PARSE` takes apart, in either mode, and returns the
encoder's width, height and depth and the payload's place and length. `x` is any later state of the same instance (one
signature) over the same bytes. -/
def Obligations.EncodeThenParseRoundTrip : Prop :=
  ∀ (s v x : State) (ws : List (DWord × Byte)) (k : DWord), s.tableOk → s.phase = .busy → s.op = 0x00000008#32 →
    s.agenda = [.engine, .collaborator ws (.ok k), .engine] → runSteps 3 s = .next v → v.err = .ok →
    (∀ a, s.dst.toNat ≤ a → a < s.dst.toNat + 57 + k.toNat → x.mem.read a = v.mem.read a) → x.tableOk →
    x.sig = s.sig → x.src = s.dst → 57 + k.toNat ≤ x.len.toNat → x.src.toNat + x.len.toNat ≤ 2 ^ 64 →
    ∃ y, exec .parse x = .next y ∧ y.err = .ok ∧ y.width = s.width ∧ y.height = s.height ∧ y.depth = s.depth ∧
      y.payoff = 41#64 ∧ y.paylen.toNat = k.toNat ∧
      y.mem.readBytes (x.src.toNat + 41) k.toNat = v.mem.readBytes (s.dst.toNat + 41) k.toNat

/-- R151: the raw size is the rounded-down quotient, it is exact (it fits the 69 bits of `RESULT`, so the value read is the
value computed), and the rule's examples. -/
def Obligations.RawSizeFitsResult : Prop :=
  (∀ (w h : Word) (d : Byte), rawSize w h d = w.toNat * h.toNat * d.toNat / 8 ∧
    w.toNat * h.toNat * d.toNat < 2 ^ 72 ∧ (BitVec.ofNat 69 (rawSize w h d)).toNat = rawSize w h d) ∧
  rawSize 4#32 2#32 8#8 = 8 ∧ rawSize 1#32 1#32 16#8 = 2 ∧ rawSize 3#32 3#32 1#8 = 1 ∧ rawSize 0#32 7#32 8#8 = 0 ∧
  rawSize 0xFFFFFFFF#32 0xFFFFFFFF#32 16#8 = 0x1FFFFFFFC00000002

/-- R158: `INFLATE`, first half, all cases. -/
def Obligations.InflateSendsItsRequest : Prop :=
  decode 0x0000000A#32 = .ok .inflate ∧ ∀ s : State,
    (s.src.toNat + s.len.toNat ≤ 2 ^ 64 → s.dst.toNat + s.cap.toNat ≤ 2 ^ 64 →
      exec .inflate s = .next
        { s with
          phase := .waitc
          creq := some {
            kind := .decompress
            inAddr := s.src
            inLen := s.len
            outAddr := s.dst
            outMax := s.cap
            level := 0#32 } }) ∧
    ((2 ^ 64 < s.src.toNat + s.len.toNat ∨ 2 ^ 64 < s.dst.toNat + s.cap.toNat) →
      exec .inflate s = .next (s.ended 0 .range))

/-- R160: `INFLATE`, second half, on every answer. -/
def Obligations.InflateReportsTheAnswer : Prop :=
  ∀ (s : State) (q : CReq) (r : CRsp), s.phase = .resume → s.op = 0x0000000A#32 → s.agenda = [] →
    s.creq = some q → s.crsp = some r →
    (r = .error → step s = .next (s.ended 0 .collab)) ∧
    (∀ k, r = .ok k →
      (s.cap.toNat < k.toNat → step s = .next (s.ended 0 .cap)) ∧
      (k.toNat = 0 → step s = .next (s.ended 0 .collab)) ∧
      (1 ≤ k.toNat → k.toNat ≤ s.cap.toNat → step s = .next (s.ended k.toNat .ok)))

/-! ## Rules over all commands -/

/-- R190: the step in which a command fails has written `RESULT = 0`, the code, `DONE`, the port and `PHASE`, and nothing
else: not even memory (what `ENCODE` has written before it fails, its first half wrote, a step earlier); in an execution
step the table may have been built. -/
def Obligations.FailureIsPrecise : Prop :=
  (∀ (i : Instr) (s t : State), s.tableOk → exec i s = .next t → t.phase = .idle → t.err ≠ .ok →
    t = s.ended 0 t.err ∨ t = { s with tvalid := true, table := crcTable }.ended 0 t.err) ∧
  ∀ s t : State, s.err = .ok → resumeStep s = .next t → t.err ≠ .ok → t = s.ended 0 t.err

/-- R48: no execution step writes a byte outside its row. -/
def Obligations.WritesStayInTheFootprint : Prop :=
  ∀ (i : Instr) (s t : State) (a : Nat), exec i s = .next t → ¬ inWindows (execWrites i s) a →
    t.mem.read a = s.mem.read a

/-- R48: no execution step depends on a byte outside its row: over a memory that agrees on the bytes it may read, it ends
in the same registers and leaves the same bytes in the windows it may write, or it has written nothing in either. -/
def Obligations.ReadsStayInTheFootprint : Prop :=
  ∀ (i : Instr) (s t : State) (m : Memory), exec i s = .next t →
    (∀ a, inWindows (engineReads i s) a → m.read a = s.mem.read a) →
    ∃ t', exec i { s with mem := m } = .next t' ∧ t' = { t with mem := t'.mem } ∧
      ((∀ a, inWindows (execWrites i s) a → t'.mem.read a = t.mem.read a) ∨ (t.mem = s.mem ∧ t'.mem = m))

/-- R180: every operand register survives every command, in both of its steps, except `TAG` (`RDCHUNK` with `WT`), `VAL`
(`GET32`) and `WIDTH`, `HEIGHT`, `DEPTH` (`PARSE`); and `PAYOFF`, `PAYLEN`, `KIND`, `CTRL`, `CMD`, `OVR` change only where
R10, R19 say so. -/
def Obligations.OperandsSurviveCommands : Prop :=
  (∀ s t : State, resumeStep s = .next t →
    t.src = s.src ∧ t.len = s.len ∧ t.dst = s.dst ∧ t.cap = s.cap ∧ t.tag = s.tag ∧ t.val = s.val ∧ t.width = s.width ∧
    t.height = s.height ∧ t.depth = s.depth ∧ t.level = s.level ∧ t.verify = s.verify ∧ t.cmd = s.cmd ∧ t.op = s.op ∧
    t.ovr = s.ovr ∧ t.payoff = s.payoff ∧ t.paylen = s.paylen ∧ t.kind = s.kind ∧ t.sig = s.sig) ∧
  ∀ (i : Instr) (s t : State), exec i s = .next t →
    (t.src = s.src ∧ t.len = s.len ∧ t.dst = s.dst ∧ t.cap = s.cap ∧ t.level = s.level ∧ t.verify = s.verify ∧
      t.cmd = s.cmd ∧ t.op = s.op ∧ t.ovr = s.ovr ∧ t.sig = s.sig) ∧
    (i ≠ .rdchunkT → i ≠ .rdchunkTD → t.tag = s.tag) ∧ (i ≠ .get32 → t.val = s.val) ∧
    (i ≠ .parse → t.width = s.width ∧ t.height = s.height ∧ t.depth = s.depth ∧ t.payoff = s.payoff ∧
      t.paylen = s.paylen) ∧
    (i ≠ .rdchunk → i ≠ .rdchunkT → i ≠ .rdchunkD → i ≠ .rdchunkTD → i ≠ .ckchunk → t.kind = s.kind)

/-! ## The invariant -/

/-- The invariant holds at reset. The contents of memory and table there are the MODEL's choice (log entries 3, 4). -/
def Obligations.InvariantHoldsAtReset : Prop := State.reset.Inv

/-- R18, R22, R23, R24, R96, R190: every step, of any agent, keeps the invariant: memory in its canonical form, a valid
table with the contents of R91, the port records as the phase says, `OP` equal to `CMD` with `DONE` and `ERR` clear while
a command is in progress, the outstanding request as the operand registers still make it, and the failure sentinel. -/
def Obligations.StepKeepsInvariant : Prop :=
  ∀ s t : State, s.Inv → step s = .next t → t.Inv
end

