-- ==== Sys2Proof/Laws/State.lean ====
section
/-! SUPPORT. One lemma per field per state update, so that no later proof unfolds one. -/

namespace Sys2Proof.Machine

variable (s : State)

/-! ## `complete` (R176) -/

@[simp] theorem State.complete_cmd (r : Nat) : (s.complete r).cmd = s.cmd := rfl
@[simp] theorem State.complete_done (r : Nat) : (s.complete r).done = true := rfl
@[simp] theorem State.complete_ovr (r : Nat) : (s.complete r).ovr = s.ovr := rfl
@[simp] theorem State.complete_err (r : Nat) : (s.complete r).err = .ok := rfl
@[simp] theorem State.complete_kind (r : Nat) : (s.complete r).kind = s.kind := rfl
@[simp] theorem State.complete_verify (r : Nat) : (s.complete r).verify = s.verify := rfl
@[simp] theorem State.complete_src (r : Nat) : (s.complete r).src = s.src := rfl
@[simp] theorem State.complete_len (r : Nat) : (s.complete r).len = s.len := rfl
@[simp] theorem State.complete_dst (r : Nat) : (s.complete r).dst = s.dst := rfl
@[simp] theorem State.complete_cap (r : Nat) : (s.complete r).cap = s.cap := rfl
@[simp] theorem State.complete_tag (r : Nat) : (s.complete r).tag = s.tag := rfl
@[simp] theorem State.complete_val (r : Nat) : (s.complete r).val = s.val := rfl
@[simp] theorem State.complete_width (r : Nat) : (s.complete r).width = s.width := rfl
@[simp] theorem State.complete_height (r : Nat) : (s.complete r).height = s.height := rfl
@[simp] theorem State.complete_depth (r : Nat) : (s.complete r).depth = s.depth := rfl
@[simp] theorem State.complete_level (r : Nat) : (s.complete r).level = s.level := rfl
@[simp] theorem State.complete_result (r : Nat) : (s.complete r).result = BitVec.ofNat 69 r := rfl
@[simp] theorem State.complete_payoff (r : Nat) : (s.complete r).payoff = s.payoff := rfl
@[simp] theorem State.complete_paylen (r : Nat) : (s.complete r).paylen = s.paylen := rfl
@[simp] theorem State.complete_phase (r : Nat) : (s.complete r).phase = .idle := rfl
@[simp] theorem State.complete_op (r : Nat) : (s.complete r).op = s.op := rfl
@[simp] theorem State.complete_tvalid (r : Nat) : (s.complete r).tvalid = s.tvalid := rfl
@[simp] theorem State.complete_table (r : Nat) : (s.complete r).table = s.table := rfl
@[simp] theorem State.complete_creq (r : Nat) : (s.complete r).creq = none := rfl
@[simp] theorem State.complete_crsp (r : Nat) : (s.complete r).crsp = none := rfl
@[simp] theorem State.complete_mem (r : Nat) : (s.complete r).mem = s.mem := rfl
@[simp] theorem State.complete_sig (r : Nat) : (s.complete r).sig = s.sig := rfl
@[simp] theorem State.complete_agenda (r : Nat) : (s.complete r).agenda = s.agenda := rfl
@[simp] theorem State.complete_hostIn (r : Nat) : (s.complete r).hostIn = s.hostIn := rfl
@[simp] theorem State.complete_lent (r : Nat) : (s.complete r).lent = s.lent := rfl
@[simp] theorem State.complete_stray (r : Nat) : (s.complete r).stray = s.stray := rfl

/-! ## `raise` (R190) -/

@[simp] theorem State.raise_cmd (e : ErrCode) : (s.raise e).cmd = s.cmd := rfl
@[simp] theorem State.raise_done (e : ErrCode) : (s.raise e).done = true := rfl
@[simp] theorem State.raise_ovr (e : ErrCode) : (s.raise e).ovr = s.ovr := rfl
@[simp] theorem State.raise_err (e : ErrCode) : (s.raise e).err = e := rfl
@[simp] theorem State.raise_kind (e : ErrCode) : (s.raise e).kind = s.kind := rfl
@[simp] theorem State.raise_verify (e : ErrCode) : (s.raise e).verify = s.verify := rfl
@[simp] theorem State.raise_src (e : ErrCode) : (s.raise e).src = s.src := rfl
@[simp] theorem State.raise_len (e : ErrCode) : (s.raise e).len = s.len := rfl
@[simp] theorem State.raise_dst (e : ErrCode) : (s.raise e).dst = s.dst := rfl
@[simp] theorem State.raise_cap (e : ErrCode) : (s.raise e).cap = s.cap := rfl
@[simp] theorem State.raise_tag (e : ErrCode) : (s.raise e).tag = s.tag := rfl
@[simp] theorem State.raise_val (e : ErrCode) : (s.raise e).val = s.val := rfl
@[simp] theorem State.raise_width (e : ErrCode) : (s.raise e).width = s.width := rfl
@[simp] theorem State.raise_height (e : ErrCode) : (s.raise e).height = s.height := rfl
@[simp] theorem State.raise_depth (e : ErrCode) : (s.raise e).depth = s.depth := rfl
@[simp] theorem State.raise_level (e : ErrCode) : (s.raise e).level = s.level := rfl
@[simp] theorem State.raise_result (e : ErrCode) : (s.raise e).result = 0#69 := rfl
@[simp] theorem State.raise_payoff (e : ErrCode) : (s.raise e).payoff = s.payoff := rfl
@[simp] theorem State.raise_paylen (e : ErrCode) : (s.raise e).paylen = s.paylen := rfl
@[simp] theorem State.raise_phase (e : ErrCode) : (s.raise e).phase = .idle := rfl
@[simp] theorem State.raise_op (e : ErrCode) : (s.raise e).op = s.op := rfl
@[simp] theorem State.raise_tvalid (e : ErrCode) : (s.raise e).tvalid = s.tvalid := rfl
@[simp] theorem State.raise_table (e : ErrCode) : (s.raise e).table = s.table := rfl
@[simp] theorem State.raise_creq (e : ErrCode) : (s.raise e).creq = none := rfl
@[simp] theorem State.raise_crsp (e : ErrCode) : (s.raise e).crsp = none := rfl
@[simp] theorem State.raise_mem (e : ErrCode) : (s.raise e).mem = s.mem := rfl
@[simp] theorem State.raise_sig (e : ErrCode) : (s.raise e).sig = s.sig := rfl
@[simp] theorem State.raise_agenda (e : ErrCode) : (s.raise e).agenda = s.agenda := rfl
@[simp] theorem State.raise_hostIn (e : ErrCode) : (s.raise e).hostIn = s.hostIn := rfl
@[simp] theorem State.raise_lent (e : ErrCode) : (s.raise e).lent = s.lent := rfl
@[simp] theorem State.raise_stray (e : ErrCode) : (s.raise e).stray = s.stray := rfl

/-! ## the request of a first half (R139, R158) -/

@[simp] theorem State.request_cmd (q : CReq) : (s.request q).cmd = s.cmd := rfl
@[simp] theorem State.request_done (q : CReq) : (s.request q).done = s.done := rfl
@[simp] theorem State.request_ovr (q : CReq) : (s.request q).ovr = s.ovr := rfl
@[simp] theorem State.request_err (q : CReq) : (s.request q).err = s.err := rfl
@[simp] theorem State.request_kind (q : CReq) : (s.request q).kind = s.kind := rfl
@[simp] theorem State.request_verify (q : CReq) : (s.request q).verify = s.verify := rfl
@[simp] theorem State.request_src (q : CReq) : (s.request q).src = s.src := rfl
@[simp] theorem State.request_len (q : CReq) : (s.request q).len = s.len := rfl
@[simp] theorem State.request_dst (q : CReq) : (s.request q).dst = s.dst := rfl
@[simp] theorem State.request_cap (q : CReq) : (s.request q).cap = s.cap := rfl
@[simp] theorem State.request_tag (q : CReq) : (s.request q).tag = s.tag := rfl
@[simp] theorem State.request_val (q : CReq) : (s.request q).val = s.val := rfl
@[simp] theorem State.request_width (q : CReq) : (s.request q).width = s.width := rfl
@[simp] theorem State.request_height (q : CReq) : (s.request q).height = s.height := rfl
@[simp] theorem State.request_depth (q : CReq) : (s.request q).depth = s.depth := rfl
@[simp] theorem State.request_level (q : CReq) : (s.request q).level = s.level := rfl
@[simp] theorem State.request_result (q : CReq) : (s.request q).result = s.result := rfl
@[simp] theorem State.request_payoff (q : CReq) : (s.request q).payoff = s.payoff := rfl
@[simp] theorem State.request_paylen (q : CReq) : (s.request q).paylen = s.paylen := rfl
@[simp] theorem State.request_phase (q : CReq) : (s.request q).phase = .waitc := rfl
@[simp] theorem State.request_op (q : CReq) : (s.request q).op = s.op := rfl
@[simp] theorem State.request_tvalid (q : CReq) : (s.request q).tvalid = s.tvalid := rfl
@[simp] theorem State.request_table (q : CReq) : (s.request q).table = s.table := rfl
@[simp] theorem State.request_creq (q : CReq) : (s.request q).creq = some q := rfl
@[simp] theorem State.request_crsp (q : CReq) : (s.request q).crsp = s.crsp := rfl
@[simp] theorem State.request_mem (q : CReq) : (s.request q).mem = s.mem := rfl
@[simp] theorem State.request_sig (q : CReq) : (s.request q).sig = s.sig := rfl
@[simp] theorem State.request_agenda (q : CReq) : (s.request q).agenda = s.agenda := rfl
@[simp] theorem State.request_hostIn (q : CReq) : (s.request q).hostIn = s.hostIn := rfl
@[simp] theorem State.request_lent (q : CReq) : (s.request q).lent = s.lent := rfl
@[simp] theorem State.request_stray (q : CReq) : (s.request q).stray = s.stray := rfl

/-! ## issue (R173) -/

@[simp] theorem State.issueWord_cmd (w : Word) : (s.issueWord w).cmd = w := rfl
@[simp] theorem State.issueWord_done (w : Word) : (s.issueWord w).done = false := rfl
@[simp] theorem State.issueWord_ovr (w : Word) : (s.issueWord w).ovr = s.ovr := rfl
@[simp] theorem State.issueWord_err (w : Word) : (s.issueWord w).err = .ok := rfl
@[simp] theorem State.issueWord_kind (w : Word) : (s.issueWord w).kind = s.kind := rfl
@[simp] theorem State.issueWord_verify (w : Word) : (s.issueWord w).verify = s.verify := rfl
@[simp] theorem State.issueWord_src (w : Word) : (s.issueWord w).src = s.src := rfl
@[simp] theorem State.issueWord_len (w : Word) : (s.issueWord w).len = s.len := rfl
@[simp] theorem State.issueWord_dst (w : Word) : (s.issueWord w).dst = s.dst := rfl
@[simp] theorem State.issueWord_cap (w : Word) : (s.issueWord w).cap = s.cap := rfl
@[simp] theorem State.issueWord_tag (w : Word) : (s.issueWord w).tag = s.tag := rfl
@[simp] theorem State.issueWord_val (w : Word) : (s.issueWord w).val = s.val := rfl
@[simp] theorem State.issueWord_width (w : Word) : (s.issueWord w).width = s.width := rfl
@[simp] theorem State.issueWord_height (w : Word) : (s.issueWord w).height = s.height := rfl
@[simp] theorem State.issueWord_depth (w : Word) : (s.issueWord w).depth = s.depth := rfl
@[simp] theorem State.issueWord_level (w : Word) : (s.issueWord w).level = s.level := rfl
@[simp] theorem State.issueWord_result (w : Word) : (s.issueWord w).result = s.result := rfl
@[simp] theorem State.issueWord_payoff (w : Word) : (s.issueWord w).payoff = s.payoff := rfl
@[simp] theorem State.issueWord_paylen (w : Word) : (s.issueWord w).paylen = s.paylen := rfl
@[simp] theorem State.issueWord_phase (w : Word) : (s.issueWord w).phase = .busy := rfl
@[simp] theorem State.issueWord_op (w : Word) : (s.issueWord w).op = w := rfl
@[simp] theorem State.issueWord_tvalid (w : Word) : (s.issueWord w).tvalid = s.tvalid := rfl
@[simp] theorem State.issueWord_table (w : Word) : (s.issueWord w).table = s.table := rfl
@[simp] theorem State.issueWord_creq (w : Word) : (s.issueWord w).creq = s.creq := rfl
@[simp] theorem State.issueWord_crsp (w : Word) : (s.issueWord w).crsp = s.crsp := rfl
@[simp] theorem State.issueWord_mem (w : Word) : (s.issueWord w).mem = s.mem := rfl
@[simp] theorem State.issueWord_sig (w : Word) : (s.issueWord w).sig = s.sig := rfl
@[simp] theorem State.issueWord_agenda (w : Word) : (s.issueWord w).agenda = s.agenda := rfl
@[simp] theorem State.issueWord_hostIn (w : Word) : (s.issueWord w).hostIn = s.hostIn := rfl
@[simp] theorem State.issueWord_lent (w : Word) : (s.issueWord w).lent = s.lent := rfl
@[simp] theorem State.issueWord_stray (w : Word) : (s.issueWord w).stray = s.stray := rfl

/-! ## `HostRead` (R171) -/

@[simp] theorem State.hostRead_cmd (i : Nat) : (s.hostRead i).cmd = s.cmd := rfl
@[simp] theorem State.hostRead_done (i : Nat) : (s.hostRead i).done = s.done := rfl
@[simp] theorem State.hostRead_ovr (i : Nat) : (s.hostRead i).ovr = s.ovr := rfl
@[simp] theorem State.hostRead_err (i : Nat) : (s.hostRead i).err = s.err := rfl
@[simp] theorem State.hostRead_kind (i : Nat) : (s.hostRead i).kind = s.kind := rfl
@[simp] theorem State.hostRead_verify (i : Nat) : (s.hostRead i).verify = s.verify := rfl
@[simp] theorem State.hostRead_src (i : Nat) : (s.hostRead i).src = s.src := rfl
@[simp] theorem State.hostRead_len (i : Nat) : (s.hostRead i).len = s.len := rfl
@[simp] theorem State.hostRead_dst (i : Nat) : (s.hostRead i).dst = s.dst := rfl
@[simp] theorem State.hostRead_cap (i : Nat) : (s.hostRead i).cap = s.cap := rfl
@[simp] theorem State.hostRead_tag (i : Nat) : (s.hostRead i).tag = s.tag := rfl
@[simp] theorem State.hostRead_val (i : Nat) : (s.hostRead i).val = s.val := rfl
@[simp] theorem State.hostRead_width (i : Nat) : (s.hostRead i).width = s.width := rfl
@[simp] theorem State.hostRead_height (i : Nat) : (s.hostRead i).height = s.height := rfl
@[simp] theorem State.hostRead_depth (i : Nat) : (s.hostRead i).depth = s.depth := rfl
@[simp] theorem State.hostRead_level (i : Nat) : (s.hostRead i).level = s.level := rfl
@[simp] theorem State.hostRead_result (i : Nat) : (s.hostRead i).result = s.result := rfl
@[simp] theorem State.hostRead_payoff (i : Nat) : (s.hostRead i).payoff = s.payoff := rfl
@[simp] theorem State.hostRead_paylen (i : Nat) : (s.hostRead i).paylen = s.paylen := rfl
@[simp] theorem State.hostRead_phase (i : Nat) : (s.hostRead i).phase = s.phase := rfl
@[simp] theorem State.hostRead_op (i : Nat) : (s.hostRead i).op = s.op := rfl
@[simp] theorem State.hostRead_tvalid (i : Nat) : (s.hostRead i).tvalid = s.tvalid := rfl
@[simp] theorem State.hostRead_table (i : Nat) : (s.hostRead i).table = s.table := rfl
@[simp] theorem State.hostRead_creq (i : Nat) : (s.hostRead i).creq = s.creq := rfl
@[simp] theorem State.hostRead_crsp (i : Nat) : (s.hostRead i).crsp = s.crsp := rfl
@[simp] theorem State.hostRead_mem (i : Nat) : (s.hostRead i).mem = s.mem := rfl
@[simp] theorem State.hostRead_sig (i : Nat) : (s.hostRead i).sig = s.sig := rfl
@[simp] theorem State.hostRead_agenda (i : Nat) : (s.hostRead i).agenda = s.agenda := rfl
@[simp] theorem State.hostRead_hostIn (i : Nat) : (s.hostRead i).hostIn = s.readReg i := rfl
@[simp] theorem State.hostRead_lent (i : Nat) : (s.hostRead i).lent = if i = 1 ∧ s.done = true then [] else s.lent := rfl
@[simp] theorem State.hostRead_stray (i : Nat) : (s.hostRead i).stray = s.stray := rfl

/-! ## building the table (R96) -/

@[simp] theorem State.buildTable_cmd : s.buildTable.cmd = s.cmd := by
  unfold State.buildTable; split <;> rfl
@[simp] theorem State.buildTable_done : s.buildTable.done = s.done := by
  unfold State.buildTable; split <;> rfl
@[simp] theorem State.buildTable_ovr : s.buildTable.ovr = s.ovr := by
  unfold State.buildTable; split <;> rfl
@[simp] theorem State.buildTable_err : s.buildTable.err = s.err := by
  unfold State.buildTable; split <;> rfl
@[simp] theorem State.buildTable_kind : s.buildTable.kind = s.kind := by
  unfold State.buildTable; split <;> rfl
@[simp] theorem State.buildTable_verify : s.buildTable.verify = s.verify := by
  unfold State.buildTable; split <;> rfl
@[simp] theorem State.buildTable_src : s.buildTable.src = s.src := by
  unfold State.buildTable; split <;> rfl
@[simp] theorem State.buildTable_len : s.buildTable.len = s.len := by
  unfold State.buildTable; split <;> rfl
@[simp] theorem State.buildTable_dst : s.buildTable.dst = s.dst := by
  unfold State.buildTable; split <;> rfl
@[simp] theorem State.buildTable_cap : s.buildTable.cap = s.cap := by
  unfold State.buildTable; split <;> rfl
@[simp] theorem State.buildTable_tag : s.buildTable.tag = s.tag := by
  unfold State.buildTable; split <;> rfl
@[simp] theorem State.buildTable_val : s.buildTable.val = s.val := by
  unfold State.buildTable; split <;> rfl
@[simp] theorem State.buildTable_width : s.buildTable.width = s.width := by
  unfold State.buildTable; split <;> rfl
@[simp] theorem State.buildTable_height : s.buildTable.height = s.height := by
  unfold State.buildTable; split <;> rfl
@[simp] theorem State.buildTable_depth : s.buildTable.depth = s.depth := by
  unfold State.buildTable; split <;> rfl
@[simp] theorem State.buildTable_level : s.buildTable.level = s.level := by
  unfold State.buildTable; split <;> rfl
@[simp] theorem State.buildTable_result : s.buildTable.result = s.result := by
  unfold State.buildTable; split <;> rfl
@[simp] theorem State.buildTable_payoff : s.buildTable.payoff = s.payoff := by
  unfold State.buildTable; split <;> rfl
@[simp] theorem State.buildTable_paylen : s.buildTable.paylen = s.paylen := by
  unfold State.buildTable; split <;> rfl
@[simp] theorem State.buildTable_phase : s.buildTable.phase = s.phase := by
  unfold State.buildTable; split <;> rfl
@[simp] theorem State.buildTable_op : s.buildTable.op = s.op := by
  unfold State.buildTable; split <;> rfl
@[simp] theorem State.buildTable_tvalid : s.buildTable.tvalid = true := by
  unfold State.buildTable; split <;> simp_all
theorem State.buildTable_table (h : s.tableOk) : s.buildTable.table = crcTable := by
  unfold State.buildTable; split
  · exact h.2 ‹_›
  · rfl
@[simp] theorem State.buildTable_creq : s.buildTable.creq = s.creq := by
  unfold State.buildTable; split <;> rfl
@[simp] theorem State.buildTable_crsp : s.buildTable.crsp = s.crsp := by
  unfold State.buildTable; split <;> rfl
@[simp] theorem State.buildTable_mem : s.buildTable.mem = s.mem := by
  unfold State.buildTable; split <;> rfl
@[simp] theorem State.buildTable_sig : s.buildTable.sig = s.sig := by
  unfold State.buildTable; split <;> rfl
@[simp] theorem State.buildTable_agenda : s.buildTable.agenda = s.agenda := by
  unfold State.buildTable; split <;> rfl
@[simp] theorem State.buildTable_hostIn : s.buildTable.hostIn = s.hostIn := by
  unfold State.buildTable; split <;> rfl
@[simp] theorem State.buildTable_lent : s.buildTable.lent = s.lent := by
  unfold State.buildTable; split <;> rfl
@[simp] theorem State.buildTable_stray : s.buildTable.stray = s.stray := by
  unfold State.buildTable; split <;> rfl

/-- Building a valid table changes nothing (R99: "building it is idempotent"). -/
theorem State.buildTable_of_tvalid (h : s.tvalid = true) : s.buildTable = s := by
  simp [State.buildTable, h]

/-- What `buildTable` leaves is the state itself or the state with the table of R91. -/
theorem State.buildTable_cases :
    s.buildTable = s ∨ s.buildTable = { s with tvalid := true, table := crcTable } := by
  unfold State.buildTable; split
  · exact .inl rfl
  · exact .inr rfl

@[simp] theorem crcTable_length : crcTable.length = 256 := by simp [crcTable]

/-- The table stays well formed when it is built (R96). -/
theorem State.buildTable_tableOk (h : s.tableOk) : s.buildTable.tableOk := by
  have ht := s.buildTable_table h
  exact ⟨by rw [ht, crcTable_length], fun _ => ht⟩

end Sys2Proof.Machine
end

