-- ==== Sys2Proof/Laws/Memory.lean ====
section
/-! SUPPORT. The laws of buffer memory (R42 to R45): read after write, and that every operation keeps the canonical form. -/

namespace Sys2Proof.Machine

/-! ## One byte -/

theorem Memory.read_insert (m : Memory) (a : Nat) (b : Byte) (hm : ∀ c ∈ m, c.1 ≠ a) (k : Nat) :
    (Memory.insert m a b).read k = if k = a then b else m.read k := by
  induction m with
  | nil => simp only [Memory.insert, Memory.read, eq_comm (a := a) (b := k)]
  | cons c m ih =>
    have hc : c.1 ≠ a := hm c (by simp)
    have ht := ih (fun d hd => hm d (by simp [hd]))
    simp only [Memory.insert]
    split
    · simp only [Memory.read, ht]
      by_cases hk : k = a
      · simp [hk, hc]
      · simp [hk]
    · simp only [Memory.read]
      by_cases hk : k = a
      · simp [hk]
      · simp [hk, Ne.symm hk]

theorem Memory.read_filter (m : Memory) (a k : Nat) :
    Memory.read (m.filter (fun c => c.1 != a)) k = if k = a then Config.unlistedByte else m.read k := by
  induction m with
  | nil => simp [Memory.read]
  | cons c m ih =>
    by_cases hc : c.1 = a
    · simp only [List.filter_cons, hc, bne_self_eq_false, Bool.false_eq_true, if_false, ih, Memory.read]
      by_cases hk : k = a
      · simp [hk]
      · simp [hk, Ne.symm hk]
    · have hb : (c.1 != a) = true := by simp [hc]
      simp only [List.filter_cons, hb, if_true, Memory.read, ih]
      by_cases hk : k = a
      · simp [hk, hc]
      · simp [hk]

/-- Reading after one write: the byte written at its address, every other byte as before (R45). -/
theorem Memory.read_write (m : Memory) (a : Nat) (b : Byte) (k : Nat) :
    (m.write a b).read k = if k = a then b else m.read k := by
  unfold Memory.write
  simp only
  split
  · rename_i h; rw [Memory.read_filter, h]
  · rw [Memory.read_insert _ _ _ (by intro c hc; simp at hc; exact hc.2), Memory.read_filter]
    split <;> rfl

@[simp] theorem Memory.read_write_same (m : Memory) (a : Nat) (b : Byte) : (m.write a b).read a = b := by
  simp [Memory.read_write]

theorem Memory.read_write_other (m : Memory) {a k : Nat} (b : Byte) (h : k ≠ a) :
    (m.write a b).read k = m.read k := by
  simp [Memory.read_write, h]

/-! ## Byte sequences -/

@[simp] theorem Memory.readBytes_length (m : Memory) (a n : Nat) : (m.readBytes a n).length = n := by
  induction n generalizing a with
  | zero => rfl
  | succ n ih => simp [Memory.readBytes, ih]

theorem Memory.readBytes_getElem (m : Memory) (a n i : Nat) (h : i < (m.readBytes a n).length) :
    (m.readBytes a n)[i] = m.read (a + i) := by
  induction n generalizing a i with
  | zero => simp at h
  | succ n ih =>
    cases i with
    | zero => rfl
    | succ i =>
      simp only [Memory.readBytes, List.getElem_cons_succ]
      rw [ih]; congr 1; omega

theorem Memory.readBytes_add (m : Memory) (a n k : Nat) :
    m.readBytes a (n + k) = m.readBytes a n ++ m.readBytes (a + n) k := by
  induction n generalizing a with
  | zero => simp [Memory.readBytes]
  | succ n ih =>
    rw [show n + 1 + k = (n + k) + 1 by omega]
    simp only [Memory.readBytes, ih, List.cons_append]
    rw [show a + 1 + n = a + (n + 1) by omega]

/-- Two memories that agree on a window give the same byte sequence. -/
theorem Memory.readBytes_congr {m m' : Memory} {a n : Nat} (h : ∀ k, a ≤ k → k < a + n → m.read k = m'.read k) :
    m.readBytes a n = m'.readBytes a n := by
  induction n generalizing a with
  | zero => rfl
  | succ n ih =>
    simp only [Memory.readBytes]
    rw [h a (by omega) (by omega), ih (fun k h1 h2 => h k (by omega) (by omega))]

/-- Reading after a byte sequence is written: its bytes in its window, every other byte as before. -/
theorem Memory.read_writeBytes (m : Memory) (a : Nat) (bs : List Byte) (k : Nat) :
    (m.writeBytes a bs).read k = if h : a ≤ k ∧ k < a + bs.length then bs[k - a]'(by omega) else m.read k := by
  induction bs generalizing a m with
  | nil => simp [Memory.writeBytes]
  | cons b bs ih =>
    simp only [Memory.writeBytes, ih, List.length_cons]
    by_cases h1 : a + 1 ≤ k ∧ k < a + 1 + bs.length
    · have h2 : a ≤ k ∧ k < a + (bs.length + 1) := by omega
      rw [dif_pos h1, dif_pos h2]
      have : k - a = (k - (a + 1)) + 1 := by omega
      simp only [this, List.getElem_cons_succ]
    · rw [dif_neg h1, Memory.read_write]
      by_cases hk : k = a
      · subst hk; simp
      · rw [if_neg hk, dif_neg (by omega)]

theorem Memory.read_writeBytes_out (m : Memory) {a k : Nat} (bs : List Byte) (h : k < a ∨ a + bs.length ≤ k) :
    (m.writeBytes a bs).read k = m.read k := by
  rw [Memory.read_writeBytes, dif_neg (by omega)]

/-- A byte sequence reads back as it was written (R42). -/
theorem Memory.readBytes_writeBytes (m : Memory) (a : Nat) (bs : List Byte) :
    (m.writeBytes a bs).readBytes a bs.length = bs := by
  apply List.ext_getElem (by simp)
  intro i h1 h2
  rw [Memory.readBytes_getElem, Memory.read_writeBytes, dif_pos (by omega)]
  simp

theorem Memory.readBytes_writeBytes_out (m : Memory) {a k n : Nat} (bs : List Byte)
    (h : k + n ≤ a ∨ a + bs.length ≤ k) : (m.writeBytes a bs).readBytes k n = m.readBytes k n :=
  Memory.readBytes_congr (fun j h1 h2 => Memory.read_writeBytes_out m bs (by omega))

/-- The ascending copy leaves every byte outside its destination as before. -/
theorem Memory.read_copyUp_out (m : Memory) (src dst n : Nat) {k : Nat} (h : k < dst ∨ dst + n ≤ k) :
    (m.copyUp src dst n).read k = m.read k := by
  induction n generalizing m src dst with
  | zero => rfl
  | succ n ih =>
    simp only [Memory.copyUp]
    rw [ih _ _ _ (by omega), Memory.read_write_other _ _ (by omega)]

/-- What the ascending copy leaves, whatever the overlap (R120 (b), R122 (g)): byte `i` is the source byte as the loop has
already rewritten it, or else as it was. -/
theorem Memory.read_copyUp (m : Memory) (src dst n : Nat) {i : Nat} (h : i < n) :
    (m.copyUp src dst n).read (dst + i) =
      if dst ≤ src + i ∧ src + i < dst + i then (m.copyUp src dst n).read (src + i) else m.read (src + i) := by
  induction n generalizing m src dst i with
  | zero => omega
  | succ n ih =>
    simp only [Memory.copyUp]
    cases i with
    | zero =>
      rw [if_neg (by omega), Memory.read_copyUp_out _ _ _ _ (by omega)]
      exact Memory.read_write_same _ _ _
    | succ i =>
      have hs := ih (m.write dst (m.read src)) (src + 1) (dst + 1) (i := i) (by omega)
      rw [show dst + 1 + i = dst + (i + 1) by omega, show src + 1 + i = src + (i + 1) by omega] at hs
      rw [hs]
      by_cases h1 : dst + 1 ≤ src + (i + 1) ∧ src + (i + 1) < dst + (i + 1)
      · rw [if_pos h1, if_pos (by omega)]
      · rw [if_neg h1]
        by_cases h2 : src + (i + 1) = dst
        · by_cases h3 : dst ≤ src + (i + 1) ∧ src + (i + 1) < dst + (i + 1)
          · rw [if_pos h3, h2, Memory.read_copyUp_out _ _ _ _ (by omega)]
          · omega
        · rw [if_neg (by omega), Memory.read_write_other _ _ h2]

/-- The ascending copy is a copy when its source and destination do not meet. -/
theorem Memory.readBytes_copyUp (m : Memory) (src dst n : Nat) (h : src + n ≤ dst ∨ dst + n ≤ src) :
    (m.copyUp src dst n).readBytes dst n = m.readBytes src n := by
  induction n generalizing m src dst with
  | zero => rfl
  | succ n ih =>
    simp only [Memory.copyUp, Memory.readBytes]
    rw [ih _ _ _ (by omega), Memory.read_copyUp_out _ _ _ _ (by omega), Memory.read_write_same]
    congr 1
    exact Memory.readBytes_congr (fun k h1 h2 => Memory.read_write_other _ _ (by omega))

/-- An agent confined to windows leaves every byte outside them as before (R50, R211). -/
theorem Memory.read_writeWithin_out (m : Memory) (ws : List Window) (bs : List (DWord × Byte)) {k : Nat}
    (h : ¬ inWindows ws k) : (m.writeWithin ws bs).read k = m.read k := by
  induction bs generalizing m with
  | nil => rfl
  | cons c bs ih =>
    obtain ⟨a, b⟩ := c
    simp only [Memory.writeWithin, ih]
    split
    · rw [Memory.read_write_other]
      rintro rfl; exact h ‹_›
    · rfl

/-! ## The canonical form -/

theorem Memory.mem_insert {m : Memory} {a : Nat} {b : Byte} {c : Host.Cell} (h : c ∈ Memory.insert m a b) :
    c = (a, b) ∨ c ∈ m := by
  induction m with
  | nil => simpa [Memory.insert] using h
  | cons d m ih =>
    simp only [Memory.insert] at h
    split at h
    · rcases List.mem_cons.1 h with rfl | h
      · simp
      · rcases ih h with h | h <;> simp [h]
    · simpa using h

theorem Memory.pairwise_insert {m : Memory} {a : Nat} {b : Byte} (hm : m.Pairwise (fun c d => c.1 < d.1))
    (ha : ∀ c ∈ m, c.1 ≠ a) : (Memory.insert m a b).Pairwise (fun c d => c.1 < d.1) := by
  induction m with
  | nil => simp [Memory.insert]
  | cons d m ih =>
    obtain ⟨h1, h2⟩ := List.pairwise_cons.1 hm
    have hd : d.1 ≠ a := ha d (by simp)
    simp only [Memory.insert]
    split
    · refine List.pairwise_cons.2 ⟨?_, ih h2 (fun c hc => ha c (by simp [hc]))⟩
      intro c hc
      rcases Memory.mem_insert hc with rfl | hc
      · assumption
      · exact h1 c hc
    · refine List.pairwise_cons.2 ⟨?_, hm⟩
      intro c hc
      have : a < d.1 := by omega
      rcases List.mem_cons.1 hc with rfl | hc
      · exact this
      · exact this.trans (h1 c hc)

/-- A one-byte write inside the address space keeps the canonical form. -/
theorem Memory.wf_write {m : Memory} (h : m.wf) {a : Nat} (ha : a < 2 ^ Config.alen) (b : Byte) : (m.write a b).wf := by
  have hf : (m.filter (fun c => c.1 != a)).Pairwise (fun c d => c.1 < d.1) := h.1.filter _
  have hm : ∀ c ∈ m.filter (fun c => c.1 != a), c ∈ m ∧ c.1 ≠ a := by intro c hc; simpa using hc
  unfold Memory.write
  simp only
  split
  · exact ⟨hf, fun c hc => h.2 c (hm c hc).1⟩
  · refine ⟨Memory.pairwise_insert hf (fun c hc => (hm c hc).2), ?_⟩
    intro c hc
    rcases Memory.mem_insert hc with rfl | hc
    · exact ⟨ha, ‹_›⟩
    · exact h.2 c (hm c hc).1

/-- A byte sequence written into a legal window keeps the canonical form. -/
theorem Memory.wf_writeBytes {m : Memory} (h : m.wf) {a : Nat} (bs : List Byte) (hf : fits a bs.length) :
    (m.writeBytes a bs).wf := by
  induction bs generalizing m a with
  | nil => exact h
  | cons b bs ih =>
    simp only [fits, List.length_cons] at hf
    exact ih (Memory.wf_write h (by omega) b) (by simp only [fits]; omega)

/-- The ascending copy into a legal window keeps the canonical form. -/
theorem Memory.wf_copyUp {m : Memory} (h : m.wf) (src : Nat) {dst n : Nat} (hf : fits dst n) : (m.copyUp src dst n).wf := by
  induction n generalizing m src dst with
  | zero => exact h
  | succ n ih =>
    simp only [fits] at hf
    exact ih (Memory.wf_write h (by omega) _) (src + 1) (by simp only [fits]; omega)

/-- Byte writes by a confined agent keep the canonical form (an address is 64 bits). -/
theorem Memory.wf_writeWithin {m : Memory} (h : m.wf) (ws : List Window) (bs : List (DWord × Byte)) :
    (m.writeWithin ws bs).wf := by
  induction bs generalizing m with
  | nil => exact h
  | cons c bs ih =>
    obtain ⟨a, b⟩ := c
    simp only [Memory.writeWithin]
    split
    · exact ih (Memory.wf_write h a.isLt b)
    · exact ih h

/-- The memory right after reset has the canonical form. -/
theorem Memory.wf_reset : State.reset.mem.wf := by decide

end Sys2Proof.Machine
end

