-- ==== Sys2Proof/Laws/Codec.lean ====
section
/-! SUPPORT. The laws of the serializer's and the chunk codec's shared operations: lengths, frames in memory, and the
canonical form. -/

namespace Sys2Proof.Machine

/-! ## Lengths -/

@[simp] theorem be32Ser_length (v : Word) : (be32Ser v).length = 4 := rfl

@[simp] theorem chunkWith_length (table : List Word) (t : Word) (data : List Byte) :
    (chunkWith table t data).length = data.length + 12 := by
  simp [chunkWith]; omega

@[simp] theorem hdr_length (w h : Word) (d : Byte) : (hdr w h d).length = 13 := by simp [hdr]

/-- Writing a byte and going on is writing the sequence in two parts. -/
theorem Memory.writeBytes_append (m : Memory) (a : Nat) (s t : List Byte) :
    m.writeBytes a (s ++ t) = (m.writeBytes a s).writeBytes (a + s.length) t := by
  induction s generalizing m a with
  | nil => simp [Memory.writeBytes]
  | cons b s ih =>
    simp only [List.cons_append, Memory.writeBytes, ih, List.length_cons]
    rw [show a + 1 + s.length = a + (s.length + 1) by omega]

/-! ## Put32 -/

theorem Memory.read_put32_out (m : Memory) (a : Nat) (v : Word) {k : Nat} (h : k < a ∨ a + 4 ≤ k) :
    (m.put32 a v).read k = m.read k :=
  Memory.read_writeBytes_out m _ (by simpa using h)

theorem Memory.readBytes_put32 (m : Memory) (a : Nat) (v : Word) : (m.put32 a v).readBytes a 4 = be32Ser v :=
  Memory.readBytes_writeBytes m a (be32Ser v)

theorem Memory.readBytes_put32_out (m : Memory) {a k n : Nat} (v : Word) (h : k + n ≤ a ∨ a + 4 ≤ k) :
    (m.put32 a v).readBytes k n = m.readBytes k n :=
  Memory.readBytes_writeBytes_out m _ (by simpa using h)

theorem Memory.wf_put32 {m : Memory} (h : m.wf) {a : Nat} (v : Word) (hf : fits a 4) : (m.put32 a v).wf :=
  Memory.wf_writeBytes h (be32Ser v) (by simpa using hf)

/-! ## Framing -/

theorem Memory.read_sealChunk_out (m : Memory) (table : List Word) (dst n : Nat) {k : Nat}
    (h : k < dst + 8 + n ∨ dst + n + 12 ≤ k) : (m.sealChunk table dst n).read k = m.read k :=
  Memory.read_put32_out m _ _ (by omega)

/-- The in-place form writes the chunk's first eight and last four bytes and nothing else (R119). -/
theorem Memory.read_frameInPlace_out (m : Memory) (table : List Word) (dst n : Nat) (t : Word) {k : Nat}
    (h : k < dst ∨ (dst + 8 ≤ k ∧ k < dst + 8 + n) ∨ dst + n + 12 ≤ k) :
    (m.frameInPlace table dst n t).read k = m.read k := by
  unfold Memory.frameInPlace
  rw [Memory.read_sealChunk_out _ _ _ _ (by omega), Memory.read_put32_out _ _ _ (by omega),
    Memory.read_put32_out _ _ _ (by omega)]

/-- The copying form writes inside the chunk only (R118). -/
theorem Memory.read_frameCopy_out (m : Memory) (table : List Word) (dst n : Nat) (t : Word) (src : Nat) {k : Nat}
    (h : k < dst ∨ dst + n + 12 ≤ k) : (m.frameCopy table dst n t src).read k = m.read k := by
  unfold Memory.frameCopy
  rw [Memory.read_sealChunk_out _ _ _ _ (by omega), Memory.read_copyUp_out _ _ _ _ (by omega),
    Memory.read_put32_out _ _ _ (by omega), Memory.read_put32_out _ _ _ (by omega)]

/-- What a sealed chunk's bytes are, whatever stands in its fields (R118, R141). -/
theorem Memory.readBytes_sealChunk (m : Memory) (table : List Word) (dst n : Nat) :
    (m.sealChunk table dst n).readBytes dst (n + 12) =
      m.readBytes dst 4 ++ m.readBytes (dst + 4) (n + 4) ++ be32Ser (crcWith table (m.readBytes (dst + 4) (n + 4))) := by
  rw [show n + 12 = 4 + (n + 4) + 4 by omega, Memory.readBytes_add, Memory.readBytes_add]
  unfold Memory.sealChunk
  rw [Memory.readBytes_put32_out _ _ (by omega), Memory.readBytes_put32_out _ _ (by omega),
    show dst + (4 + (n + 4)) = dst + 8 + n by omega, Memory.readBytes_put32]

/-- The length and tag fields as they are written (R118). -/
theorem Memory.readBytes_prefix (m : Memory) (dst : Nat) (v t : Word) :
    ((m.put32 dst v).put32 (dst + 4) t).readBytes dst 4 = be32Ser v ∧
    ((m.put32 dst v).put32 (dst + 4) t).readBytes (dst + 4) 4 = be32Ser t := by
  constructor
  · rw [Memory.readBytes_put32_out _ _ (by omega), Memory.readBytes_put32]
  · rw [Memory.readBytes_put32]

/-- The in-place form leaves the chunk of the data that stood there (R119). -/
theorem Memory.readBytes_frameInPlace (m : Memory) (table : List Word) (dst n : Nat) (t : Word) :
    (m.frameInPlace table dst n t).readBytes dst (n + 12) = chunkWith table t (m.readBytes (dst + 8) n) := by
  unfold Memory.frameInPlace
  rw [Memory.readBytes_sealChunk, show n + 4 = 4 + n by omega, Memory.readBytes_add _ (dst + 4),
    (Memory.readBytes_prefix m dst _ t).1, (Memory.readBytes_prefix m dst _ t).2, show dst + 4 + 4 = dst + 8 by omega,
    Memory.readBytes_put32_out _ _ (by omega), Memory.readBytes_put32_out _ _ (by omega)]
  simp [chunkWith]

/-- The copying form leaves the chunk of the data as it stands after the copy (R120 (b)). -/
theorem Memory.readBytes_frameCopy (m : Memory) (table : List Word) (dst n : Nat) (t : Word) (src : Nat) :
    (m.frameCopy table dst n t src).readBytes dst (n + 12) =
      chunkWith table t
        ((((m.put32 dst (BitVec.ofNat 32 n)).put32 (dst + 4) t).copyUp src (dst + 8) n).readBytes (dst + 8) n) := by
  unfold Memory.frameCopy
  rw [Memory.readBytes_sealChunk, show n + 4 = 4 + n by omega, Memory.readBytes_add _ (dst + 4)]
  have h : ∀ a k, a + k ≤ dst + 8 →
      Memory.readBytes (((m.put32 dst (BitVec.ofNat 32 n)).put32 (dst + 4) t).copyUp src (dst + 8) n) a k =
        Memory.readBytes ((m.put32 dst (BitVec.ofNat 32 n)).put32 (dst + 4) t) a k :=
    fun a k h => Memory.readBytes_congr (fun j _ _ => Memory.read_copyUp_out _ _ _ _ (by omega))
  rw [h dst 4 (by omega), h (dst + 4) 4 (by omega), (Memory.readBytes_prefix m dst _ t).1,
    (Memory.readBytes_prefix m dst _ t).2, show dst + 4 + 4 = dst + 8 by omega]
  simp [chunkWith]

theorem Memory.wf_sealChunk {m : Memory} (h : m.wf) (table : List Word) {dst n : Nat} (hf : fits dst (n + 12)) :
    (m.sealChunk table dst n).wf :=
  Memory.wf_put32 h _ (by simp only [fits] at *; omega)

theorem Memory.wf_frameInPlace {m : Memory} (h : m.wf) (table : List Word) {dst n : Nat} (t : Word)
    (hf : fits dst (n + 12)) : (m.frameInPlace table dst n t).wf := by
  refine Memory.wf_sealChunk (Memory.wf_put32 (Memory.wf_put32 h _ ?_) _ ?_) _ hf <;> simp only [fits] at * <;> omega

theorem Memory.wf_frameCopy {m : Memory} (h : m.wf) (table : List Word) {dst n : Nat} (t : Word) (src : Nat)
    (hf : fits dst (n + 12)) : (m.frameCopy table dst n t src).wf := by
  refine Memory.wf_sealChunk (Memory.wf_copyUp (Memory.wf_put32 (Memory.wf_put32 h _ ?_) _ ?_) _ ?_) _ hf <;>
    simp only [fits] at * <;> omega

end Sys2Proof.Machine
end

