-- ==== Sys2Proof/Laws/Exec.lean ====
section
/-! SUPPORT. One inversion lemma per shared operation of the commands and of the machine: everything it can answer. -/

namespace Sys2Proof.Machine

/-- A command that needs the table leaves it valid, with the contents of R91, whether or not it was built before. -/
theorem buildTable_of_tableOk {s : State} (h : s.tableOk) : s.buildTable = { s with tvalid := true, table := crcTable } := by
  unfold State.buildTable
  split
  · rename_i hv
    have := h.2 hv
    cases s; simp_all
  · rfl

/-- One step is the engine's or that of the agenda's first move (log entry 1). -/
theorem step_cases {s t : State} (h : step s = .next t) :
    (s.agenda = [] ∧ engineStep s = .next t) ∨
    ∃ mv rest, s.agenda = mv :: rest ∧ moveStep mv { s with agenda := rest } = .next t := by
  unfold step at h
  split at h
  · exact .inl ⟨‹_›, h⟩
  · exact .inr ⟨_, _, ‹_›, h⟩

theorem runSteps_succ (k : Nat) (s : State) :
    runSteps (k + 1) s = (match step s with
      | .next t => runSteps k t
      | .fault r => .fault r
      | .refused r => .refused r) := rfl

theorem runSteps_next {k : Nat} {s t : State} (h : step s = .next t) : runSteps (k + 1) s = runSteps k t := by
  rw [runSteps_succ, h]

/-- Everything `CRC32` can answer (R98). -/
theorem execCrc32_cases {s t : State} (h : execCrc32 s = .next t) :
    (¬ fits s.srcAddr s.srcLen ∧ t = s.raise .range) ∨
    (fits s.srcAddr s.srcLen ∧ s.srcLen = 0 ∧ t = s.complete (s.crc []).toNat) ∨
    (fits s.srcAddr s.srcLen ∧ s.srcLen ≠ 0 ∧
      t = s.buildTable.complete (s.buildTable.crc (s.mem.readBytes s.srcAddr s.srcLen)).toNat) := by
  unfold execCrc32 at h
  split at h
  · rename_i hf
    by_cases h0 : s.srcLen = 0
    · simp only [h0, if_true] at h
      exact .inr (.inl ⟨hf, h0, by cases h; rfl⟩)
    · simp only [h0, if_false] at h
      refine .inr (.inr ⟨hf, h0, ?_⟩)
      cases h; simp [State.srcAddr, State.srcLen]
  · exact .inl ⟨‹_›, by cases h; rfl⟩

/-- Everything `WRCHUNK` can answer (R118). -/
theorem execWrchunk_cases {s t : State} (h : execWrchunk s = .next t) :
    t = s.raise .range ∨
    (s.srcLen < 2 ^ 32 ∧ fits s.dstAddr (s.srcLen + 12) ∧ s.writesInPlace ∧
      t = { s.buildTable with
            mem := s.mem.frameInPlace s.buildTable.table s.dstAddr s.srcLen s.tag }.complete (s.srcLen + 12)) ∨
    (s.srcLen < 2 ^ 32 ∧ fits s.dstAddr (s.srcLen + 12) ∧ ¬ s.writesInPlace ∧ fits s.srcAddr s.srcLen ∧
      t = { s.buildTable with
            mem := s.mem.frameCopy s.buildTable.table s.dstAddr s.srcLen s.tag s.srcAddr }.complete (s.srcLen + 12)) := by
  unfold execWrchunk at h
  split at h
  · split at h
    · split at h
      · refine .inr (.inl ⟨‹_›, ‹_›, ‹_›, ?_⟩)
        cases h; simp
      · split at h
        · refine .inr (.inr ⟨‹_›, ‹_›, ‹_›, ‹_›, ?_⟩)
          cases h; simp
        · exact .inl (by cases h; rfl)
    · exact .inl (by cases h; rfl)
  · exact .inl (by cases h; rfl)

/-- Everything `RDCHUNK` can answer, whatever its flags (R121). -/
theorem rdchunkWith_cases {wt wd : Bool} {s t : State} (h : rdchunkWith wt wd s = .next t) :
    t = s.raise .range ∨ t = s.raise .trunc ∨
    (¬ s.copiesData wd ∧ t = s.completeRdchunk wt s.mem) ∨
    (s.copiesData wd ∧ fits s.dstAddr s.announced ∧
      t = s.completeRdchunk wt (s.mem.copyUp (s.srcAddr + 8) s.dstAddr s.announced)) := by
  unfold rdchunkWith at h
  split at h
  · split at h
    · split at h
      · split at h
        · split at h
          · exact .inr (.inr (.inr ⟨‹_›, ‹_›, by cases h; rfl⟩))
          · exact .inl (by cases h; rfl)
        · exact .inr (.inl (by cases h; rfl))
      · exact .inr (.inr (.inl ⟨‹_›, by cases h; rfl⟩))
    · exact .inr (.inl (by cases h; rfl))
  · exact .inl (by cases h; rfl)

/-- Everything `CKCHUNK` can answer (R125). -/
theorem execCkchunk_cases {s t : State} (h : execCkchunk s = .next t) :
    t = s.raise .range ∨ t = s.raise .trunc ∨ t = s.buildTable.raise .corrupt ∨
    t = { s.buildTable with kind := route s.tagAtSrc }.complete (s.announced + 12) := by
  unfold execCkchunk at h
  split at h
  · split at h
    · split at h
      · simp only at h
        split at h
        · exact .inr (.inr (.inr (by cases h; rfl)))
        · exact .inr (.inr (.inl (by cases h; rfl)))
      · exact .inr (.inl (by cases h; rfl))
    · exact .inr (.inl (by cases h; rfl))
  · exact .inl (by cases h; rfl)

/-- The memory that the first half of `ENCODE` leaves (R137, R138). -/
def State.encodedHeader (s : State) (sig : Signature) : Memory :=
  (s.mem.writeBytes s.dstAddr sig.toList).writeBytes (s.dstAddr + 8)
    (chunkWith s.buildTable.table Config.tagIhdr (hdr s.width s.height s.depth))

/-- Everything the first half of `ENCODE` can answer (R136 to R139). -/
theorem encodeFirstHalf_cases {sig : Signature} {s t : State} (h : encodeFirstHalf sig s = .next t) :
    t = s.raise .range ∨ t = s.raise .cap ∨
    (fits s.dstAddr s.dstCap ∧ fits s.srcAddr s.srcLen ∧ Config.minOut ≤ s.dstCap ∧
      t = { s.buildTable with mem := s.encodedHeader sig }.request s.compressRequest) := by
  unfold encodeFirstHalf at h
  split at h
  · split at h
    · split at h
      · refine .inr (.inr ⟨‹_›, ‹_›, ‹_›, ?_⟩)
        cases h; simp [State.encodedHeader]
      · exact .inr (.inl (by cases h; rfl))
    · exact .inl (by cases h; rfl)
  · exact .inl (by cases h; rfl)

/-- The memory that the second half of `ENCODE` leaves for a payload of `m` bytes (R141). -/
def State.encodedRest (s : State) (m : Nat) : Memory :=
  (s.mem.frameInPlace s.buildTable.table (s.dstAddr + 33) m Config.tagIdat).writeBytes (s.dstAddr + 45 + m)
    (chunkWith s.buildTable.table Config.tagIend [])

/-- Everything the second half of `ENCODE` can answer (R140, R141). -/
theorem resumeEncode_cases {q : CReq} {r : CRsp} {s t : State} (h : resumeEncode q r s = .next t) :
    t = s.raise .collab ∨ t = s.raise .cap ∨
    ∃ k, r = .ok k ∧ k.toNat ≤ q.outMax.toNat ∧ 1 ≤ k.toNat ∧
      t = { s.buildTable with mem := s.encodedRest k.toNat }.complete (57 + k.toNat) := by
  cases r with
  | error => exact .inl (by cases h; rfl)
  | ok k =>
    simp only [resumeEncode] at h
    split at h
    · split at h
      · refine .inr (.inr ⟨k, rfl, ‹_›, ‹_›, ?_⟩)
        cases h; simp [State.encodedRest]
      · exact .inl (by cases h; rfl)
    · exact .inr (.inl (by cases h; rfl))

/-- Everything the second half of `INFLATE` can answer (R160). -/
theorem resumeInflate_cases {r : CRsp} {s t : State} (h : resumeInflate r s = .next t) :
    t = s.raise .collab ∨ t = s.raise .cap ∨
    ∃ k, r = .ok k ∧ k.toNat ≤ s.dstCap ∧ 1 ≤ k.toNat ∧ t = s.complete k.toNat := by
  cases r with
  | error => exact .inl (by cases h; rfl)
  | ok k =>
    simp only [resumeInflate] at h
    split at h
    · split at h
      · exact .inr (.inr ⟨k, rfl, ‹_›, ‹_›, by cases h; rfl⟩)
      · exact .inl (by cases h; rfl)
    · exact .inr (.inl (by cases h; rfl))

/-- Everything `INFLATE` can answer in its first half (R158). -/
theorem execInflate_cases {s t : State} (h : execInflate s = .next t) :
    t = s.raise .range ∨
    (fits s.srcAddr s.srcLen ∧ fits s.dstAddr s.dstCap ∧ t = s.request s.decompressRequest) := by
  unfold execInflate at h
  split at h
  · split at h
    · exact .inr ⟨‹_›, ‹_›, by cases h; rfl⟩
    · exact .inl (by cases h; rfl)
  · exact .inl (by cases h; rfl)

theorem parseVerified_cases {n : Nat} {s t : State} (h : parseVerified n s = .next t) :
    t = s.completeParse ∨ ∃ e, e ≠ ErrCode.ok ∧ t = s.raise e := by
  unfold parseVerified at h
  repeat' split at h
  all_goals first
    | exact .inl (by cases h; rfl)
    | (refine .inr ⟨_, ?_, (Host.Outcome.next.inj h).symm⟩; decide)

theorem parsePayload_cases {s t : State} (h : parsePayload s = .next t) :
    t = s.completeParse ∨ ∃ e, e ≠ ErrCode.ok ∧ t = s.raise e := by
  unfold parsePayload at h
  simp only at h
  repeat' split at h
  all_goals first
    | exact parseVerified_cases h
    | exact .inl (by cases h; rfl)
    | (refine .inr ⟨_, ?_, (Host.Outcome.next.inj h).symm⟩; decide)

/-- `PARSE` gets as far as the header chunk's checksum, the first place that needs the table (R96, R152). -/
def State.reachesHeaderChecksum (s : State) (sig : Signature) : Prop :=
  s.verify = true ∧ fits s.srcAddr s.srcLen ∧ 33 ≤ s.srcLen ∧ s.mem.readBytes s.srcAddr 8 = sig.toList ∧
    s.mem.get32 (s.srcAddr + 8) = 13#32 ∧ s.mem.get32 (s.srcAddr + 12) = Config.tagIhdr

/-- Everything `PARSE` can answer (R152, R153): it ends at once with a code, with the table built exactly when it has
reached the header chunk's checksum, or it completes; with `VERIFY = 1` only after the table is built. -/
theorem parseWith_cases {sig : Signature} {s t : State} (h : parseWith sig s = .next t) :
    (∃ e, e ≠ ErrCode.ok ∧ ((¬ s.reachesHeaderChecksum sig ∧ t = s.raise e) ∨
      (s.reachesHeaderChecksum sig ∧ t = s.buildTable.raise e))) ∨
    (s.verify = false ∧ t = s.completeParse) ∨ (s.verify = true ∧ t = s.buildTable.completeParse) := by
  unfold parseWith parseHeader at h
  simp only at h
  have early : ∀ e : ErrCode, e ≠ .ok → ¬ s.reachesHeaderChecksum sig → t = s.raise e →
      ∃ e, e ≠ ErrCode.ok ∧ ((¬ s.reachesHeaderChecksum sig ∧ t = s.raise e) ∨
        (s.reachesHeaderChecksum sig ∧ t = s.buildTable.raise e)) := fun e he hr h => ⟨e, he, .inl ⟨hr, h⟩⟩
  split at h
  case isFalse hf => exact .inl (early .range (by decide) (fun hr => hf hr.2.1) (Host.Outcome.next.inj h).symm)
  case isTrue hf =>
  split at h
  case isFalse h8 =>
    exact .inl (early .trunc (by decide) (fun hr => h8 (by have := hr.2.2.1; omega)) (Host.Outcome.next.inj h).symm)
  case isTrue h8 =>
  split at h
  case isFalse hs => exact .inl (early .sig (by decide) (fun hr => hs hr.2.2.2.1) (Host.Outcome.next.inj h).symm)
  case isTrue hs =>
  split at h
  case isFalse h33 => exact .inl (early .trunc (by decide) (fun hr => h33 hr.2.2.1) (Host.Outcome.next.inj h).symm)
  case isTrue h33 =>
  split at h
  case isFalse hn => exact .inl (early .format (by decide) (fun hr => hn hr.2.2.2.2.1) (Host.Outcome.next.inj h).symm)
  case isTrue hn =>
  split at h
  case isFalse hg => exact .inl (early .format (by decide) (fun hr => hg hr.2.2.2.2.2) (Host.Outcome.next.inj h).symm)
  case isTrue hg =>
  split at h
  case isFalse hv =>
    rcases parsePayload_cases h with h | ⟨e, he, h⟩
    · exact .inr (.inl ⟨by simpa using hv, h⟩)
    · exact .inl (early e he (fun hr => hv hr.1) h)
  case isTrue hv =>
  have reached : s.reachesHeaderChecksum sig := ⟨hv, hf, h33, hs, hn, hg⟩
  split at h
  case isFalse => exact .inl ⟨.corrupt, by decide, .inr ⟨reached, (Host.Outcome.next.inj h).symm⟩⟩
  case isTrue =>
  rcases parsePayload_cases h with h | ⟨e, he, h⟩
  · exact .inr (.inr ⟨hv, h⟩)
  · exact .inl ⟨e, he, .inr ⟨reached, h⟩⟩

/-- What the host's memory access can answer (R49). -/
theorem hostMayTouch_cases {s go t : State} {a : Nat} (h : s.hostMayTouch a go = .next t) :
    ¬ inWindows s.lent a ∧ t = go := by
  unfold State.hostMayTouch at h
  split at h
  · cases h
  · exact ⟨‹_›, by cases h; rfl⟩

/-- What the collaborator's move can do (R50, R177). -/
theorem collaboratorStep_cases (ws : List (DWord × Byte)) (r : CRsp) (s : State) :
    collaboratorStep ws r s = s ∨
    ∃ q, s.phase = .waitc ∧ s.creq = some q ∧
      collaboratorStep ws r s =
        { s with mem := s.mem.writeWithin [q.outWindow] ws, crsp := some r, phase := .resume } := by
  unfold collaboratorStep
  split
  · exact .inr ⟨_, ‹_›, ‹_›, rfl⟩
  · exact .inl rfl

/-- The decoder gives `ENCODE` for its one word, and `INFLATE` for its (R61). -/
theorem decode_encode_word : decode (encode .encode) = .ok .encode ∧ decode (encode .inflate) = .ok .inflate := by
  decide

/-- What the resume step can answer (R178). -/
theorem resumeStep_cases {s t : State} (h : resumeStep s = .next t) :
    t = s ∨
    (∃ q r, decode s.op = .ok .encode ∧ s.creq = some q ∧ s.crsp = some r ∧ resumeEncode q r s = .next t) ∨
    (∃ q r, decode s.op = .ok .inflate ∧ s.creq = some q ∧ s.crsp = some r ∧ resumeInflate r s = .next t) := by
  unfold resumeStep at h
  split at h
  · exact .inr (.inl ⟨_, _, ‹_›, ‹_›, ‹_›, h⟩)
  · exact .inr (.inr ⟨_, _, ‹_›, ‹_›, ‹_›, h⟩)
  · exact .inl (by cases h; rfl)

end Sys2Proof.Machine
end

