-- ==== Sys2Proof/Laws/PerInstr.lean ====
section
/-! SUPPORT. The per-instruction family `EncodedWord`: what holds of the word of each row of the opcode table. -/

namespace Sys2Proof.Laws.EncodedWord

open Sys2Proof

/-- The word of a row is legal in the terms of R61 exactly when the row is a command, and its fields are those of R60: no
flag is set outside `OPC = 0x06`, unless the row is one of the three tag numbers. -/
def Statement (i : Instr) : Prop :=
  legalWord (encode i) = i.wellFormed ∧
    (i.wellFormed = true → opcOf (encode i) ≠ 0x06 → wtOf (encode i) = false ∧ wdOf (encode i) = false)

theorem nop : Statement .nop := by unfold Statement; decide
theorem tblinit : Statement .tblinit := by unfold Statement; decide
theorem crc32 : Statement .crc32 := by unfold Statement; decide
theorem put32 : Statement .put32 := by unfold Statement; decide
theorem get32 : Statement .get32 := by unfold Statement; decide
theorem wrchunk : Statement .wrchunk := by unfold Statement; decide
theorem rdchunk : Statement .rdchunk := by unfold Statement; decide
theorem rdchunkT : Statement .rdchunkT := by unfold Statement; decide
theorem rdchunkD : Statement .rdchunkD := by unfold Statement; decide
theorem rdchunkTD : Statement .rdchunkTD := by unfold Statement; decide
theorem ckchunk : Statement .ckchunk := by unfold Statement; decide
theorem encode : Statement .encode := by unfold Statement; decide
theorem parse : Statement .parse := by unfold Statement; decide
theorem inflate : Statement .inflate := by unfold Statement; decide
theorem tagIhdr : Statement .tagIhdr := by unfold Statement; decide
theorem tagIdat : Statement .tagIdat := by unfold Statement; decide
theorem tagIend : Statement .tagIend := by unfold Statement; decide

end Sys2Proof.Laws.EncodedWord
end

