-- ==== Sys2Proof/Tests/Slice0.lean ====
section
/-! SUPPORT. The model's own tests. Every expected value is the spec's: the words of R61 and R62, and the vectors of
95_test_vectors.md (section numbers in the comments). The witnesses at the end show that the hypotheses of each statement
can be met together. -/

namespace Sys2Proof.Tests

open Sys2Proof Sys2Proof.Machine

set_option Elab.async false

/-! ## Helpers -/

/-- Memory holding `bytes` from `a` on. -/
def bytesAt (a : Nat) (bytes : List Byte) : Memory := Memory.writeBytes [] a bytes

/-- The state after the word `w` has been issued in `s` and executed; `s` itself if the step did not answer one. -/
def ran (w : Word) (s : State) : State :=
  match step (s.issueWord w) with
  | .next t => t
  | .fault _ => s
  | .refused _ => s

/-- The state after `k` steps. -/
def stepped (k : Nat) (s : State) : State :=
  match runSteps k s with
  | .next t => t
  | .fault _ => s
  | .refused _ => s

/-- `RESULT`, `STATUS` as numbers: what most vectors list. -/
def outcome (s : State) : Nat × Nat := (s.result.toNat, s.statusWord.toNat)

/-! ## WellFormed: one ill-formed term for each check -/

theorem test_wellformed_refuses_tag_ihdr : Instr.wellFormed .tagIhdr = false := by decide
theorem test_wellformed_refuses_tag_idat : Instr.wellFormed .tagIdat = false := by decide
theorem test_wellformed_refuses_tag_iend : Instr.wellFormed .tagIend = false := by decide

/-! ## Decode: words written out from R60 to R62, field by field `reserved ++ WD ++ WT ++ OPC` -/

theorem test_decode_nop : decode (0#22 ++ 0#1 ++ 0#1 ++ 0x00#8) = .ok .nop := by decide
theorem test_decode_tblinit : decode (0#22 ++ 0#1 ++ 0#1 ++ 0x01#8) = .ok .tblinit := by decide
theorem test_decode_crc32 : decode (0#22 ++ 0#1 ++ 0#1 ++ 0x02#8) = .ok .crc32 := by decide
theorem test_decode_put32 : decode (0#22 ++ 0#1 ++ 0#1 ++ 0x03#8) = .ok .put32 := by decide
theorem test_decode_get32 : decode (0#22 ++ 0#1 ++ 0#1 ++ 0x04#8) = .ok .get32 := by decide
theorem test_decode_wrchunk : decode (0#22 ++ 0#1 ++ 0#1 ++ 0x05#8) = .ok .wrchunk := by decide
theorem test_decode_rdchunk : decode (0#22 ++ 0#1 ++ 0#1 ++ 0x06#8) = .ok .rdchunk := by decide
theorem test_decode_rdchunkT : decode (0#22 ++ 0#1 ++ 1#1 ++ 0x06#8) = .ok .rdchunkT := by decide
theorem test_decode_rdchunkD : decode (0#22 ++ 1#1 ++ 0#1 ++ 0x06#8) = .ok .rdchunkD := by decide
theorem test_decode_rdchunkTD : decode (0#22 ++ 1#1 ++ 1#1 ++ 0x06#8) = .ok .rdchunkTD := by decide
theorem test_decode_ckchunk : decode (0#22 ++ 0#1 ++ 0#1 ++ 0x07#8) = .ok .ckchunk := by decide
theorem test_decode_encode : decode (0#22 ++ 0#1 ++ 0#1 ++ 0x08#8) = .ok .encode := by decide
theorem test_decode_parse : decode (0#22 ++ 0#1 ++ 0#1 ++ 0x09#8) = .ok .parse := by decide
theorem test_decode_inflate : decode (0#22 ++ 0#1 ++ 0#1 ++ 0x0A#8) = .ok .inflate := by decide
/-- The numbers of R69's three tags, from their ASCII bytes. -/
theorem test_decode_tag_rows :
    decode (0x49#8 ++ 0x48#8 ++ 0x44#8 ++ 0x52#8) = .ok .tagIhdr ∧
    decode (0x49#8 ++ 0x44#8 ++ 0x41#8 ++ 0x54#8) = .ok .tagIdat ∧
    decode (0x49#8 ++ 0x45#8 ++ 0x4E#8 ++ 0x44#8) = .ok .tagIend := by decide
/-- R63's three kinds of illegal word, each by its name. -/
theorem test_decode_rejects :
    decode (0#22 ++ 0#1 ++ 0#1 ++ 0x0B#8) = .reject .unknownOpcode ∧
    decode (0#22 ++ 0#1 ++ 0#1 ++ 0xFF#8) = .reject .unknownOpcode ∧
    decode (0#22 ++ 0#1 ++ 1#1 ++ 0x05#8) = .reject .flagNotAllowed ∧
    decode (0#22 ++ 1#1 ++ 0#1 ++ 0x08#8) = .reject .flagNotAllowed ∧
    decode (1#22 ++ 0#1 ++ 0#1 ++ 0x06#8) = .reject .reservedBits := by decide
theorem test_table_words :
    decodeTableWord 32 0x306 = some .rdchunkTD ∧ decodeTableWord 32 0x0A = some .inflate ∧
    decodeTableWord 32 0x0B = none := by decide

/-! ## The simple commands (2.8) -/

theorem test_nop : outcome (ran 0x0#32 State.reset) = (0, 0x2) := by decide +kernel
theorem test_tblinit : outcome (ran 0x1#32 State.reset) = (0, 0xA) := by decide +kernel
theorem test_illegal_words :
    outcome (ran 0x0B#32 State.reset) = (0, 0x82) ∧ (ran 0x0B#32 State.reset).cmd = 0x0B#32 ∧
    outcome (ran 0x80000002#32 State.reset) = (0, 0x82) := by decide +kernel
theorem test_illegal_keeps_kind :
    let s := { State.reset with kind := .payload, tvalid := true, table := crcTable }
    outcome (ran 0x0B#32 s) = (0, 0x28A) ∧ outcome (ran 0x0#32 (ran 0x0B#32 s)) = (0, 0x20A) := by decide +kernel
/-- R63: the tags' numbers are no commands. -/
theorem test_tag_words :
    outcome (ran 0x49484452#32 State.reset) = (0, 0x82) ∧ outcome (ran 0x49444154#32 State.reset) = (0, 0x82) ∧
    outcome (ran 0x49454E44#32 State.reset) = (0, 0x82) := by decide +kernel

/-! ## CRC32 (2.2) and the table (2.1) -/

def digits : State :=
  { State.reset with
    mem := bytesAt 0x1000 [0x31#8, 0x32#8, 0x33#8, 0x34#8, 0x35#8, 0x36#8, 0x37#8, 0x38#8, 0x39#8]
    src := 0x1000#64
    len := 9#64 }

theorem test_crc32_check_value :
    outcome (ran 0x2#32 digits) = (0xCBF43926, 0xA) ∧ outcome (ran 0x2#32 (ran 0x2#32 digits)) = (0xCBF43926, 0xA) := by
  decide +kernel
theorem test_crc32_edges :
    outcome (ran 0x2#32 { digits with len := 0#64 }) = (0, 0x2) ∧
    outcome (ran 0x2#32 { digits with src := 0xFFFFFFFFFFFFFFFF#64, len := 1#64 }) = (0xD202EF8D, 0xA) ∧
    outcome (ran 0x2#32 { digits with src := 0xFFFFFFFFFFFFFFFF#64, len := 2#64 }) = (0, 0x72) := by decide +kernel
/-- Row 98 of the table (2.1). -/
theorem test_table_row_98 :
    (crcTable.drop 0x98).take 8 =
      [0xFED41B76#32, 0x89D32BE0#32, 0x10DA7A5A#32, 0x67DD4ACC#32, 0xF9B9DF6F#32, 0x8EBEEFF9#32, 0x17B7BE43#32,
        0x60B08ED5#32] := by decide +kernel

/-! ## PUT32, GET32 (2.3) -/

theorem test_put32 :
    let t := ran 0x3#32 { State.reset with dst := 0x2001#64, val := 0x12345678#32 }
    outcome t = (4, 0x2) ∧ t.mem.readBytes 0x2000 6 = [0x00#8, 0x12#8, 0x34#8, 0x56#8, 0x78#8, 0x00#8] := by decide +kernel
theorem test_put32_edges :
    (ran 0x3#32 { State.reset with dst := 0xFFFFFFFFFFFFFFFC#64, val := 1#32 }).mem = [(0xFFFFFFFFFFFFFFFF, 1#8)] ∧
    outcome (ran 0x3#32 { State.reset with dst := 0xFFFFFFFFFFFFFFFD#64 }) = (0, 0x72) := by decide +kernel
theorem test_get32 :
    let t := ran 0x4#32 { State.reset with
      mem := bytesAt 0x2001 [0x12#8, 0x34#8, 0x56#8, 0x78#8, 0x9A#8], src := 0x2002#64 }
    t.val = 0x3456789A#32 ∧ t.result = 0x3456789A#69 := by decide +kernel
theorem test_get32_range :
    let t := ran 0x4#32 { State.reset with src := 0xFFFFFFFFFFFFFFFD#64, val := 7#32 }
    t.val = 7#32 ∧ outcome t = (0, 0x72) := by decide +kernel

/-! ## WRCHUNK (2.4) -/

/-- Operands of a `WRCHUNK` vector. -/
def wr (m : Memory) (dst src len : DWord) (tag : Word) : State :=
  ran 0x5#32 { State.reset with mem := m, dst := dst, src := src, len := len, tag := tag }

/-- Unaligned destination. -/
theorem test_wrchunk :
    let t := wr (bytesAt 0x5000 [0xAB#8, 0xCD#8]) 0x4001#64 0x5000#64 2#64 0x49444154#32
    outcome t = (14, 0xA) ∧
    t.mem.readBytes 0x4001 14 = [0x00#8, 0x00#8, 0x00#8, 0x02#8, 0x49#8, 0x44#8, 0x41#8, 0x54#8, 0xAB#8, 0xCD#8, 0xD4#8,
      0xDD#8, 0x66#8, 0x95#8] := by decide +kernel
/-- The two overlaps whose copy reads what the command has written. -/
theorem test_wrchunk_overlap :
    let m := bytesAt 0x100 [0x10#8, 0x11#8, 0x12#8, 0x13#8, 0x14#8, 0x15#8, 0x16#8, 0x17#8, 0x18#8, 0x19#8, 0x1A#8, 0x1B#8,
      0x1C#8, 0x1D#8, 0x1E#8, 0x1F#8]
    (wr m 0x100#64 0x104#64 4#64 0x74455874#32).mem.readBytes 0x100 16 =
      [0x00#8, 0x00#8, 0x00#8, 0x04#8, 0x74#8, 0x45#8, 0x58#8, 0x74#8, 0x74#8, 0x45#8, 0x58#8, 0x74#8, 0x00#8, 0x82#8,
        0xCC#8, 0xD1#8] ∧
    (wr m 0x100#64 0x107#64 4#64 0x74455874#32).mem.readBytes 0x100 16 =
      [0x00#8, 0x00#8, 0x00#8, 0x04#8, 0x74#8, 0x45#8, 0x58#8, 0x74#8, 0x74#8, 0x74#8, 0x74#8, 0x74#8, 0x1C#8, 0x1A#8,
        0x28#8, 0xD8#8] := by decide +kernel

/-! ## RDCHUNK (2.4) -/

/-- The chunk "tEXt" of the vectors, and four bytes at the destination. -/
def text : State :=
  { State.reset with
    mem := (bytesAt 0x5000 [0x00#8, 0x00#8, 0x00#8, 0x02#8, 0x74#8, 0x45#8, 0x58#8, 0x74#8, 0x68#8, 0x69#8, 0x75#8,
      0x69#8, 0xE6#8, 0xDF#8]).writeBytes 0x6000 [0xAA#8, 0xAA#8, 0xAA#8, 0xAA#8]
    src := 0x5000#64
    len := 14#64
    dst := 0x6000#64
    cap := 16#64
    tag := 0xDEADBEEF#32 }

/-- What the vectors list: `RESULT`, `STATUS`, `TAG`, and the four bytes at the destination. -/
def rd (w : Word) (s : State) : (Nat × Nat) × Nat × List Byte :=
  (outcome (ran w s), (ran w s).tag.toNat, (ran w s).mem.readBytes 0x6000 4)

theorem test_rdchunk : rd 0x006#32 text = ((14, 0x2), 0xDEADBEEF, [0xAA#8, 0xAA#8, 0xAA#8, 0xAA#8]) := by decide +kernel
theorem test_rdchunkT :
    rd 0x106#32 { text with len := 8#64 } = ((14, 0x2), 0x74455874, [0xAA#8, 0xAA#8, 0xAA#8, 0xAA#8]) ∧
    rd 0x106#32 { text with len := 7#64 } = ((0, 0x62), 0xDEADBEEF, [0xAA#8, 0xAA#8, 0xAA#8, 0xAA#8]) := by decide +kernel
theorem test_rdchunkD : rd 0x206#32 text = ((14, 0x2), 0xDEADBEEF, [0x68#8, 0x69#8, 0xAA#8, 0xAA#8]) := by decide +kernel
theorem test_rdchunkTD :
    rd 0x306#32 { text with cap := 2#64, len := 10#64 } = ((14, 0x2), 0x74455874, [0x68#8, 0x69#8, 0xAA#8, 0xAA#8]) ∧
    rd 0x306#32 { text with cap := 1#64 } = ((14, 0x2), 0x74455874, [0xAA#8, 0xAA#8, 0xAA#8, 0xAA#8]) ∧
    rd 0x306#32 { text with len := 9#64 } = ((0, 0x62), 0xDEADBEEF, [0xAA#8, 0xAA#8, 0xAA#8, 0xAA#8]) := by decide +kernel

/-! ## CKCHUNK (2.4) -/

theorem test_ckchunk :
    let s := { text with kind := .payload }
    outcome (ran 0x7#32 s) = (14, 0xA) ∧ outcome (ran 0x7#32 { s with mem := s.mem.write 0x5008 0xE8#8 }) = (0, 0x24A) ∧
    outcome (ran 0x7#32 { s with len := 13#64 }) = (0, 0x262) := by decide +kernel
theorem test_ckchunk_length_field :
    let s := { text with kind := .payload }
    outcome (ran 0x7#32 { s with mem := s.mem.write 0x5003 3#8 }) = (0, 0x262) ∧
    outcome (ran 0x7#32 { s with mem := s.mem.write 0x5003 1#8 }) = (0, 0x24A) := by decide +kernel

/-! ## ENCODE, PARSE, INFLATE (1.2, 2.5 to 2.7) -/

/-- The 65 bytes of 1.2. -/
def container65 : List Byte :=
  [0x89#8, 0x50#8, 0x4E#8, 0x47#8, 0x0D#8, 0x0A#8, 0x1A#8, 0x0A#8] ++
  [0x00#8, 0x00#8, 0x00#8, 0x0D#8, 0x49#8, 0x48#8, 0x44#8, 0x52#8] ++
  [0x00#8, 0x00#8, 0x00#8, 0x04#8, 0x00#8, 0x00#8, 0x00#8, 0x02#8, 0x08#8, 0x00#8, 0x00#8, 0x00#8, 0x00#8] ++
  [0x5A#8, 0xC3#8, 0x22#8, 0xBF#8] ++
  [0x00#8, 0x00#8, 0x00#8, 0x08#8, 0x49#8, 0x44#8, 0x41#8, 0x54#8] ++
  [0x00#8, 0x01#8, 0x02#8, 0x03#8, 0x04#8, 0x05#8, 0x06#8, 0x07#8] ++
  [0x03#8, 0xC0#8, 0xEA#8, 0x71#8] ++
  [0x00#8, 0x00#8, 0x00#8, 0x00#8, 0x49#8, 0x45#8, 0x4E#8, 0x44#8, 0xAE#8, 0x42#8, 0x60#8, 0x82#8]

/-- The raster of 1.2 with `CAP = cap`, `ENCODE` issued, and a collaborator that writes `ws` and answers `r`. -/
def encoding (cap : DWord) (ws : List (DWord × Byte)) (r : CRsp) : State :=
  { State.issueWord
      { State.reset with
        width := 4#32
        height := 2#32
        depth := 8#8
        level := 6#32
        src := 0x1000#64
        len := 8#64
        dst := 0x2000#64
        cap := cap
        mem := (bytesAt 0x1000 [0#8, 1#8, 2#8, 3#8, 4#8, 5#8, 6#8, 7#8]).writeBytes 0x2000 (List.replicate 80 0xAA#8) } 0x8#32
    with agenda := [.engine, .collaborator ws r, .engine] }

/-- The identity collaborator's writes for eight bytes (95_test_vectors.md, conventions). -/
def identityWrites : List (DWord × Byte) :=
  [(0x2029#64, 0#8), (0x202A#64, 1#8), (0x202B#64, 2#8), (0x202C#64, 3#8), (0x202D#64, 4#8), (0x202E#64, 5#8),
    (0x202F#64, 6#8), (0x2030#64, 7#8)]

theorem test_encode :
    let t := stepped 3 (encoding 128#64 identityWrites (.ok 8#64))
    outcome t = (65, 0xA) ∧ t.mem.readBytes 0x2000 66 = container65 ++ [0xAA#8] := by decide +kernel
/-- The request of 1.2, and the failures of 2.5 (`CAP = 57`; over budget; zero; error). -/
theorem test_encode_request_and_failures :
    (stepped 1 (encoding 128#64 [] .error)).creq =
      some { kind := .compress, inAddr := 0x1000#64, inLen := 8#64, outAddr := 0x2029#64, outMax := 71#64, level := 6#32 } ∧
    outcome (stepped 1 (encoding 57#64 [] .error)) = (0, 0x22) ∧
    (stepped 1 (encoding 57#64 [] .error)).mem.readBytes 0x2000 57 = List.replicate 57 0xAA#8 ∧
    outcome (stepped 3 (encoding 58#64 [] (.ok 2#64))) = (0, 0x2A) ∧
    outcome (stepped 3 (encoding 58#64 [] (.ok 0#64))) = (0, 0x3A) ∧
    outcome (stepped 3 (encoding 58#64 [] .error)) = (0, 0x3A) ∧
    outcome (stepped 3 (encoding 0x100000039#64 [] (.ok 0x100000000#64))) = (0, 0x2A) := by decide +kernel

/-- The container of 1.2 at 0x2000, with the registers of 2.6. -/
def parsing (verify : Bool) (len : DWord) : State :=
  { State.reset with
    verify := verify
    width := 0x11#32
    height := 0x22#32
    depth := 0x33#8
    src := 0x2000#64
    len := len
    mem := bytesAt 0x2000 container65 }

/-- The registers that the vectors of 2.6 list. -/
def raster (s : State) : (Nat × Nat) × Nat × Nat × Nat × Nat × Nat :=
  (outcome s, s.width.toNat, s.height.toNat, s.depth.toNat, s.payoff.toNat, s.paylen.toNat)

theorem test_parse :
    raster (ran 0x9#32 (parsing true 65#64)) = ((8, 0xA), 4, 2, 8, 41, 8) ∧
    raster (ran 0x9#32 (parsing false 49#64)) = ((8, 0x2), 4, 2, 8, 41, 8) := by decide +kernel
/-- The length sweep and the damage of 2.6, one of each code. -/
theorem test_parse_failures :
    let damaged := fun v a b => ran 0x9#32 { parsing v 65#64 with mem := (bytesAt 0x2000 container65).write (0x2000 + a) b }
    raster (ran 0x9#32 (parsing true 40#64)) = ((0, 0x6A), 0x11, 0x22, 0x33, 0, 0) ∧
    outcome (ran 0x9#32 (parsing false 40#64)) = (0, 0x62) ∧ outcome (ran 0x9#32 (parsing true 64#64)) = (0, 0x6A) ∧
    outcome (damaged true 7 0x0B#8) = (0, 0x12) ∧ outcome (damaged true 11 0x0C#8) = (0, 0x52) ∧
    outcome (damaged true 19 5#8) = (0, 0x4A) ∧ raster (damaged false 19 5#8) = ((10, 0x2), 5, 2, 8, 41, 8) ∧
    outcome (damaged true 40 0x55#8) = (0, 0x5A) ∧ outcome (damaged true 60 0x45#8) = (0, 0x5A) ∧
    outcome (damaged true 64 0x83#8) = (0, 0x4A) := by decide +kernel
/-- The last rows of 2.6's raw sizes. -/
theorem test_raw_sizes :
    rawSize 3#32 3#32 1#8 = 1 ∧ rawSize 0xFFFFFFFF#32 0xFFFFFFFF#32 16#8 = 0x1FFFFFFFC00000002 ∧
    rawSize 0xFFFFFFFF#32 0xFFFFFFFF#32 255#8 = 0x1FDFFFFFC04000001F := by decide +kernel

/-- `INFLATE` over eight bytes with `CAP = cap` (2.7). -/
def inflating (cap : DWord) (r : CRsp) : State :=
  { State.issueWord { State.reset with src := 0x2029#64, len := 8#64, dst := 0x3000#64, cap := cap } 0xA#32 with
    agenda := [.engine, .collaborator [(0x3000#64, 9#8), (0x4000#64, 9#8)] r, .engine] }

theorem test_inflate :
    outcome (stepped 3 (inflating 8#64 (.ok 8#64))) = (8, 0x2) ∧
    (stepped 3 (inflating 8#64 (.ok 8#64))).mem = [(0x3000, 9#8)] := by decide +kernel
theorem test_inflate_failures :
    outcome (stepped 3 (inflating 8#64 (.ok 9#64))) = (0, 0x22) ∧
    outcome (stepped 3 (inflating 0#64 (.ok 0#64))) = (0, 0x32) ∧
    outcome (stepped 3 (inflating 0#64 (.ok 1#64))) = (0, 0x22) ∧
    outcome (stepped 3 (inflating 8#64 .error)) = (0, 0x32) := by decide +kernel

/-! ## The host (2.8) and reset (2.9) -/

/-- `ENCODE` in `WAITC`: dropped writes, the sticky `OVR`, and its clearing. -/
theorem test_busy_writes :
    let waiting := { stepped 1 (encoding 128#64 [] .error) with agenda := [.hostWrite 4 99#64, .hostWrite 0 0#64,
      .hostWrite 1 4#64] }
    waiting.statusWord = 0x9#32 ∧ (stepped 1 waiting).statusWord = 0xD#32 ∧ (stepped 1 waiting).len = 8#64 ∧
    (stepped 2 waiting).statusWord = 0xD#32 ∧ (stepped 2 waiting).cmd = 0x8#32 ∧
    (stepped 3 waiting).statusWord = 0x9#32 := by decide +kernel
theorem test_idle_writes :
    let t := stepped 4 { State.reset with agenda := [.hostWrite 11 0x1FF#64, .hostWrite 2 0xFFFFFFFE#64, .hostWrite 13 5#64,
      .hostWrite 17 5#64] }
    t.depth = 0xFF#8 ∧ t.ctrlWord = 0#32 ∧ t.result = 0#69 ∧ t.ovr = false ∧ t.readReg 17 = 0#64 := by decide +kernel
/-- A script as the host runs it: write, issue, execute, poll, read back what it took over. -/
theorem test_script :
    let t := stepped 6 { State.reset with agenda := [.hostWrite 5 0x2001#64, .hostWrite 8 0x12345678#64, .hostWrite 0 3#64,
      .engine, .hostRead 1, .hostLoad 0x2002#64] }
    t.hostIn = 0x34#64 ∧ t.lent = [] := by decide +kernel
/-- A reset in `WAITC` (2.9): the registers, and the window that the collaborator may go on writing. -/
theorem test_reset_in_waitc :
    let t := stepped 1 { stepped 1 (encoding 128#64 [] .error) with agenda := [.reset [], .strayWrites [(0x2029#64, 1#8)]] }
    t.statusWord = 0#32 ∧ t.ctrlWord = 1#32 ∧ t.phase = .idle ∧ t.stray = [⟨0x2029, 71⟩] ∧
    t.mem.readBytes 0x2000 8 = Config.sig.toList ∧ (stepped 1 t).mem.read 0x2029 = 1#8 := by decide +kernel

/-- The host's store into a window it has handed over is the race of R49 (U8). -/
theorem test_owned_window :
    (match step { State.reset.issue 0x3#32 with agenda := [.hostStore 3#64 1#8] } with
      | .fault .ownedWindow => true
      | _ => false) = true := by decide +kernel

/-- R173, U7: after a reset in `WAITC` a command over the abandoned collaborator's window is issued and runs, and the host
may load there what the collaborator's late writes have left. -/
theorem test_stray_window :
    let s := { State.reset with
      dst := 0x2029#64
      stray := [⟨0x2029, 71⟩]
      agenda := [.hostWrite 0 3#64, .engine, .hostRead 1, .strayWrites [(0x202A#64, 7#8)], .hostLoad 0x202A#64] }
    outcome (stepped 2 s) = (4, 0x2) ∧ (stepped 5 s).hostIn = 7#64 := by decide +kernel
/-- R211, R140: a reset before the resume step on a refused answer (`ok` above `out_max`) changes no memory, on an accepted
one it may leave other bytes in the framing windows only. -/
theorem test_reset_in_resume :
    let ready := fun k => stepped 2 { encoding 128#64 [] (.ok k) with
      agenda := [.engine, .collaborator [] (.ok k), .reset [(0x2021#64, 1#8), (0x2029#64, 1#8), (0x2075#64, 1#8)]] }
    (stepped 1 (ready 72#64)).mem = (ready 72#64).mem ∧ (stepped 1 (ready 71#64)).mem.readBytes 0x2021 1 = [1#8] ∧
    (stepped 1 (ready 71#64)).mem.read 0x2029 = 0xAA#8 ∧ (stepped 1 (ready 71#64)).mem.read 0x2075 = 1#8 ∧ (ready 71#64).mem.read 0x2075 = 0#8 := by decide +kernel
/-- R68: an instance with another signature encodes and checks its own. -/
theorem test_other_signature :
    let sig : Signature := #v[1#8, 2#8, 3#8, 4#8, 5#8, 6#8, 7#8, 8#8]
    (stepped 1 { encoding 128#64 [] .error with sig := sig }).mem.readBytes 0x2000 8 = sig.toList ∧
    outcome (ran 0x9#32 { parsing true 65#64 with sig := sig }) = (0, 0x12) := by decide +kernel

/-! ## Witnesses: the hypotheses of each statement, met together by concrete states -/

/-- An answer that is a next state with the decidable property `p`. -/
theorem answers {r : Result} {p : State → Prop} [DecidablePred p]
    (h : (match r with | .next t => decide (p t) | _ => false) = true) : ∃ t, r = .next t ∧ p t := by
  cases r with
  | next t => exact ⟨t, rfl, by simpa using h⟩
  | fault _ => cases h
  | refused _ => cases h

/-- The top of the address space, for windows that end there. -/
abbrev top : DWord := 0xFFFFFFFFFFFFFFFF#64

/-- `NOP` issued from reset. -/
def issuedNop : State := State.reset.issueWord 0x0#32

/-- `ENCODE` waiting for its collaborator. -/
def waiting : State := stepped 1 (encoding 128#64 [] (.ok 8#64))

theorem witness_DecodeEncodeAgreeBothWays : decode 0x306#32 = .ok .rdchunkTD := by decide
theorem witness_StepRunsTheLatchedCommand :
    issuedNop.phase = .busy ∧ decode issuedNop.op = .ok .nop ∧ issuedNop.agenda = [] ∧
    { issuedNop with agenda := [Move.engine, .hostRead 1] }.agenda = .engine :: [.hostRead 1] := by decide +kernel
theorem witness_IssuedWordRunsNext : decode 0x0A#32 = .ok .inflate := by decide
theorem witness_IllegalWordsFail :
    ([0x0B#32, 0x105#32, 0x107#32, 0x305#32, 0x307#32, 0x80000000#32].all fun w =>
      let s := State.reset.issueWord w
      decide (s.phase = .busy ∧ s.agenda = [] ∧
        ¬ (s.op.toNat ≤ 0x0A ∨ s.op.toNat = 0x106 ∨ s.op.toNat = 0x206 ∨ s.op.toNat = 0x306))) = true := by decide +kernel

/-- `INFLATE` with its answer, ready to resume: a state of the invariant. -/
def resuming : State := { stepped 2 (inflating 8#64 (.ok 8#64)) with agenda := [] }

theorem resuming_inv : resuming.Inv where
  mem := by decide +kernel
  table := by decide +kernel
  port := by
    have hp : resuming.phase = .resume := by decide +kernel
    unfold State.portOk
    rw [hp]
    decide +kernel
  busy := by decide +kernel
  request := by
    intro q h
    have hq : resuming.creq = some resuming.decompressRequest := by decide +kernel
    obtain rfl : q = resuming.decompressRequest := by rw [hq] at h; exact (Option.some.inj h).symm
    exact .inr (by decide +kernel)
  sentinel := by decide +kernel

theorem witness_ResumeStepEnds : resuming.Inv ∧ resuming.phase = .resume ∧ resuming.agenda = [] :=
  ⟨resuming_inv, by decide +kernel, by decide +kernel⟩
theorem witness_UnansweredRequestHangs :
    let s := { waiting with agenda := [.engine, .hostWrite 0 0#64, .hostRead 1, .quiet] }
    s.phase = .waitc ∧ s.done = false ∧
    (∀ mv ∈ s.agenda, (∀ ws r, mv ≠ .collaborator ws r) ∧ ∀ left, mv ≠ .reset left) ∧
    ∃ t, runSteps 3 s = .next t ∧ t.agenda = [.quiet] := by
  refine ⟨by decide +kernel, by decide +kernel, ?_, answers (p := fun t => t.agenda = [.quiet]) (by decide +kernel)⟩
  intro mv h
  simp at h
  rcases h with rfl | rfl | rfl | rfl <;> simp
theorem witness_ResetValues :
    let s := { State.reset with agenda := [.reset [(0#64, 1#8)]] }
    s.agenda = .reset [(0#64, 1#8)] :: [] ∧ s.phase = .idle := by decide +kernel
/-- Each clause's premises: a waiting `ENCODE`; an idle engine; a `BUSY` step that will fail; a `RESUME` whose answer is
refused, at both bounds. -/
theorem witness_ResetEventAnyPhase :
    (let s := { waiting with agenda := [.reset []] }
     s.agenda = .reset [] :: [] ∧ ¬ inWindows s.openWrites 0x2028 ∧ inWindows s.openWrites 0x2029 ∧ s.phase = .waitc ∧
      s.creq = some waiting.compressRequest ∧ inWindows s.openWrites 0x206F ∧ ¬ inWindows s.openWrites 0x2070) ∧
    State.reset.phase = .idle ∧
    (let s := encoding 57#64 [] .error
     s.phase = .busy ∧ decode s.op = .ok .encode ∧ ∃ u, exec .encode s = .next u ∧ u.phase = .idle ∧ u.err ≠ .ok) ∧
    ([CRsp.error, .ok 0#64, .ok 72#64].all fun r =>
      let s := { waiting with phase := .resume, crsp := some r }
      decide (s.phase = .resume ∧ s.creq = some waiting.compressRequest ∧ s.crsp = some r)) = true ∧
    waiting.compressRequest.outMax.toNat < 72 ∧ (⟨0, 4⟩ : Window) ∈ { State.reset with stray := [⟨0, 4⟩] }.stray :=
  ⟨by decide +kernel, by decide +kernel, ⟨by decide +kernel, by decide +kernel,
    answers (p := fun u => u.phase = .idle ∧ u.err ≠ .ok) (by decide +kernel)⟩, by decide +kernel, by decide +kernel,
    by decide +kernel⟩
theorem witness_HostReadReturnsSlot :
    { waiting with agenda := [.hostRead 13] }.agenda = .hostRead 13 :: [] ∧ 16 < 17 ∧
    ∃ t, step (encoding 128#64 [] .error) = .next t ∧ t.phase ≠ .idle :=
  ⟨by decide +kernel, by decide, answers (p := fun t => t.phase ≠ .idle) (by decide +kernel)⟩
/-- One write for each clause: `STATUS`; a dropped one to 0, 2 and 17; an idle one to each of 2 to 13 and 17. -/
theorem witness_HostWriteRule :
    (∀ i : Fin 18, { State.reset with agenda := [.hostWrite i 5#64] }.agenda = .hostWrite i 5#64 :: [] ∧
      { State.reset with agenda := [.hostWrite i 5#64] }.phase = .idle ∧
      { waiting with agenda := [.hostWrite i 5#64] }.phase ≠ .idle) ∧ (5#64 : DWord).getLsbD 2 = true := by decide +kernel
theorem witness_IssueAcceptsAnyWord :
    let s := { State.reset with agenda := [.hostWrite 0 0x5#64] }
    s.agenda = .hostWrite 0 0x5#64 :: [] ∧ s.phase = .idle := by decide +kernel
theorem witness_OvrIsSticky :
    ∃ t, step { waiting with ovr := true, agenda := [.hostWrite 1 4#64] } = .next t ∧ t.ovr = false :=
  answers (p := fun t => t.ovr = false) (by decide +kernel)
/-- One issue for every command word with a row; `text` announces two data bytes and has room for them. -/
theorem witness_WindowsAreLentUntilDoneIsRead :
    ([0x2#64, 0x3#64, 0x4#64, 0x5#64, 0x6#64, 0x106#64, 0x206#64, 0x306#64, 0x7#64, 0x8#64, 0x9#64, 0xA#64].all fun v =>
      let s := { text with agenda := [.hostWrite 0 v], cap := 58#64 }
      decide (s.agenda = .hostWrite 0 v :: [] ∧ s.phase = .idle ∧ s.src.toNat ≠ s.dst.toNat + 8 ∧
        (be32Des (s.mem.readBytes s.src.toNat 4)).toNat ≤ s.cap.toNat ∧ 58 ≤ s.cap.toNat ∧ s.verify = true ∧
        (match step s with | .next t => decide (t.phase = .busy) | _ => false) = true)) = true ∧
    ∃ t, step { State.reset with agenda := [.hostRead 1], done := true, lent := [⟨0, 4⟩] } = .next t ∧
      (⟨0, 4⟩ : Window) ∉ t.lent :=
  ⟨by decide +kernel, answers (p := fun t => (⟨0, 4⟩ : Window) ∉ t.lent) (by decide +kernel)⟩
/-- The first and last byte of a lent window, and the bytes beside it. -/
theorem witness_HostRacesFault :
    let s := { State.reset with lent := [⟨8, 4⟩], stray := [⟨12, 4⟩], agenda := [.hostStore 8#64 1#8] }
    s.agenda = .hostStore 8#64 1#8 :: [] ∧
    inWindows s.lent 8 ∧ inWindows s.lent 11 ∧ ¬ inWindows s.lent 7 ∧ ¬ inWindows s.lent 12 ∧
    { s with agenda := [.hostLoad 8#64] }.agenda = .hostLoad 8#64 :: [] ∧
    { s with agenda := [.hostWrite 0 3#64] }.agenda = .hostWrite 0 3#64 :: [] ∧ State.reset.agenda = [] := by
  decide +kernel
theorem witness_CollaboratorStaysInItsWindow :
    waiting.phase = .waitc ∧ waiting.creq = some waiting.compressRequest ∧
    waiting.agenda = .collaborator [] (.ok 8#64) :: [.engine] ∧
    (let s := { State.reset with stray := [⟨8, 4⟩], agenda := [.strayWrites [(8#64, 1#8), (12#64, 1#8)]] }
     s.agenda = .strayWrites [(8#64, 1#8), (12#64, 1#8)] :: [] ∧ inWindows s.stray 8 ∧ ¬ inWindows s.stray 12) ∧
    { State.reset with agenda := [.quiet] }.agenda = .quiet :: [] := by decide +kernel
theorem witness_CollaboratorMayWriteAnything :
    waiting.phase = .waitc ∧ waiting.creq = some waiting.compressRequest ∧
    (List.replicate 71 0x55#8).length = waiting.compressRequest.outMax.toNat ∧
    waiting.compressRequest.outAddr.toNat + waiting.compressRequest.outMax.toNat ≤ 2 ^ 64 ∧
    (let w : Window := ⟨0xFFFFFFFFFFFFFFFC, 4⟩
     w ∈ { State.reset with stray := [w] }.stray ∧ [1#8, 2#8, 3#8, 4#8].length = w.size ∧ w.base + w.size ≤ 2 ^ 64) := by
  decide +kernel

/-- A state whose table is built. -/
def warm : State := { State.reset with tvalid := true, table := crcTable }

theorem witness_TblinitBuildsTable : State.reset.tableOk ∧ warm.tableOk := by decide +kernel
theorem witness_ChecksumSeesOneChangedByte : (0x68#8 : Byte) ≠ 0xE8#8 := by decide
theorem witness_Crc32Result :
    digits.tableOk ∧ digits.src.toNat + digits.len.toNat ≤ 2 ^ 64 ∧ digits.len.toNat ≠ 0 ∧
    { digits with src := top, len := 1#64 }.src.toNat + 1 ≤ 2 ^ 64 ∧
    2 ^ 64 < { digits with src := top, len := 2#64 }.src.toNat + 2 := by decide +kernel
theorem witness_WarmTableMakesNoDifference :
    State.reset.tableOk ∧ { State.reset with tvalid := true, table := crcTable }.tableOk ∧
    (∃ t, exec .tblinit State.reset = .next t ∧ t.done = true) ∧ resuming.tableOk ∧
    { resuming with tvalid := true, table := crcTable }.tableOk ∧ ∃ t, resumeStep resuming = .next t ∧ t.done = true :=
  ⟨by decide +kernel, by decide +kernel, answers (p := fun t => t.done = true) (by decide +kernel), by decide +kernel,
    by decide +kernel, answers (p := fun t => t.done = true) (by decide +kernel)⟩
theorem witness_ValidTableStays :
    warm.tvalid = true ∧ (∃ t, step { warm with phase := .busy } = .next t ∧ t.tvalid = true) ∧
    ∃ t, step { warm with agenda := [.reset []] } = .next t ∧ t.tvalid = false :=
  ⟨by decide +kernel, answers (p := fun t => t.tvalid = true) (by decide +kernel),
    answers (p := fun t => t.tvalid = false) (by decide +kernel)⟩
theorem witness_SerializerIsBijection : [0x12#8, 0x34#8, 0x56#8, 0x78#8].length = 4 := by decide
theorem witness_Put32Result_and_Get32Result :
    (0xFFFFFFFFFFFFFFFC#64 : DWord).toNat + 4 ≤ 2 ^ 64 ∧ 2 ^ 64 < (0xFFFFFFFFFFFFFFFD#64 : DWord).toNat + 4 := by decide
theorem witness_ChunkReadsBack : ([0x68#8, 0x69#8] : List Byte).length < 2 ^ 32 := by decide
/-- The clauses of `WRCHUNK` at their boundaries: the least illegal length, the greatest legal one, the destination one
byte too high and just legal, a source that wraps, the in-place form, and windows that touch on either side. -/
theorem witness_WrchunkWritesTheChunk :
    let s := fun (dst src len : DWord) => { State.reset with dst := dst, src := src, len := len }
    State.reset.tableOk ∧ 2 ^ 32 ≤ (s 0#64 0#64 0x100000000#64).len.toNat ∧
    (s 0#64 0#64 0xFFFFFFFF#64).len.toNat < 2 ^ 32 ∧
    2 ^ 64 < (s 0xFFFFFFFFFFFFFFF3#64 0#64 2#64).dst.toNat + 2 + 12 ∧
    (s 0xFFFFFFFFFFFFFFF2#64 0#64 2#64).dst.toNat + 2 + 12 ≤ 2 ^ 64 ∧
    ((s 0#64 top 2#64).len.toNat ≠ 0 ∧ (s 0#64 top 2#64).src.toNat ≠ (s 0#64 top 2#64).dst.toNat + 8 ∧
      2 ^ 64 < (s 0#64 top 2#64).src.toNat + 2) ∧
    (s 0#64 8#64 2#64).src.toNat = (s 0#64 8#64 2#64).dst.toNat + 8 ∧
    (s 2#64 0#64 2#64).src.toNat + 2 ≤ (s 2#64 0#64 2#64).dst.toNat ∧
    ((s 4#64 11#64 4#64).dst.toNat ≤ 11 + 1 ∧ 11 + 1 < (s 4#64 11#64 4#64).dst.toNat + 8 + 1) ∧
    (s 0#64 14#64 2#64).dst.toNat + 2 + 12 ≤ (s 0#64 14#64 2#64).src.toNat := by decide +kernel

/-- The "tEXt" data ready to be framed at 0x4000. -/
def framing : State :=
  { State.reset with
    mem := bytesAt 0x5000 [0x68#8, 0x69#8], src := 0x5000#64, len := 2#64, dst := 0x4000#64, tag := 0x74455874#32 }

/-- The state after `WRCHUNK`, with the operands to read the chunk back. -/
def framed : State := { ran 0x5#32 framing with src := 0x4000#64, len := 14#64, dst := 0x6000#64, cap := 2#64 }

theorem witness_WrchunkIsAlwaysWellFormed :
    framing.tableOk ∧ ∃ t, exec .wrchunk framing = .next t ∧ t.err = .ok :=
  ⟨by decide +kernel, answers (p := fun t => t.err = .ok) (by decide +kernel)⟩
/-- `text`: no copy (`CAP = 1`), a copy at the least `CAP` and `LEN`, at the top of the address space; the failures one
step beyond. -/
theorem witness_RdchunkResults_and_RdchunkFailures :
    text.src.toNat + text.len.toNat ≤ 2 ^ 64 ∧ 8 ≤ text.len.toNat ∧ (be32Des (text.mem.readBytes text.src.toNat 4)).toNat = 2 ∧
    { text with cap := 1#64 }.cap.toNat < 2 ∧ 2 ≤ { text with cap := 2#64 }.cap.toNat ∧
    8 + 2 ≤ { text with len := 10#64 }.len.toNat ∧ { text with len := 9#64 }.len.toNat < 8 + 2 ∧
    { text with len := 7#64 }.len.toNat < 8 ∧ { text with dst := top - 1#64 }.dst.toNat + 2 ≤ 2 ^ 64 ∧
    2 ^ 64 < { text with dst := top }.dst.toNat + 2 ∧
    2 ^ 64 < { text with src := top }.src.toNat + text.len.toNat ∧
    text.src.toNat + 8 + 2 ≤ text.dst.toNat ∧
    { text with dst := 0x5006#64 }.dst.toNat + 2 ≤ text.src.toNat + 8 ∧
    ({ text with dst := 0x5009#64 }.dst.toNat ≤ text.src.toNat + 8 + 1 ∧
      text.src.toNat + 8 + 1 < { text with dst := 0x5009#64 }.dst.toNat + 1) := by decide +kernel
theorem witness_CkchunkResults :
    text.tableOk ∧ (be32Des (text.mem.readBytes text.src.toNat 4)).toNat = 2 ∧
    2 ^ 64 < { text with src := top }.src.toNat + text.len.toNat ∧ text.src.toNat + text.len.toNat ≤ 2 ^ 64 ∧
    { text with len := 11#64 }.len.toNat < 12 ∧ { text with len := 13#64 }.len.toNat < 2 + 12 ∧ 12 ≤ text.len.toNat ∧
    2 + 12 ≤ text.len.toNat ∧
    crc32 (text.mem.readBytes 0x5004 6) = be32Des (text.mem.readBytes 0x500A 4) ∧
    crc32 ((text.mem.write 0x5008 0xE8#8).readBytes 0x5004 6) ≠ be32Des ((text.mem.write 0x5008 0xE8#8).readBytes 0x500A 4) := by
  decide +kernel
theorem witness_WrittenChunkVerifiesAndReadsBack :
    framing.tableOk ∧ (∃ t, exec .wrchunk framing = .next t ∧ t.err = .ok ∧ framed.mem = t.mem) ∧
    framing.dst.toNat + framing.len.toNat + 12 ≤ framing.src.toNat ∧ framed.tableOk ∧ framed.src = framing.dst ∧
    framing.len.toNat + 12 ≤ framed.len.toNat ∧ framed.src.toNat + framed.len.toNat ≤ 2 ^ 64 ∧
    framing.len.toNat ≤ framed.cap.toNat ∧ framed.dst.toNat + framing.len.toNat ≤ 2 ^ 64 ∧
    framed.src.toNat + 8 + framing.len.toNat ≤ framed.dst.toNat :=
  ⟨by decide +kernel, answers (p := fun t => t.err = .ok ∧ framed.mem = t.mem) (by decide +kernel), by decide +kernel⟩

/-- `framed` with the last byte of its checksum field changed. -/
def damaged : State := { framed with mem := framed.mem.write 0x400D 0xDE#8 }

theorem witness_DamagedChunkIsDetected :
    framing.tableOk ∧ (∃ t, exec .wrchunk framing = .next t ∧ t.err = .ok ∧ framed.mem = t.mem) ∧
    framing.dst.toNat + 4 ≤ 0x400D ∧ 0x400D < framing.dst.toNat + framing.len.toNat + 12 ∧
    (∀ k, k ≠ 0x400D → damaged.mem.read k = framed.mem.read k) ∧ damaged.mem.read 0x400D ≠ framed.mem.read 0x400D ∧
    damaged.tableOk ∧ damaged.src = framing.dst ∧ framing.len.toNat + 12 ≤ damaged.len.toNat ∧
    damaged.src.toNat + damaged.len.toNat ≤ 2 ^ 64 :=
  ⟨by decide +kernel, answers (p := fun t => t.err = .ok ∧ framed.mem = t.mem) (by decide +kernel), by decide +kernel,
    by decide +kernel, fun _ h => Memory.read_write_other framed.mem 0xDE#8 h, by decide +kernel⟩
theorem witness_EncodeSendsItsRequest :
    let s := fun (dst cap : DWord) => { State.reset with dst := dst, cap := cap }
    State.reset.tableOk ∧ 2 ^ 64 < (s top 2#64).dst.toNat + 2 ∧ (s top 1#64).dst.toNat + 1 ≤ 2 ^ 64 ∧
    State.reset.src.toNat + State.reset.len.toNat ≤ 2 ^ 64 ∧ (s 0#64 57#64).cap.toNat < 58 ∧ 58 ≤ (s 0#64 58#64).cap.toNat := by
  decide +kernel

/-- `ENCODE` about to resume on the answer `r`. -/
def answered (r : CRsp) : State := { waiting with phase := .resume, crsp := some r, agenda := [] }

/-- The four kinds of answer, at the bounds of `out_max = 71`. -/
theorem witness_EncodeFramesTheAnswer :
    ([CRsp.error, .ok 0#64, .ok 1#64, .ok 71#64, .ok 72#64].all fun r =>
      decide ((answered r).tableOk ∧ (answered r).phase = .resume ∧ (answered r).op = 0x8#32 ∧ (answered r).agenda = [] ∧
        (answered r).creq = some waiting.compressRequest ∧ (answered r).crsp = some r)) = true ∧
    waiting.compressRequest.outMax.toNat = 71 ∧ 71 < 2 ^ 32 := by decide +kernel
theorem witness_EncodeBuildsTheContainer :
    ([(58#64, 1#64), (65#64, 8#64), (0x100000039#64, 0xFFFFFFFF#64)].all fun (p : DWord × DWord) =>
      let s := encoding p.1 identityWrites (.ok p.2)
      decide (s.tableOk ∧ s.phase = .busy ∧ s.op = 0x8#32 ∧
        s.agenda = [.engine, .collaborator identityWrites (.ok p.2), .engine] ∧ s.dst.toNat + s.cap.toNat ≤ 2 ^ 64 ∧
        s.src.toNat + s.len.toNat ≤ 2 ^ 64 ∧ 58 ≤ s.cap.toNat ∧ 1 ≤ p.2.toNat ∧
        p.2.toNat ≤ min (s.cap.toNat - 57) (2 ^ 32 - 1))) = true := by decide +kernel
theorem witness_ParseReportsTheFirstFailure_and_ParseResults :
    (parsing true 65#64).tableOk ∧
    (∃ t, exec .parse (parsing true 65#64) = .next t ∧ t.err = .ok) ∧
    ((∃ t, exec .parse (parsing true 64#64) = .next t ∧ t.err ≠ .ok) ∧
      (parsing true 33#64).mem.readBytes 0x2000 8 = (parsing true 33#64).sig.toList ∧ 33 ≤ (parsing true 33#64).len.toNat ∧
      be32Des ((parsing true 33#64).mem.readBytes 0x2008 4) = 13#32 ∧
      be32Des ((parsing true 33#64).mem.readBytes 0x200C 4) = 0x49484452#32) ∧
    (∃ t, exec .parse (parsing true 32#64) = .next t ∧ t.err ≠ .ok) ∧ ¬ 33 ≤ (parsing true 32#64).len.toNat ∧
    (∃ t, exec .parse (parsing false 40#64) = .next t ∧ t.err ≠ .ok) ∧ (parsing false 40#64).verify = false :=
  ⟨by decide +kernel, answers (p := fun t => t.err = .ok) (by decide +kernel),
    ⟨answers (p := fun t => t.err ≠ .ok) (by decide +kernel), by decide +kernel⟩,
    answers (p := fun t => t.err ≠ .ok) (by decide +kernel), by decide +kernel,
    answers (p := fun t => t.err ≠ .ok) (by decide +kernel), by decide +kernel⟩
theorem witness_VerifiedParseAcceptsExactlyContainers :
    (parsing true 65#64).tableOk ∧ (parsing true 65#64).verify = true := by decide +kernel
theorem witness_ParseCompletesOnContainers :
    let s := parsing false 65#64
    s.tableOk ∧ s.src.toNat + s.len.toNat ≤ 2 ^ 64 ∧ 57 + 8 ≤ s.len.toNat ∧
    s.mem.readBytes s.src.toNat (57 + 8) =
      container s.sig 4#32 2#32 8#8 [0#8, 1#8, 2#8, 3#8, 4#8, 5#8, 6#8, 7#8] := by decide +kernel
/-- A state with the operands to parse what stands at 0x2000. -/
def reread (v : State) : State := { v with src := 0x2000#64, len := 65#64 }

theorem witness_EncodeThenParseRoundTrip :
    let s := encoding 128#64 identityWrites (.ok 8#64)
    s.tableOk ∧ s.phase = .busy ∧ s.op = 0x8#32 ∧ s.agenda = [.engine, .collaborator identityWrites (.ok 8#64), .engine] ∧
    ∃ v, runSteps 3 s = .next v ∧ v.err = .ok ∧ (reread v).tableOk ∧ (reread v).sig = s.sig ∧ (reread v).src = s.dst ∧
      57 + 8 ≤ (reread v).len.toNat ∧ (reread v).src.toNat + (reread v).len.toNat ≤ 2 ^ 64 :=
  ⟨by decide +kernel, by decide +kernel, by decide +kernel, by decide +kernel,
    answers (r := runSteps 3 (encoding 128#64 identityWrites (.ok 8#64)))
      (p := fun v => v.err = .ok ∧ (reread v).tableOk ∧ (reread v).sig = Config.sig ∧ (reread v).src = 0x2000#64 ∧
        57 + 8 ≤ (reread v).len.toNat ∧ (reread v).src.toNat + (reread v).len.toNat ≤ 2 ^ 64) (by decide +kernel)⟩
theorem witness_InflateSendsItsRequest :
    let s := fun (src len dst cap : DWord) => { State.reset with src := src, len := len, dst := dst, cap := cap }
    ((s top 1#64 top 1#64).src.toNat + 1 ≤ 2 ^ 64 ∧ (s top 1#64 top 1#64).dst.toNat + 1 ≤ 2 ^ 64) ∧
    2 ^ 64 < (s top 2#64 0#64 0#64).src.toNat + 2 ∧ 2 ^ 64 < (s 0#64 0#64 top 2#64).dst.toNat + 2 := by decide +kernel
/-- The four kinds of answer, at the bounds of `CAP = 8`. -/
theorem witness_InflateReportsTheAnswer :
    ([CRsp.error, .ok 0#64, .ok 1#64, .ok 8#64, .ok 9#64].all fun r =>
      let s := { resuming with crsp := some r }
      decide (s.phase = .resume ∧ s.op = 0xA#32 ∧ s.agenda = [] ∧ s.creq = some resuming.decompressRequest ∧
        s.crsp = some r ∧ s.cap.toNat = 8)) = true := by decide +kernel
theorem witness_FailureIsPrecise :
    { text with mem := [] }.tableOk ∧
    (∃ t, exec .ckchunk { text with mem := [] } = .next t ∧ t.phase = .idle ∧ t.err ≠ .ok) ∧
    { resuming with crsp := some .error }.err = .ok ∧
    ∃ t, resumeStep { resuming with crsp := some .error } = .next t ∧ t.err ≠ .ok :=
  ⟨by decide +kernel, answers (p := fun t => t.phase = .idle ∧ t.err ≠ .ok) (by decide +kernel), by decide +kernel,
    answers (p := fun t => t.err ≠ .ok) (by decide +kernel)⟩
theorem witness_WritesStayInTheFootprint :
    (∃ t, exec .wrchunk framing = .next t ∧ t.err = .ok) ∧ ¬ inWindows (execWrites .wrchunk framing) 0x3FFF ∧
    inWindows (execWrites .wrchunk framing) 0x4000 ∧ inWindows (execWrites .wrchunk framing) 0x400D ∧
    ¬ inWindows (execWrites .wrchunk framing) 0x400E :=
  ⟨answers (p := fun t => t.err = .ok) (by decide +kernel), by decide +kernel⟩
theorem witness_ReadsStayInTheFootprint :
    (∃ t, exec .get32 text = .next t ∧ t.err = .ok) ∧
    ∀ a, inWindows (engineReads .get32 text) a → (text.mem.write 0x5004 0#8).read a = text.mem.read a := by
  refine ⟨answers (p := fun t => t.err = .ok) (by decide +kernel), fun a h => Memory.read_write_other _ _ ?_⟩
  obtain ⟨w, hw, ha⟩ := h
  obtain rfl : w = ⟨0x5000, 4⟩ := List.mem_singleton.mp hw
  simp only [Window.holds] at ha
  omega
theorem witness_OperandsSurviveCommands :
    (∃ t, exec .parse (parsing true 65#64) = .next t ∧ t.err = .ok) ∧ ∃ t, resumeStep resuming = .next t ∧ t.err = .ok :=
  ⟨answers (p := fun t => t.err = .ok) (by decide +kernel), answers (p := fun t => t.err = .ok) (by decide +kernel)⟩
theorem witness_StepKeepsInvariant : resuming.Inv ∧ ∃ t, step resuming = .next t ∧ t.done = true :=
  ⟨resuming_inv, answers (p := fun t => t.done = true) (by decide +kernel)⟩

end Sys2Proof.Tests
end

/-! PROOFS. The decoder against the encoder (R60 to R63). -/

namespace Sys2Proof

/-- A word without reserved bits is put together again from its three fields (R60). -/
theorem commandWord_fields {w : Word} (h : reservedOf w = 0#22) :
    commandWord (w.extractLsb' 0 8) (wtOf w) (wdOf w) = w := by
  have high : ∀ j < 22, w.getLsbD (10 + j) = false := fun j hj => by
    simpa [reservedOf, hj] using congrArg (BitVec.getLsbD · j) h
  apply BitVec.eq_of_getLsbD_eq
  intro i hi
  simp only [commandWord, wtOf, wdOf, BitVec.getLsbD_or, BitVec.getLsbD_setWidth, BitVec.getLsbD_extractLsb',
    BitVec.getLsbD_shiftLeft, BitVec.getLsbD_ofBool]
  have field : i < 8 ∨ i = 8 ∨ i = 9 ∨ 10 ≤ i := by omega
  rcases field with h8 | rfl | rfl | h10
  · simp [h8, hi, show i < 9 by omega]
  · simp
  · simp
  · obtain ⟨j, rfl⟩ := Nat.exists_eq_add_of_le h10
    have h8 : 10 + j - 8 ≠ 0 := by omega
    have h9 : 10 + j - 9 ≠ 0 := by omega
    simp [high j (by omega), h8, h9]

/-- The decoder's answer for an operation that takes no flags (R60, R63). -/
theorem decodeFlagless_eq_ok {wt wd : Bool} {i j : Instr} :
    decodeFlagless wt wd i = .ok j ↔ wt = false ∧ wd = false ∧ i = j := by
  cases wt <;> cases wd <;> simp [decodeFlagless]

/-- A word with no reserved bit and a known operation number is the number with the word's flags (R60). -/
theorem eq_commandWord_of_opcOf {w : Word} (hr : reservedOf w = 0#22) {op : Byte} (ho : opcOf w = op.toNat) :
    w = commandWord op (wtOf w) (wdOf w) := by
  have hop : w.extractLsb' 0 8 = op := BitVec.eq_of_toNat_eq ho
  rw [← hop, commandWord_fields hr]

/-- A flagless operation is decoded from its own word only. -/
theorem eq_commandWord_of_decodeFlagless {w : Word} (hr : reservedOf w = 0#22) {op : Byte} (ho : opcOf w = op.toNat)
    {i j : Instr} (h : decodeFlagless (wtOf w) (wdOf w) i = .ok j) : i = j ∧ w = commandWord op false false := by
  obtain ⟨hwt, hwd, hij⟩ := decodeFlagless_eq_ok.1 h
  exact ⟨hij, by rw [eq_commandWord_of_opcOf hr ho, hwt, hwd]⟩

/-- The encoder of `RDCHUNK`'s four spellings (R62). -/
theorem encode_decodeRdchunk (wt wd : Bool) : encode (decodeRdchunk wt wd) = commandWord 0x06#8 wt wd := by
  cases wt <;> cases wd <;> rfl

/-- An instruction is decoded from its own word only, so no two words mean one instruction (R61, R62, R69). -/
theorem eq_encode_of_decode {w : Word} {i : Instr} (h : decode w = .ok i) : w = encode i := by
  unfold decode at h
  split at h
  case isTrue hw => cases h; exact hw
  split at h
  case isTrue hw => cases h; exact hw
  split at h
  case isTrue hw => cases h; exact hw
  split at h
  case isTrue => cases h
  case isFalse hr =>
  have hr : reservedOf w = 0#22 := not_not.1 hr
  have flagless : ∀ {j : Instr} (op : Byte), opcOf w = op.toNat → commandWord op false false = encode j →
      decodeFlagless (wtOf w) (wdOf w) j = .ok i → w = encode i := fun op ho hj h => by
    obtain ⟨rfl, hw⟩ := eq_commandWord_of_decodeFlagless hr ho h
    rw [← hj, hw]
  simp only at h
  split at h
  case h_1 ho => exact flagless 0x00#8 ho rfl h
  case h_2 ho => exact flagless 0x01#8 ho rfl h
  case h_3 ho => exact flagless 0x02#8 ho rfl h
  case h_4 ho => exact flagless 0x03#8 ho rfl h
  case h_5 ho => exact flagless 0x04#8 ho rfl h
  case h_6 ho => exact flagless 0x05#8 ho rfl h
  case h_7 ho =>
    cases h
    exact (eq_commandWord_of_opcOf hr (op := 0x06#8) ho).trans (encode_decodeRdchunk _ _).symm
  case h_8 ho => exact flagless 0x07#8 ho rfl h
  case h_9 ho => exact flagless 0x08#8 ho rfl h
  case h_10 ho => exact flagless 0x09#8 ho rfl h
  case h_11 ho => exact flagless 0x0A#8 ho rfl h
  case h_12 => cases h

end Sys2Proof

/-! PROOFS. What a step of the engine can do to the state, said once for all commands: the inversion lemmas that the
invariants of the machine are derived from (R174, R176, R178, R190). -/

namespace Sys2Proof.Machine

/-! ## The state before a command's end -/

/-- `u` is a state that a command's step can have made of `s` before it ends: only memory and the registers that commands
write (R180) differ, and the table has at most been built (R96). -/
structure State.Prepares (s u : State) : Prop where
  frame : u = { s with
    mem := u.mem, kind := u.kind, tag := u.tag, val := u.val, width := u.width, height := u.height, depth := u.depth,
    payoff := u.payoff, paylen := u.paylen, tvalid := u.tvalid, table := u.table }
  table : (u.tvalid = s.tvalid ∧ u.table = s.table) ∨ (u.tvalid = true ∧ u.table = s.buildTable.table)

namespace State.Prepares

theorem refl (s : State) : s.Prepares s := ⟨rfl, .inl ⟨rfl, rfl⟩⟩

theorem buildTable (s : State) : s.Prepares s.buildTable :=
  ⟨by rcases s.buildTable_cases with h | h <;> rw [h], .inr ⟨s.buildTable_tvalid, rfl⟩⟩

/-- Memory and the registers that commands write may be anything. -/
theorem write {s u : State} (h : s.Prepares u) {mem : Memory} {kind : TagClass} {tag val width height : Word}
    {depth : Byte} {payoff : DWord} {paylen : Word} :
    s.Prepares { u with
      mem := mem, kind := kind, tag := tag, val := val, width := width, height := height, depth := depth
      payoff := payoff, paylen := paylen } :=
  ⟨by rw [h.frame], h.table⟩

variable {s u : State}

theorem ovr (h : s.Prepares u) : u.ovr = s.ovr := by rw [h.frame]

/-- A sound table stays sound. -/
theorem tableOk (h : s.Prepares u) (hs : s.tableOk) : u.tableOk := by
  rcases h.table with ⟨hv, ht⟩ | ⟨-, ht⟩
  · simpa only [State.tableOk, hv, ht] using hs
  · rw [s.buildTable_table hs] at ht
    exact ⟨by rw [ht, crcTable_length], fun _ => ht⟩

/-- A valid table stays valid and as it is (R22, R101). -/
theorem validTable (h : s.Prepares u) (hv : s.tvalid = true) : u.tvalid = true ∧ u.table = s.table := by
  rcases h.table with ⟨hu, ht⟩ | ⟨hu, ht⟩
  · exact ⟨hu.trans hv, ht⟩
  · exact ⟨hu, by rw [ht, s.buildTable_of_tvalid hv]⟩

end State.Prepares

/-- The command whose step has made `u` ends, in success (R176) or in failure (R190). -/
inductive State.Ends (u : State) : State → Prop where
  | complete (r : Nat) : u.Ends (u.complete r)
  | raise (e : ErrCode) : u.Ends (u.raise e)

/-! ## The execution step -/

/-- Everything an execution step can answer: the command's end, or the request of `ENCODE` or `INFLATE` with the checks
that stand before it. Memory keeps its canonical form. -/
inductive ExecAnswers (i : Instr) (s : State) : State → Prop where
  | ends {u t : State} (hu : s.Prepares u) (hm : s.mem.wf → u.mem.wf) (ht : u.Ends t) : ExecAnswers i s t
  | compress {u : State} (hu : s.Prepares u) (hm : s.mem.wf → u.mem.wf) (hi : i = .encode)
      (hdst : fits s.dstAddr s.dstCap) (hsrc : fits s.srcAddr s.srcLen) (hcap : Config.minOut ≤ s.dstCap)
      (hv : u.tvalid = true) : ExecAnswers i s (u.request s.compressRequest)
  | decompress (hi : i = .inflate) (hsrc : fits s.srcAddr s.srcLen) (hdst : fits s.dstAddr s.dstCap) :
      ExecAnswers i s (s.request s.decompressRequest)

variable {i : Instr} {s t : State}

theorem State.wf_buildTable (h : s.mem.wf) : s.buildTable.mem.wf := by rwa [s.buildTable_mem]

namespace ExecAnswers

theorem raise (e : ErrCode) : ExecAnswers i s (s.raise e) := .ends (.refl s) id (.raise e)

theorem raise_buildTable (e : ErrCode) : ExecAnswers i s (s.buildTable.raise e) :=
  .ends (.buildTable s) State.wf_buildTable (.raise e)

theorem complete {u : State} (hu : s.Prepares u) (hm : s.mem.wf → u.mem.wf) {r : Nat} :
    ExecAnswers i s (u.complete r) := .ends hu hm (.complete r)

/-- The end of a command that has written memory or registers (R180). -/
theorem complete_write {u : State} (hu : s.Prepares u) {mem : Memory} (hm : s.mem.wf → mem.wf) {kind : TagClass}
    {tag val width height : Word} {depth : Byte} {payoff : DWord} {paylen : Word} {r : Nat} :
    ExecAnswers i s ({ u with
      mem := mem, kind := kind, tag := tag, val := val, width := width, height := height, depth := depth
      payoff := payoff, paylen := paylen }.complete r) :=
  .ends hu.write hm (.complete r)

end ExecAnswers

theorem illegalWord_answers (h : illegalWord s = .next t) : ExecAnswers i s t := by
  cases h
  exact .raise .illcmd

theorem execNop_answers (h : execNop s = .next t) : ExecAnswers i s t := by
  cases h
  exact .complete (.refl s) id

theorem execTblinit_answers (h : execTblinit s = .next t) : ExecAnswers i s t := by
  cases h
  exact .complete (.buildTable s) State.wf_buildTable

theorem execCrc32_answers (h : execCrc32 s = .next t) : ExecAnswers i s t := by
  obtain ⟨-, rfl⟩ | ⟨-, -, rfl⟩ | ⟨-, -, rfl⟩ := execCrc32_cases h
  · exact .raise .range
  · exact .complete (.refl s) id
  · exact .complete (.buildTable s) State.wf_buildTable

theorem execPut32_answers (h : execPut32 s = .next t) : ExecAnswers i s t := by
  unfold execPut32 at h
  split at h
  · rename_i hf
    cases h
    exact .complete_write (.refl s) (fun hm => Memory.wf_put32 hm s.val hf)
  · cases h
    exact .raise .range

theorem execGet32_answers (h : execGet32 s = .next t) : ExecAnswers i s t := by
  unfold execGet32 at h
  split at h
  · cases h
    exact .complete_write (.refl s) id
  · cases h
    exact .raise .range

theorem execWrchunk_answers (h : execWrchunk s = .next t) : ExecAnswers i s t := by
  obtain rfl | ⟨-, hf, -, rfl⟩ | ⟨-, hf, -, -, rfl⟩ := execWrchunk_cases h
  · exact .raise .range
  · exact .complete_write (.buildTable s) (fun hm => Memory.wf_frameInPlace hm _ _ hf)
  · exact .complete_write (.buildTable s) (fun hm => Memory.wf_frameCopy hm _ _ _ hf)

theorem rdchunkWith_answers {wt wd : Bool} (h : rdchunkWith wt wd s = .next t) : ExecAnswers i s t := by
  obtain rfl | rfl | ⟨-, rfl⟩ | ⟨-, hf, rfl⟩ := rdchunkWith_cases h
  · exact .raise .range
  · exact .raise .trunc
  · exact .complete_write (.refl s) id
  · exact .complete_write (.refl s) (fun hm => Memory.wf_copyUp hm _ hf)

theorem execCkchunk_answers (h : execCkchunk s = .next t) : ExecAnswers i s t := by
  obtain rfl | rfl | rfl | rfl := execCkchunk_cases h
  · exact .raise .range
  · exact .raise .trunc
  · exact .raise_buildTable .corrupt
  · exact .complete_write (.buildTable s) State.wf_buildTable

/-- The header chunk that `ENCODE` writes lies in the destination window, whose capacity has been checked (R136, R144). -/
theorem State.wf_encodedHeader (hm : s.mem.wf) (hdst : fits s.dstAddr s.dstCap) (hcap : Config.minOut ≤ s.dstCap)
    (sig : Signature) : (s.encodedHeader sig).wf := by
  refine Memory.wf_writeBytes (Memory.wf_writeBytes hm _ ?_) _ ?_ <;>
    simp only [fits, Config.minOut, Vector.length_toList, chunkWith_length, hdr_length] at * <;> omega

theorem execEncode_answers (h : execEncode s = .next t) : ExecAnswers .encode s t := by
  obtain rfl | rfl | ⟨hdst, hsrc, hcap, rfl⟩ := encodeFirstHalf_cases h
  · exact .raise .range
  · exact .raise .cap
  · exact .compress (State.Prepares.buildTable s).write (fun hm => State.wf_encodedHeader hm hdst hcap _) rfl hdst hsrc
      hcap s.buildTable_tvalid

theorem execParse_answers (h : execParse s = .next t) : ExecAnswers i s t := by
  obtain ⟨e, -, ⟨-, rfl⟩ | ⟨-, rfl⟩⟩ | ⟨-, rfl⟩ | ⟨-, rfl⟩ := parseWith_cases h
  · exact .raise e
  · exact .raise_buildTable e
  · exact .complete_write (.refl s) id
  · exact .complete_write (.buildTable s) State.wf_buildTable

theorem execInflate_answers (h : execInflate s = .next t) : ExecAnswers .inflate s t := by
  obtain rfl | ⟨hsrc, hdst, rfl⟩ := execInflate_cases h
  · exact .raise .range
  · exact .decompress rfl hsrc hdst

/-- The inversion of `exec`, command by command. -/
theorem exec_answers (h : exec i s = .next t) : ExecAnswers i s t := by
  cases i with
  | nop => exact execNop_answers h
  | tblinit => exact execTblinit_answers h
  | crc32 => exact execCrc32_answers h
  | put32 => exact execPut32_answers h
  | get32 => exact execGet32_answers h
  | wrchunk => exact execWrchunk_answers h
  | rdchunk => exact rdchunkWith_answers h
  | rdchunkT => exact rdchunkWith_answers h
  | rdchunkD => exact rdchunkWith_answers h
  | rdchunkTD => exact rdchunkWith_answers h
  | ckchunk => exact execCkchunk_answers h
  | encode => exact execEncode_answers h
  | parse => exact execParse_answers h
  | inflate => exact execInflate_answers h
  | tagIhdr => exact illegalWord_answers h
  | tagIdat => exact illegalWord_answers h
  | tagIend => exact illegalWord_answers h

/-! ## The resume step -/

/-- A request for `ENCODE` in a state of the invariant: the destination window has room for an answer within the request
(R139, R140). -/
theorem State.Inv.compress_room (hs : s.Inv) (hop : decode s.op = .ok .encode) {q : CReq} (hq : s.creq = some q) {k : Nat}
    (hk : k ≤ q.outMax.toNat) : fits s.dstAddr (57 + k) := by
  rcases hs.request q hq with ⟨-, rfl, hdst, -, hcap, -⟩ | ⟨hop', -⟩
  · simp only [State.compressRequest, State.budget, BitVec.toNat_ofNat] at hk
    simp only [fits, Config.minOut] at *
    omega
  · rw [hop', decode_encode_word.2] at hop
    cases hop

/-- The second half of `ENCODE` keeps the canonical form of memory where its answer has room. -/
theorem State.wf_encodedRest (hm : s.mem.wf) {k : Nat} (hf : fits s.dstAddr (57 + k)) : (s.encodedRest k).wf := by
  refine Memory.wf_writeBytes (Memory.wf_frameInPlace hm _ _ ?_) _ ?_ <;>
    simp only [fits, chunkWith_length, List.length_nil] at * <;> omega

/-! ## The engine's step -/

/-- Everything a step of the engine can answer: nothing changes, where no step is enabled (log entries 2, 18); the command
ends; or its request goes out, as the invariant wants it. From a state of the invariant memory keeps its canonical form. -/
inductive EngineAnswers (s : State) : State → Prop where
  | nothing : EngineAnswers s s
  | ends {u t : State} (hu : s.Prepares u) (hm : s.Inv → u.mem.wf) (ht : u.Ends t) : EngineAnswers s t
  | requests {u : State} {q : CReq} (hp : s.phase = .busy) (hu : s.Prepares u) (hm : s.Inv → u.mem.wf)
      (hq : (u.request q).requestOk) : EngineAnswers s (u.request q)

/-- The inversion of the resume step (R178). -/
theorem resumeStep_answers (h : resumeStep s = .next t) : EngineAnswers s t := by
  have raise (e : ErrCode) : EngineAnswers s (s.raise e) := .ends (.refl s) State.Inv.mem (.raise e)
  rcases resumeStep_cases h with rfl | ⟨q, r, hop, hq, -, hr⟩ | ⟨q, r, -, -, -, hr⟩
  · exact .nothing
  · obtain rfl | rfl | ⟨k, -, hk, -, rfl⟩ := resumeEncode_cases hr
    · exact raise .collab
    · exact raise .cap
    · exact .ends (State.Prepares.buildTable s).write
        (fun hs => State.wf_encodedRest hs.mem (hs.compress_room hop hq hk)) (.complete _)
  · obtain rfl | rfl | ⟨k, -, -, -, rfl⟩ := resumeInflate_cases hr
    · exact raise .collab
    · exact raise .cap
    · exact .ends (.refl s) State.Inv.mem (.complete _)

/-- The inversion of the execution step (R174): an illegal word ends its command, any other runs the instruction whose word
it is (R61). -/
theorem executionStep_answers (hp : s.phase = .busy) (h : executionStep s = .next t) : EngineAnswers s t := by
  unfold executionStep at h
  split at h
  case h_2 =>
    cases h
    exact .ends (.refl s) State.Inv.mem (.raise .illcmd)
  case h_1 i hi =>
  have hop := eq_encode_of_decode hi
  cases exec_answers h with
  | ends hu hm ht => exact .ends hu (fun hs => hm hs.mem) ht
  | compress hu hm hi hdst hsrc hcap hv =>
    subst hi
    refine .requests hp hu (fun hs => hm hs.mem) (fun q hq => ?_)
    cases hq
    rw [hu.frame]
    exact .inl ⟨hop, rfl, hdst, hsrc, hcap, hv⟩
  | decompress hi hsrc hdst =>
    subst hi
    refine .requests hp (.refl s) State.Inv.mem (fun q hq => ?_)
    cases hq
    exact .inr ⟨hop, rfl, hsrc, hdst⟩

theorem engineStep_answers (h : engineStep s = .next t) : EngineAnswers s t := by
  unfold engineStep at h
  split at h
  case h_1 => cases h; exact .nothing
  case h_2 hp => exact executionStep_answers hp h
  case h_3 => cases h; exact .nothing
  case h_4 => exact resumeStep_answers h

/-- `OVR` is not the engine's to write (R19). -/
theorem EngineAnswers.ovr (h : EngineAnswers s t) : t.ovr = s.ovr := by
  cases h with
  | nothing => rfl
  | ends hu _ ht => cases ht <;> exact hu.ovr
  | requests _ hu => exact hu.ovr

/-- No step of the engine touches a valid table (R22, R101). -/
theorem EngineAnswers.validTable (h : EngineAnswers s t) (hv : s.tvalid = true) :
    t.tvalid = true ∧ t.table = s.table := by
  cases h with
  | nothing => exact ⟨hv, rfl⟩
  | ends hu _ ht => cases ht <;> exact hu.validTable hv
  | requests _ hu => exact hu.validTable hv

end Sys2Proof.Machine

/-! PROOFS. What a move of an agent outside the engine can do, and the inversion of `moveStep`. -/

namespace Sys2Proof.Machine

variable {s t : State}

/-! ## `HostWrite` (R172) -/

/-- A write to an operand register or `CTRL` changes nothing else (R172). -/
theorem State.writeOperand_frame (s : State) (i : Nat) (v : DWord) :
    s.writeOperand i v = { s with
      verify := (s.writeOperand i v).verify, src := (s.writeOperand i v).src, len := (s.writeOperand i v).len
      dst := (s.writeOperand i v).dst, cap := (s.writeOperand i v).cap, tag := (s.writeOperand i v).tag
      val := (s.writeOperand i v).val, width := (s.writeOperand i v).width, height := (s.writeOperand i v).height
      depth := (s.writeOperand i v).depth, level := (s.writeOperand i v).level } := by
  unfold State.writeOperand
  split <;> rfl

/-- The cases of `HostWrite` in the rule's order (R172). -/
theorem State.hostWrite_cases (s : State) (i : Nat) (v : DWord) :
    (i = 1 ∧ s.hostWrite i v = { s with ovr := if v.getLsbD 2 then false else s.ovr }) ∨
    (i ≠ 1 ∧ s.phase ≠ .idle ∧ s.hostWrite i v = { s with ovr := true }) ∨
    (i = 0 ∧ s.phase = .idle ∧ s.hostWrite i v = s.issue (v.setWidth 32)) ∨
    (2 ≤ i ∧ s.phase = .idle ∧ s.hostWrite i v = s.writeOperand i v) := by
  unfold State.hostWrite
  split
  case isTrue h1 => exact .inl ⟨h1, by split <;> rfl⟩
  case isFalse h1 =>
  split
  case isTrue hp => exact .inr (.inl ⟨h1, hp, rfl⟩)
  case isFalse hp =>
  split
  case isTrue h0 => exact .inr (.inr (.inl ⟨h0, not_not.1 hp, rfl⟩))
  case isFalse h0 => exact .inr (.inr (.inr ⟨by omega, not_not.1 hp, rfl⟩))

/-- The host does not write the table (R22). -/
theorem State.hostWrite_table (s : State) (i : Nat) (v : DWord) :
    (s.hostWrite i v).tvalid = s.tvalid ∧ (s.hostWrite i v).table = s.table := by
  rcases s.hostWrite_cases i v with ⟨-, h⟩ | ⟨-, -, h⟩ | ⟨-, -, h⟩ | ⟨-, -, h⟩ <;> rw [h]
  · exact ⟨rfl, rfl⟩
  · exact ⟨rfl, rfl⟩
  · exact ⟨rfl, rfl⟩
  · rw [s.writeOperand_frame]
    exact ⟨rfl, rfl⟩

/-- A host write clears `OVR` only at `STATUS` with bit 2 set (R19). -/
theorem State.hostWrite_clears_ovr {i : Nat} {v : DWord} (hs : s.ovr = true) (h : (s.hostWrite i v).ovr = false) :
    i = 1 ∧ v.getLsbD 2 = true := by
  rcases s.hostWrite_cases i v with ⟨hi, hw⟩ | ⟨-, -, hw⟩ | ⟨-, -, hw⟩ | ⟨-, -, hw⟩ <;> rw [hw] at h
  · exact ⟨hi, by simpa [hs] using h⟩
  · cases h
  · exact absurd (hs.symm.trans h) (by decide)
  · rw [s.writeOperand_frame] at h
    exact absurd (hs.symm.trans h) (by decide)

/-! ## Moves -/

/-- The inversion of `moveStep`: a move is the engine's, the reset event, a host write, or it changes nothing but memory,
the collaborator's answer with the phase, and the records of the outside agents. -/
theorem moveStep_cases {mv : Move} (h : moveStep mv s = .next t) :
    EngineAnswers s t ∨ (∃ left, mv = .reset left) ∨ (∃ i v, mv = .hostWrite i v ∧ t = s.hostWrite i v) ∨
    t = { s with
      mem := t.mem, crsp := t.crsp, phase := t.phase, hostIn := t.hostIn, lent := t.lent, stray := t.stray } := by
  cases mv with
  | engine => exact .inl (engineStep_answers h)
  | reset left => exact .inr (.inl ⟨left, rfl⟩)
  | hostWrite i v => exact .inr (.inr (.inl ⟨i, v, rfl, (Host.Outcome.next.inj h).symm⟩))
  | hostRead i => cases h; exact .inr (.inr (.inr rfl))
  | hostStore a b =>
    obtain ⟨-, rfl⟩ := hostMayTouch_cases h
    exact .inr (.inr (.inr rfl))
  | hostLoad a =>
    obtain ⟨-, rfl⟩ := hostMayTouch_cases h
    exact .inr (.inr (.inr rfl))
  | collaborator ws r =>
    cases h
    rcases collaboratorStep_cases ws r s with hc | ⟨q, -, -, hc⟩ <;> rw [hc] <;> exact .inr (.inr (.inr rfl))
  | strayWrites ws => cases h; exact .inr (.inr (.inr rfl))
  | quiet => cases h; exact .inr (.inr (.inr rfl))

/-- `OVR` is sticky but for the two ways R19 gives to clear it. -/
theorem moveStep_clears_ovr {mv : Move} (h : moveStep mv s = .next t) (hs : s.ovr = true) (ht : t.ovr = false) :
    (∃ v, mv = .hostWrite 1 v ∧ v.getLsbD 2 = true) ∨ ∃ left, mv = .reset left := by
  rcases moveStep_cases h with ha | hr | ⟨i, v, rfl, rfl⟩ | hf
  · exact absurd (ha.ovr.symm.trans ht) (by simp [hs])
  · exact .inr hr
  · obtain ⟨rfl, hv⟩ := State.hostWrite_clears_ovr hs ht
    exact .inl ⟨v, rfl, hv⟩
  · rw [hf] at ht
    exact absurd (hs.symm.trans ht) (by decide)

/-- A valid table is the engine's until a reset (R22, R101). -/
theorem moveStep_validTable {mv : Move} (h : moveStep mv s = .next t) (hv : s.tvalid = true) :
    (t.tvalid = true ∧ t.table = s.table) ∨ ∃ left, mv = .reset left := by
  rcases moveStep_cases h with ha | hr | ⟨i, v, -, rfl⟩ | hf
  · exact .inl (ha.validTable hv)
  · exact .inr hr
  · obtain ⟨hw, ht⟩ := s.hostWrite_table i v
    exact .inl ⟨hw.trans hv, ht⟩
  · rw [hf]
    exact .inl ⟨hv, rfl⟩

end Sys2Proof.Machine

section
open Sys2Proof Sys2Proof.Machine

/-- Settles O17: the engine never writes `OVR`, and of the other agents' moves only R19's two clear it. -/
theorem ovrIsSticky : Obligations.OvrIsSticky := by
  unfold Obligations.OvrIsSticky
  intro s t h hs ht
  rcases step_cases h with ⟨-, he⟩ | ⟨mv, rest, ha, hm⟩
  · exact absurd ((engineStep_answers he).ovr.symm.trans ht) (by simp [hs])
  · rcases moveStep_clears_ovr hm hs ht with ⟨v, rfl, hv⟩ | ⟨left, rfl⟩
    · exact .inl ⟨v, rest, ha, hv⟩
    · exact .inr ⟨left, rest, ha⟩

/-- Settles O30: building a valid table changes nothing, and no agent but the reset event writes it. -/
theorem validTableStays : Obligations.ValidTableStays := by
  unfold Obligations.ValidTableStays
  intro s t h hv
  rcases step_cases h with ⟨-, he⟩ | ⟨mv, rest, ha, hm⟩
  · exact .inl ((engineStep_answers he).validTable hv)
  · exact (moveStep_validTable hm hv).imp id fun ⟨left, hl⟩ => ⟨left, rest, hl ▸ ha⟩

end

/-! PROOFS. The host's view: `STATUS` as a number (R19), and what reset leaves (R27). -/

namespace Sys2Proof.Machine

/-- Bits put in front of a bit vector count from its width on. -/
theorem toNat_append_eq_add {m n : Nat} (x : BitVec m) (y : BitVec n) :
    (x ++ y).toNat = x.toNat * 2 ^ n + y.toNat := by
  rw [BitVec.toNat_append, ← Nat.shiftLeft_add_eq_or_of_lt y.isLt, Nat.shiftLeft_eq]

/-- `STATUS` as the sum of its six fields (R19). -/
theorem State.statusWord_toNat (s : State) : s.statusWord.toNat =
    (if s.phase = .idle then 0 else 1) + (if s.done then 2 else 0) + (if s.ovr then 4 else 0) +
      (if s.tvalid then 8 else 0) + 16 * s.err.bits.toNat + 256 * s.kind.bits.toNat := by
  have busy : s.isBusy.toNat = if s.phase = .idle then 0 else 1 := by
    cases hp : s.phase <;> simp [State.isBusy, hp]
  have bit : ∀ (b : Bool) (n : Nat), (if b then n else 0) = b.toNat * n := fun b n => by cases b <;> simp
  simp only [State.statusWord, toNat_append_eq_add, BitVec.toNat_ofBool, busy, bit]
  simp only [BitVec.toNat_ofNat]
  omega

theorem State.readReg_one_toNat (s : State) : (s.readReg 1).toNat = s.statusWord.toNat :=
  BitVec.toNat_setWidth_of_le (by decide)

/-- What a register reads right after reset (R27). -/
theorem State.reset_readReg (i : Nat) : State.reset.readReg i = if i = 2 then 1#64 else 0#64 := by
  by_cases hi : i ≤ 16
  · interval_cases i <;> decide
  · unfold State.readReg
    split <;> simp_all

/-- An agent confined to no window at all writes nothing. -/
theorem Memory.writeWithin_nil (m : Memory) (bs : List (DWord × Byte)) : m.writeWithin [] bs = m := by
  induction bs with
  | nil => rfl
  | cons c bs ih => simpa [Memory.writeWithin, inWindows] using ih

/-- A reset of an idle engine does not change buffer memory (R27, R211). -/
theorem resetStep_mem_of_idle {s : State} (left : List (DWord × Byte)) (hp : s.phase = .idle) :
    (resetStep left s).mem = s.mem := by
  have hw : s.openWrites = [] := by simp [State.openWrites, hp]
  simp only [resetStep, hw, Memory.writeWithin_nil]

end Sys2Proof.Machine

section
open Sys2Proof Sys2Proof.Machine

/-- Settles O13: `STATUS` is the sum of its fields, and each code and class has the number the rule gives it. -/
theorem statusComposition : Obligations.StatusComposition := by
  unfold Obligations.StatusComposition
  intro s
  rw [s.readReg_one_toNat, s.statusWord_toNat]
  congr 1
  · congr 2
    cases s.err <;> rfl
  · congr 1
    cases s.kind <;> rfl

/-- Settles O11: the registers one by one, and a reset in `IDLE` interrupts no step whose windows it could leave open. -/
theorem resetValues : Obligations.ResetValues := by
  unfold Obligations.ResetValues
  refine ⟨State.reset_readReg, rfl, rfl, rfl, rfl, rfl, fun s left rest ha hp => ⟨_, by rw [step, ha]; rfl, ?_⟩⟩
  exact resetStep_mem_of_idle left hp

end

/-! PROOFS. The invariant of the machine (R18, R22 to R24, R96, R190): what keeps each part, agent by agent. -/

namespace Sys2Proof.Machine

variable {s u t : State}

/-! ## The engine -/

/-- Every end of a command meets the invariant, whatever the command did before it: the port is empty, and `ERR` stands
beside the sentinel (R176, R190). -/
theorem State.Ends.inv (h : u.Ends t) (hm : u.mem.wf) (ht : u.tableOk) : t.Inv := by
  cases h with
  | complete r =>
    exact {
      mem := hm, table := ht, port := ⟨rfl, rfl⟩, busy := fun h => absurd rfl h, request := fun _ hq => nomatch hq
      sentinel := fun h => absurd rfl h }
  | raise e =>
    exact {
      mem := hm, table := ht, port := ⟨rfl, rfl⟩, busy := fun h => absurd rfl h, request := fun _ hq => nomatch hq
      sentinel := fun _ => ⟨rfl, rfl⟩ }

/-- The step that sends a request keeps the invariant (R139, R158). -/
theorem State.Inv.request_sent (hs : s.Inv) (hp : s.phase = .busy) (hu : s.Prepares u) (hm : u.mem.wf) {q : CReq}
    (hq : (u.request q).requestOk) : (u.request q).Inv := by
  have hport : s.creq = none ∧ s.crsp = none := by simpa [State.portOk, hp] using hs.port
  obtain ⟨hcmd, hdone, herr⟩ := hs.busy (by simp [hp])
  refine { mem := hm, table := hu.tableOk hs.table, port := ⟨rfl, ?_⟩, busy := fun _ => ?_, request := hq,
           sentinel := fun he => absurd ?_ he }
  · rw [hu.frame]; exact hport.2
  · rw [hu.frame]; exact ⟨hcmd, hdone, herr⟩
  · rw [hu.frame]; exact herr

theorem EngineAnswers.inv (h : EngineAnswers s t) (hs : s.Inv) : t.Inv := by
  cases h with
  | nothing => exact hs
  | ends hu hm ht => exact ht.inv (hm hs) (hu.tableOk hs.table)
  | requests hp hu hm hq => exact hs.request_sent hp hu (hm hs) hq

/-! ## The outside agents -/

namespace State.Inv

/-- The invariant does not speak of `OVR`, nor of the MODEL's own fields. -/
theorem outside (hs : s.Inv) {ovr : Bool} {sig : Signature} {agenda : List Move} {hostIn : DWord}
    {lent stray : List Window} :
    { s with ovr := ovr, sig := sig, agenda := agenda, hostIn := hostIn, lent := lent, stray := stray }.Inv :=
  ⟨hs.mem, hs.table, hs.port, hs.busy, hs.request, hs.sentinel⟩

/-- Of memory it asks for the canonical form only. -/
theorem withMem (hs : s.Inv) {m : Memory} (hm : m.wf) : { s with mem := m }.Inv :=
  ⟨hm, hs.table, hs.port, hs.busy, hs.request, hs.sentinel⟩

theorem port_of_idle (hs : s.Inv) (hp : s.phase = .idle) : s.creq = none ∧ s.crsp = none := by
  simpa [State.portOk, hp] using hs.port

/-- While no command is in progress no request depends on the operand registers (R23). -/
theorem writeOperand (hs : s.Inv) (hp : s.phase = .idle) (i : Nat) (v : DWord) : (s.writeOperand i v).Inv := by
  rw [s.writeOperand_frame]
  exact {
    mem := hs.mem, table := hs.table, port := hs.port, busy := hs.busy, sentinel := hs.sentinel
    request := fun q hq => nomatch (hs.port_of_idle hp).1.symm.trans hq }

/-- The issue latches `OP` with `CMD` and clears `DONE` and `ERR` (R173). -/
theorem issue (hs : s.Inv) (hp : s.phase = .idle) (w : Word) : (s.issue w).Inv where
  mem := hs.mem
  table := hs.table
  port := hs.port_of_idle hp
  busy := fun _ => ⟨rfl, rfl, rfl⟩
  request := fun _ hq => nomatch (hs.port_of_idle hp).1.symm.trans hq
  sentinel := fun h => absurd rfl h

theorem hostWrite (hs : s.Inv) (i : Nat) (v : DWord) : (s.hostWrite i v).Inv := by
  rcases s.hostWrite_cases i v with ⟨-, h⟩ | ⟨-, -, h⟩ | ⟨-, hp, h⟩ | ⟨-, hp, h⟩ <;> rw [h]
  · exact hs.outside
  · exact hs.outside
  · exact hs.issue hp _
  · exact hs.writeOperand hp i v

/-- The collaborator answers the request that is out (R177), and the request stays as it is. -/
theorem collaboratorStep (hs : s.Inv) (ws : List (DWord × Byte)) (r : CRsp) : (collaboratorStep ws r s).Inv := by
  rcases collaboratorStep_cases ws r s with h | ⟨q, hp, hq, h⟩ <;> rw [h]
  · exact hs
  · exact {
      mem := Memory.wf_writeWithin hs.mem _ ws, table := hs.table
      port := ⟨by rw [hq]; rfl, rfl⟩, busy := fun _ => hs.busy (by simp [hp])
      request := hs.request, sentinel := hs.sentinel }

end State.Inv

/-- The invariant right after reset (R27). -/
theorem State.reset_inv : State.reset.Inv where
  mem := Memory.wf_reset
  table := ⟨List.length_replicate, fun h => nomatch h⟩
  port := ⟨rfl, rfl⟩
  busy := fun h => absurd rfl h
  request := fun _ hq => nomatch hq
  sentinel := fun h => absurd rfl h

theorem State.Inv.resetStep (hs : s.Inv) (left : List (DWord × Byte)) : (resetStep left s).Inv :=
  (State.reset_inv.withMem (Memory.wf_writeWithin hs.mem s.openWrites left)).outside

/-! ## Moves -/

/-- Every move of every agent keeps the invariant. -/
theorem State.Inv.moveStep (hs : s.Inv) {mv : Move} (h : moveStep mv s = .next t) : t.Inv := by
  cases mv with
  | engine => exact (engineStep_answers h).inv hs
  | hostWrite i v => cases h; exact hs.hostWrite i v
  | hostRead i => cases h; exact hs.outside
  | hostStore a b =>
    obtain ⟨-, rfl⟩ := hostMayTouch_cases h
    exact hs.withMem (Memory.wf_write hs.mem a.isLt b)
  | hostLoad a =>
    obtain ⟨-, rfl⟩ := hostMayTouch_cases h
    exact hs.outside
  | collaborator ws r => cases h; exact hs.collaboratorStep ws r
  | reset left => cases h; exact hs.resetStep left
  | strayWrites ws => cases h; exact hs.withMem (Memory.wf_writeWithin hs.mem _ ws)
  | quiet => cases h; exact hs.outside

end Sys2Proof.Machine

section
open Sys2Proof Sys2Proof.Machine

/-- Settles O60: the engine's step by its inversion lemma, every other move by its own lemma above. -/
theorem stepKeepsInvariant : Obligations.StepKeepsInvariant := by
  unfold Obligations.StepKeepsInvariant
  intro s t hs h
  rcases step_cases h with ⟨-, he⟩ | ⟨mv, rest, -, hm⟩
  · exact (engineStep_answers he).inv hs
  · exact hs.outside.moveStep hm

/-- Settles O59: each part of the invariant at the reset values. -/
theorem invariantHoldsAtReset : Obligations.InvariantHoldsAtReset := by
  unfold Obligations.InvariantHoldsAtReset
  exact State.reset_inv

end

/-! PROOFS. Every step answers a next state but a host access to a handed-over byte (R49, R190, U8). -/

namespace Sys2Proof.Machine

variable {s : State}

/-! ## The commands: every check that fails ends the command (R190) -/

/-- A check answers a next state when both its sides do. -/
theorem check_next {p : Prop} [Decidable p] {a b : Result} (ha : ∃ t, a = .next t) (hb : ∃ t, b = .next t) :
    ∃ t, (if p then a else b) = .next t := by
  split
  · exact ha
  · exact hb

theorem execCrc32_next (s : State) : ∃ t, execCrc32 s = .next t := check_next ⟨_, rfl⟩ ⟨_, rfl⟩

theorem execPut32_next (s : State) : ∃ t, execPut32 s = .next t := check_next ⟨_, rfl⟩ ⟨_, rfl⟩

theorem execGet32_next (s : State) : ∃ t, execGet32 s = .next t := check_next ⟨_, rfl⟩ ⟨_, rfl⟩

theorem execWrchunk_next (s : State) : ∃ t, execWrchunk s = .next t :=
  check_next (check_next (check_next ⟨_, rfl⟩ (check_next ⟨_, rfl⟩ ⟨_, rfl⟩)) ⟨_, rfl⟩) ⟨_, rfl⟩

theorem rdchunkWith_next (wt wd : Bool) (s : State) : ∃ t, rdchunkWith wt wd s = .next t :=
  check_next (check_next (check_next (check_next (check_next ⟨_, rfl⟩ ⟨_, rfl⟩) ⟨_, rfl⟩) ⟨_, rfl⟩) ⟨_, rfl⟩) ⟨_, rfl⟩

theorem execCkchunk_next (s : State) : ∃ t, execCkchunk s = .next t :=
  check_next (check_next (check_next (check_next ⟨_, rfl⟩ ⟨_, rfl⟩) ⟨_, rfl⟩) ⟨_, rfl⟩) ⟨_, rfl⟩

theorem execEncode_next (s : State) : ∃ t, execEncode s = .next t :=
  check_next (check_next (check_next ⟨_, rfl⟩ ⟨_, rfl⟩) ⟨_, rfl⟩) ⟨_, rfl⟩

theorem execInflate_next (s : State) : ∃ t, execInflate s = .next t :=
  check_next (check_next ⟨_, rfl⟩ ⟨_, rfl⟩) ⟨_, rfl⟩

theorem parseVerified_next (n : Nat) (s : State) : ∃ t, parseVerified n s = .next t :=
  check_next (check_next (check_next (check_next (check_next ⟨_, rfl⟩ ⟨_, rfl⟩) ⟨_, rfl⟩) ⟨_, rfl⟩) ⟨_, rfl⟩) ⟨_, rfl⟩

theorem parsePayload_next (s : State) : ∃ t, parsePayload s = .next t :=
  check_next (check_next (check_next (check_next (parseVerified_next _ s) ⟨_, rfl⟩) ⟨_, rfl⟩) ⟨_, rfl⟩) ⟨_, rfl⟩

theorem parseHeader_next (s : State) : ∃ t, parseHeader s = .next t :=
  check_next (check_next (check_next
    (check_next (check_next (parsePayload_next s.buildTable) ⟨_, rfl⟩) (parsePayload_next s)) ⟨_, rfl⟩) ⟨_, rfl⟩) ⟨_, rfl⟩

theorem execParse_next (s : State) : ∃ t, execParse s = .next t :=
  check_next (check_next (check_next (parseHeader_next s) ⟨_, rfl⟩) ⟨_, rfl⟩) ⟨_, rfl⟩

/-- No instruction faults, and none is refused (R46, R190). -/
theorem exec_next (i : Instr) (s : State) : ∃ t, exec i s = .next t := by
  cases i with
  | nop => exact ⟨_, rfl⟩
  | tblinit => exact ⟨_, rfl⟩
  | crc32 => exact execCrc32_next s
  | put32 => exact execPut32_next s
  | get32 => exact execGet32_next s
  | wrchunk => exact execWrchunk_next s
  | rdchunk => exact rdchunkWith_next false false s
  | rdchunkT => exact rdchunkWith_next true false s
  | rdchunkD => exact rdchunkWith_next false true s
  | rdchunkTD => exact rdchunkWith_next true true s
  | ckchunk => exact execCkchunk_next s
  | encode => exact execEncode_next s
  | parse => exact execParse_next s
  | inflate => exact execInflate_next s
  | tagIhdr => exact ⟨_, rfl⟩
  | tagIdat => exact ⟨_, rfl⟩
  | tagIend => exact ⟨_, rfl⟩

/-! ## The engine and the moves -/

theorem resumeEncode_next (q : CReq) (r : CRsp) (s : State) : ∃ t, resumeEncode q r s = .next t := by
  cases r with
  | error => exact ⟨_, rfl⟩
  | ok k => exact check_next (check_next ⟨_, rfl⟩ ⟨_, rfl⟩) ⟨_, rfl⟩

theorem resumeInflate_next (r : CRsp) (s : State) : ∃ t, resumeInflate r s = .next t := by
  cases r with
  | error => exact ⟨_, rfl⟩
  | ok k => exact check_next (check_next ⟨_, rfl⟩ ⟨_, rfl⟩) ⟨_, rfl⟩

theorem executionStep_next (s : State) : ∃ t, executionStep s = .next t := by
  unfold executionStep
  split
  · exact exec_next _ s
  · exact ⟨_, rfl⟩

theorem resumeStep_next (s : State) : ∃ t, resumeStep s = .next t := by
  unfold resumeStep
  split
  · exact resumeEncode_next _ _ s
  · exact resumeInflate_next _ s
  · exact ⟨_, rfl⟩

theorem engineStep_next (s : State) : ∃ t, engineStep s = .next t := by
  unfold engineStep
  split
  case h_1 => exact ⟨_, rfl⟩
  case h_2 => exact executionStep_next s
  case h_3 => exact ⟨_, rfl⟩
  case h_4 => exact resumeStep_next s

/-- The only moves that may fault are the host's accesses to memory (R49, U8). -/
theorem moveStep_next {mv : Move} (s : State) (hstore : ∀ a b, mv ≠ .hostStore a b) (hload : ∀ a, mv ≠ .hostLoad a) :
    ∃ t, moveStep mv s = .next t := by
  cases mv with
  | engine => exact engineStep_next s
  | hostStore a b => exact absurd rfl (hstore a b)
  | hostLoad a => exact absurd rfl (hload a)
  | hostWrite i v => exact ⟨_, rfl⟩
  | hostRead i => exact ⟨_, rfl⟩
  | collaborator ws r => exact ⟨_, rfl⟩
  | reset left => exact ⟨_, rfl⟩
  | strayWrites ws => exact ⟨_, rfl⟩
  | quiet => exact ⟨_, rfl⟩

/-- With an empty agenda the step is the engine's (log entry 1). -/
theorem step_of_nil (ha : s.agenda = []) : step s = engineStep s := by
  rw [step, ha]

/-- The first move of the agenda is the one that is made (log entry 1). -/
theorem step_of_cons {mv : Move} {rest : List Move} (ha : s.agenda = mv :: rest) :
    step s = moveStep mv { s with agenda := rest } := by
  rw [step, ha]

theorem hostMayTouch_of_lent {a : Nat} (go : State) (h : inWindows s.lent a) :
    s.hostMayTouch a go = .fault .ownedWindow := if_pos h

theorem hostMayTouch_of_not_lent {a : Nat} (go : State) (h : ¬ inWindows s.lent a) :
    s.hostMayTouch a go = .next go := if_neg h

end Sys2Proof.Machine

section
open Sys2Proof Sys2Proof.Machine

/-- Settles O19: the ownership check decides the two host accesses, and no other step has a way to fault. -/
theorem hostRacesFault : Obligations.HostRacesFault := by
  unfold Obligations.HostRacesFault
  refine ⟨fun s a b rest ha => ?_, fun s a rest ha => ?_, fun s mv rest ha hstore hload => ?_, fun s ha => ?_⟩
  · rw [step_of_cons ha]
    exact ⟨hostMayTouch_of_lent _, fun h => ⟨_, hostMayTouch_of_not_lent _ h, rfl, s.mem.read_write a.toNat b⟩⟩
  · rw [step_of_cons ha]
    exact ⟨hostMayTouch_of_lent _, hostMayTouch_of_not_lent _⟩
  · rw [step_of_cons ha]
    exact moveStep_next _ hstore hload
  · rw [step_of_nil ha]
    exact engineStep_next s

end

/-! PROOFS. An agent confined to windows may still leave any bytes there (R50, R211, U1, U7). -/

namespace Sys2Proof.Machine

/-- The listed byte writes that put the sequence `bytes` at `a`, in ascending order. -/
def listedWrites (a : Nat) : List Byte → List (DWord × Byte)
  | [] => []
  | b :: bytes => (BitVec.ofNat 64 a, b) :: listedWrites (a + 1) bytes

/-- Listed inside one of its windows, a byte sequence is written as `MemWrite` writes it (R42, R50). -/
theorem Memory.writeWithin_listedWrites {ws : List Window} {w : Window} (hw : w ∈ ws) (hfit : w.base + w.size ≤ 2 ^ 64)
    (m : Memory) {a : Nat} {bytes : List Byte} (hlo : w.base ≤ a) (hhi : a + bytes.length ≤ w.base + w.size) :
    m.writeWithin ws (listedWrites a bytes) = m.writeBytes a bytes := by
  induction bytes generalizing m a with
  | nil => rfl
  | cons b bytes ih =>
    simp only [List.length_cons] at hhi
    have hn : (BitVec.ofNat 64 a).toNat = a := Nat.mod_eq_of_lt (by omega)
    have hin : inWindows ws a := ⟨w, hw, hlo, by omega⟩
    simp only [listedWrites, Memory.writeWithin, Memory.writeBytes, hn, if_pos hin]
    exact ih _ (by omega) (by omega)

/-- An agent confined to windows may leave any bytes in each of them (R50, U1). -/
theorem Memory.readBytes_writeWithin_listedWrites {ws : List Window} {w : Window} (hw : w ∈ ws)
    (hfit : w.base + w.size ≤ 2 ^ 64) (m : Memory) {bytes : List Byte} (hlen : bytes.length = w.size) :
    (m.writeWithin ws (listedWrites w.base bytes)).readBytes w.base w.size = bytes := by
  rw [Memory.writeWithin_listedWrites hw hfit m le_rfl (by omega), ← hlen, Memory.readBytes_writeBytes]

/-- The collaborator's step where it has one (R177). -/
theorem collaboratorStep_of_waitc {s : State} {q : CReq} (hp : s.phase = .waitc) (hq : s.creq = some q)
    (ws : List (DWord × Byte)) (r : CRsp) :
    collaboratorStep ws r s =
      { s with mem := s.mem.writeWithin [q.outWindow] ws, crsp := some r, phase := .resume } := by
  simp only [collaboratorStep, hp, hq]

end Sys2Proof.Machine

section
open Sys2Proof Sys2Proof.Machine

/-- Settles O21: the move that lists the bytes, one by one, over the window. -/
theorem collaboratorMayWriteAnything : Obligations.CollaboratorMayWriteAnything := by
  unfold Obligations.CollaboratorMayWriteAnything
  refine ⟨fun s q bytes r hp hq hlen hfit => ?_, fun s w bytes hw hlen hfit => ?_⟩
  · have answered := collaboratorStep_of_waitc (s := { s with agenda := [] }) hp hq (listedWrites q.outWindow.base bytes) r
    exact ⟨_, _, congrArg Host.Outcome.next answered, rfl,
      Memory.readBytes_writeWithin_listedWrites (w := q.outWindow) (List.mem_singleton_self _) hfit s.mem hlen⟩
  · exact ⟨listedWrites w.base bytes, _, rfl, Memory.readBytes_writeWithin_listedWrites hw hfit _ hlen⟩

end

/-! PROOFS. The footprints of R48: two runs of an execution step over two memories that agree on the bytes it may read, and
the bytes it may write. -/

namespace Sys2Proof.Machine

/-! ## Memories that agree -/

/-- The two memories hold the same bytes in the windows. -/
abbrev Memory.AgreesOn (m m' : Memory) (ws : List Window) : Prop := ∀ a, inWindows ws a → m.read a = m'.read a

section
variable {m m' : Memory} {ws : List Window}

theorem Memory.AgreesOn.read (h : m.AgreesOn m' ws) {w : Window} (hw : w ∈ ws) {a : Nat} (hlo : w.base ≤ a)
    (hhi : a < w.base + w.size) : m.read a = m'.read a := h a ⟨w, hw, hlo, hhi⟩

theorem Memory.AgreesOn.readBytes (h : m.AgreesOn m' ws) {w : Window} (hw : w ∈ ws) {a n : Nat} (hlo : w.base ≤ a)
    (hhi : a + n ≤ w.base + w.size) : m.readBytes a n = m'.readBytes a n :=
  Memory.readBytes_congr fun _ h1 h2 => h.read hw (by omega) (by omega)

theorem Memory.AgreesOn.get32 (h : m.AgreesOn m' ws) {w : Window} (hw : w ∈ ws) {a : Nat} (hlo : w.base ≤ a)
    (hhi : a + 4 ≤ w.base + w.size) : m.get32 a = m'.get32 a := congrArg be32Des (h.readBytes hw hlo hhi)

/-! The same writes over two memories: equal bytes where bytes were written, and where the memories agreed before. -/

theorem Memory.read_write_congr (a : Nat) (b : Byte) {k : Nat} (h : k ≠ a → m.read k = m'.read k) :
    (m.write a b).read k = (m'.write a b).read k := by
  rw [Memory.read_write, Memory.read_write]
  split
  · rfl
  · exact h ‹_›

theorem Memory.read_writeBytes_congr (a : Nat) (bs : List Byte) {k : Nat}
    (h : ¬ (a ≤ k ∧ k < a + bs.length) → m.read k = m'.read k) :
    (m.writeBytes a bs).read k = (m'.writeBytes a bs).read k := by
  rw [Memory.read_writeBytes, Memory.read_writeBytes]
  split
  · rfl
  · exact h ‹_›

theorem Memory.read_copyUp_congr {src dst n : Nat} (hsrc : ∀ j, src ≤ j → j < src + n → m.read j = m'.read j) {k : Nat}
    (h : ¬ (dst ≤ k ∧ k < dst + n) → m.read k = m'.read k) :
    (m.copyUp src dst n).read k = (m'.copyUp src dst n).read k := by
  induction n generalizing m m' src dst with
  | zero => exact h (by omega)
  | succ n ih =>
    have hb : m.read src = m'.read src := hsrc src (by omega) (by omega)
    simp only [Memory.copyUp, hb]
    exact ih (fun j h1 h2 => Memory.read_write_congr _ _ fun _ => hsrc j (by omega) (by omega))
      (fun hk => Memory.read_write_congr _ _ fun hne => h (by omega))

/-- A chunk's length and tag fields (R118). -/
theorem Memory.read_chunkHead_congr (dst : Nat) (v t : Word) {k : Nat}
    (h : ¬ (dst ≤ k ∧ k < dst + 8) → m.read k = m'.read k) :
    ((m.put32 dst v).put32 (dst + 4) t).read k = ((m'.put32 dst v).put32 (dst + 4) t).read k :=
  Memory.read_writeBytes_congr _ _ fun h1 => Memory.read_writeBytes_congr _ _ fun h2 =>
    h (by simp only [be32Ser_length] at h1 h2; omega)

/-- The checksum field follows from the tag and data fields (R118). -/
theorem Memory.read_sealChunk_congr (table : List Word) {dst n : Nat}
    (h : ∀ j, dst ≤ j → j < dst + 8 + n → m.read j = m'.read j) {k : Nat} (hlo : dst ≤ k) (hhi : k < dst + n + 12) :
    (m.sealChunk table dst n).read k = (m'.sealChunk table dst n).read k := by
  have fields : m.readBytes (dst + 4) (n + 4) = m'.readBytes (dst + 4) (n + 4) :=
    Memory.readBytes_congr fun j h1 h2 => h j (by omega) (by omega)
  unfold Memory.sealChunk
  rw [fields]
  exact Memory.read_writeBytes_congr _ _ fun hk => h k hlo (by simp only [be32Ser_length] at hk; omega)

/-- The in-place form depends on the data that stands in place (R119). -/
theorem Memory.read_frameInPlace_congr (table : List Word) {dst n : Nat} (t : Word)
    (hdata : ∀ j, dst + 8 ≤ j → j < dst + 8 + n → m.read j = m'.read j) {k : Nat} (hlo : dst ≤ k)
    (hhi : k < dst + n + 12) : (m.frameInPlace table dst n t).read k = (m'.frameInPlace table dst n t).read k :=
  Memory.read_sealChunk_congr table
    (fun j _ _ => Memory.read_chunkHead_congr _ _ _ fun hj => hdata j (by omega) (by omega)) hlo hhi

/-- The copying form depends on the data at its source (R118). -/
theorem Memory.read_frameCopy_congr (table : List Word) {dst n : Nat} (t : Word) {src : Nat}
    (hsrc : ∀ j, src ≤ j → j < src + n → m.read j = m'.read j) {k : Nat} (hlo : dst ≤ k) (hhi : k < dst + n + 12) :
    (m.frameCopy table dst n t src).read k = (m'.frameCopy table dst n t src).read k :=
  Memory.read_sealChunk_congr table
    (fun _ _ _ => Memory.read_copyUp_congr
      (fun i h1 h2 => Memory.read_chunkHead_congr _ _ _ fun _ => hsrc i h1 h2)
      (fun hj => Memory.read_chunkHead_congr _ _ _ fun hp => absurd hp (by omega))) hlo hhi

end

/-! ## What a command writes -/

/-- The memory that the execution step of a command leaves when it gets as far as its writes (R108, R118, R121, R137, R138);
`exec_runsAlike` and `exec_mem` tie it to `exec`. -/
def execMem (i : Instr) (s : State) : Memory :=
  match i with
  | .put32 => s.mem.put32 s.dstAddr s.val
  | .wrchunk =>
    if s.writesInPlace then s.mem.frameInPlace s.buildTable.table s.dstAddr s.srcLen s.tag
    else s.mem.frameCopy s.buildTable.table s.dstAddr s.srcLen s.tag s.srcAddr
  | .rdchunkD | .rdchunkTD =>
    if s.announced ≤ s.dstCap then s.mem.copyUp (s.srcAddr + 8) s.dstAddr s.announced else s.mem
  | .encode => s.encodedHeader s.sig
  | .nop | .tblinit | .crc32 | .get32 | .rdchunk | .rdchunkT | .ckchunk | .parse | .inflate
  | .tagIhdr | .tagIdat | .tagIend => s.mem

theorem not_inWindows_singleton {w : Window} {a : Nat} (h : ¬ inWindows [w] a) : a < w.base ∨ w.base + w.size ≤ a := by
  by_contra hc
  exact h ⟨w, List.mem_singleton_self w, by omega⟩

theorem inWindows_singleton {w : Window} {a : Nat} : inWindows [w] a ↔ w.holds a := by
  simp [inWindows]

/-- What `RDCHUNK` with `WD = 1` copies stays in its destination (R121). -/
theorem rdchunk_copy_read_out {s : State} {a : Nat} (h : ¬ inWindows s.copyTarget a) :
    (execMem .rdchunkD s).read a = s.mem.read a := by
  by_cases hcap : s.announced ≤ s.dstCap
  · simp only [State.copyTarget, if_pos hcap] at h
    simp only [execMem, if_pos hcap]
    exact Memory.read_copyUp_out _ _ _ _ (not_inWindows_singleton h)
  · simp only [execMem, if_neg hcap]

/-- No write of a command leaves its row of R48. -/
theorem execMem_read_out {i : Instr} {s : State} {a : Nat} (h : ¬ inWindows (execWrites i s) a) :
    (execMem i s).read a = s.mem.read a := by
  cases i with
  | put32 => exact Memory.read_put32_out _ _ _ (not_inWindows_singleton h)
  | wrchunk =>
    have ha := not_inWindows_singleton h
    simp only at ha
    simp only [execMem]
    split
    · exact Memory.read_frameInPlace_out _ _ _ _ _ (by omega)
    · exact Memory.read_frameCopy_out _ _ _ _ _ _ (by omega)
  | rdchunkD => exact rdchunk_copy_read_out h
  | rdchunkTD => exact rdchunk_copy_read_out h
  | encode =>
    have ha := not_inWindows_singleton h
    simp only at ha
    simp only [execMem, State.encodedHeader]
    rw [Memory.read_writeBytes_out, Memory.read_writeBytes_out] <;>
      simp only [Vector.length_toList, chunkWith_length, hdr_length] <;> omega
  | nop | tblinit | crc32 | get32 | rdchunk | rdchunkT | ckchunk | parse | inflate | tagIhdr | tagIdat | tagIend => rfl

/-! ## Two runs -/

/-- The same answer over the memory `m`. -/
def Result.withMem (m : Memory) : Result → Result
  | .next t => .next { t with mem := m }
  | .fault r => .fault r
  | .refused r => .refused r

section
variable {i : Instr} {s t : State} {m : Memory}

@[simp] theorem State.buildTable_srcAddr (s : State) : s.buildTable.srcAddr = s.srcAddr := by
  rw [State.srcAddr, State.buildTable_src]
@[simp] theorem State.buildTable_srcLen (s : State) : s.buildTable.srcLen = s.srcLen := by
  rw [State.srcLen, State.buildTable_len]

theorem State.buildTable_withMem (s : State) (m : Memory) :
    { s with mem := m }.buildTable = { s.buildTable with mem := m } := by
  unfold State.buildTable
  split <;> rfl

/-- A test that does not read memory goes the same way over `m`. -/
theorem Result.withMem_ite (p : Prop) [Decidable p] (a b : Result) :
    (if p then a else b).withMem m = if p then a.withMem m else b.withMem m := apply_ite _ _ _ _

/-- The answers of a step in `s` and of the same step over the memory `m`: the same registers, and memory untouched in both,
or in both what `left` says. -/
inductive RunsAlike (left : State → Memory) (s : State) (m : Memory) : Result → Result → Prop where
  | untouched {t t' : State} (ht : t.mem = s.mem) (ht' : t' = { t with mem := m }) :
      RunsAlike left s m (.next t) (.next t')
  | written {t t' : State} (ht : t.mem = left s) (ht' : t' = { t with mem := left { s with mem := m } }) :
      RunsAlike left s m (.next t) (.next t')

namespace RunsAlike
variable {left : State → Memory}

/-- A check that comes out the same in both runs. -/
theorem check {p p' : Prop} [Decidable p] [Decidable p'] {a b a' b' : Result} (hp : p' ↔ p)
    (ha : p → RunsAlike left s m a a') (hb : ¬ p → RunsAlike left s m b b') :
    RunsAlike left s m (if p then a else b) (if p' then a' else b') := by
  by_cases h : p
  · rw [if_pos h, if_pos (hp.2 h)]
    exact ha h
  · rw [if_neg h, if_neg (mt hp.1 h)]
    exact hb h

/-- A failed check leaves memory as it was (R190). -/
theorem raise (e : ErrCode) : RunsAlike left s m (.next (s.raise e)) (.next ({ s with mem := m }.raise e)) :=
  .untouched rfl rfl

/-- A command that only reads: over any memory that agrees on its row it answers the same. -/
theorem of_withMem {run : State → Result} {ws : List Window} (ends : ∃ t, run s = .next t)
    (reads : ∀ m : Memory, m.AgreesOn s.mem ws → run { s with mem := m } = (run s).withMem m)
    (hm : m.AgreesOn s.mem ws) : RunsAlike left s m (run s) (run { s with mem := m }) := by
  obtain ⟨t, ht⟩ := ends
  have again : run s = (run s).withMem s.mem := reads s.mem fun _ _ => rfl
  rw [ht] at again
  have unchanged : t = { t with mem := s.mem } := Host.Outcome.next.inj again
  rw [reads m hm, ht]
  exact .untouched (by rw [unchanged]) rfl

end RunsAlike

theorem State.crc_withMem (s : State) (m : Memory) (bytes : List Byte) : { s with mem := m }.crc bytes = s.crc bytes := rfl

/-! ### The commands that only read -/

theorem execTblinit_withMem (s : State) (m : Memory) : execTblinit { s with mem := m } = (execTblinit s).withMem m := by
  simp only [execTblinit, State.buildTable_withMem]
  rfl

theorem execInflate_withMem (s : State) (m : Memory) : execInflate { s with mem := m } = (execInflate s).withMem m := by
  simp only [execInflate, Result.withMem_ite]
  rfl

theorem execCrc32_withMem (h : m.AgreesOn s.mem (engineReads .crc32 s)) :
    execCrc32 { s with mem := m } = (execCrc32 s).withMem m := by
  have bytes : m.readBytes s.srcAddr s.srcLen = s.mem.readBytes s.srcAddr s.srcLen :=
    h.readBytes (List.mem_singleton_self _) le_rfl le_rfl
  by_cases h0 : s.srcLen = 0
  · simp only [execCrc32, h0, if_true, Memory.readBytes, Result.withMem_ite]
    rfl
  · rw [← s.buildTable_srcAddr, ← s.buildTable_srcLen] at bytes
    simp only [execCrc32, h0, if_false, State.buildTable_withMem, State.crc_withMem, bytes, State.buildTable_mem,
      Result.withMem_ite]
    rfl

theorem execGet32_withMem (h : m.AgreesOn s.mem (engineReads .get32 s)) :
    execGet32 { s with mem := m } = (execGet32 s).withMem m := by
  have value : m.get32 s.srcAddr = s.mem.get32 s.srcAddr := h.get32 (List.mem_singleton_self _) le_rfl le_rfl
  simp only [execGet32, value, Result.withMem_ite]
  rfl

/-- The length and tag fields of the chunk at `SRC` are its first eight bytes (R116). -/
theorem State.chunkHead_withMem {ws : List Window} (h : m.AgreesOn s.mem ws) {n : Nat} (hw : ⟨s.srcAddr, n⟩ ∈ ws)
    (hn : 8 ≤ n) : { s with mem := m }.announced = s.announced ∧ { s with mem := m }.tagAtSrc = s.tagAtSrc := by
  have len : m.get32 s.srcAddr = s.mem.get32 s.srcAddr := h.get32 hw le_rfl (by simp only; omega)
  have tag : m.get32 (s.srcAddr + 4) = s.mem.get32 (s.srcAddr + 4) :=
    h.get32 hw (Nat.le_add_right _ _) (by simp only; omega)
  exact ⟨congrArg BitVec.toNat len, tag⟩

theorem rdchunkWith_withMem {wt : Bool} (h : m.AgreesOn s.mem [⟨s.srcAddr, 8⟩]) :
    rdchunkWith wt false { s with mem := m } = (rdchunkWith wt false s).withMem m := by
  obtain ⟨announced, tag⟩ := State.chunkHead_withMem h (List.mem_singleton_self _) le_rfl
  simp only [rdchunkWith, State.copiesData, Bool.false_eq_true, false_and, if_false, State.completeRdchunk, announced, tag,
    Result.withMem_ite]
  rfl

theorem execCkchunk_withMem (h : m.AgreesOn s.mem (engineReads .ckchunk s)) :
    execCkchunk { s with mem := m } = (execCkchunk s).withMem m := by
  have row : ⟨s.srcAddr, s.announced + 12⟩ ∈ engineReads .ckchunk s := List.mem_singleton_self _
  obtain ⟨announced, tag⟩ := State.chunkHead_withMem h row (by omega)
  have bytes : m.readBytes (s.srcAddr + 4) (s.announced + 4) = s.mem.readBytes (s.srcAddr + 4) (s.announced + 4) :=
    h.readBytes row (Nat.le_add_right _ _) (by simp only; omega)
  have stored : m.get32 (s.srcAddr + 8 + s.announced) = s.mem.get32 (s.srcAddr + 8 + s.announced) :=
    h.get32 row (by simp only; omega) (by simp only; omega)
  simp only [execCkchunk, announced, tag, State.buildTable_withMem, State.crc_withMem, bytes, stored, Result.withMem_ite]
  rfl

/-! ### `PARSE` -/

/-- The row of `PARSE` holds the container's first 41 bytes, and with `VERIFY = 1` all of it (R48). -/
theorem parse_row (s : State) : ∃ n, ⟨s.srcAddr, n⟩ ∈ engineReads .parse s ∧ 41 ≤ n ∧
    (s.verify = true → n = 57 + (s.mem.get32 (s.srcAddr + 33)).toNat) := by
  by_cases hv : s.verify = true
  · exact ⟨57 + (s.mem.get32 (s.srcAddr + 33)).toNat, by simp [engineReads, hv], by omega, fun _ => rfl⟩
  · exact ⟨41, by simp [engineReads, hv], le_rfl, fun h => absurd h hv⟩

/-- The fields that `PARSE` reads before the payload's end (R152). -/
theorem parse_word (h : m.AgreesOn s.mem (engineReads .parse s)) (k : Nat) (hk : k ≤ 37) :
    m.get32 (s.srcAddr + k) = s.mem.get32 (s.srcAddr + k) := by
  obtain ⟨n, hw, hn, -⟩ := parse_row s
  exact h.get32 hw (Nat.le_add_right _ _) (by simp only; omega)

theorem State.completeParse_withMem (h : m.AgreesOn s.mem (engineReads .parse s)) :
    { s with mem := m }.completeParse = { s.completeParse with mem := m } := by
  obtain ⟨n, hw, hn, -⟩ := parse_row s
  have depth : m.read (s.srcAddr + 24) = s.mem.read (s.srcAddr + 24) :=
    h.read hw (Nat.le_add_right _ _) (by simp only; omega)
  simp only [State.completeParse, parse_word h 16 (by decide), parse_word h 20 (by decide), parse_word h 33 (by decide),
    depth]
  rfl

theorem parseVerified_withMem (h : m.AgreesOn s.mem (engineReads .parse s)) {n : Nat}
    (hw : ⟨s.srcAddr, 57 + n⟩ ∈ engineReads .parse s) :
    parseVerified n { s with mem := m } = (parseVerified n s).withMem m := by
  have word (k : Nat) (hk : k ≤ 53) : m.get32 (s.srcAddr + k + n) = s.mem.get32 (s.srcAddr + k + n) :=
    h.get32 hw (by simp only; omega) (by simp only; omega)
  have payload : m.readBytes (s.srcAddr + 37) (n + 4) = s.mem.readBytes (s.srcAddr + 37) (n + 4) :=
    h.readBytes hw (Nat.le_add_right _ _) (by simp only; omega)
  simp only [parseVerified, State.crc_withMem, payload, word 41 (by decide), word 45 (by decide), word 49 (by decide),
    word 53 (by decide), State.completeParse_withMem h, Result.withMem_ite]
  rfl

theorem parsePayload_withMem (h : m.AgreesOn s.mem (engineReads .parse s)) :
    parsePayload { s with mem := m } = (parsePayload s).withMem m := by
  by_cases hv : s.verify = true
  · obtain ⟨_, hw, -, hn⟩ := parse_row s
    rw [hn hv] at hw
    simp only [parsePayload, parse_word h 33 (by decide), parse_word h 37 (by decide), if_pos hv,
      parseVerified_withMem h hw, Result.withMem_ite]
    rfl
  · simp only [parsePayload, parse_word h 33 (by decide), parse_word h 37 (by decide), if_neg hv,
      State.completeParse_withMem h, Result.withMem_ite]
    rfl

theorem parseHeader_withMem (h : m.AgreesOn s.mem (engineReads .parse s)) :
    parseHeader { s with mem := m } = (parseHeader s).withMem m := by
  obtain ⟨n, hw, hn, -⟩ := parse_row s
  have header : m.readBytes (s.srcAddr + 12) 17 = s.mem.readBytes (s.srcAddr + 12) 17 :=
    h.readBytes hw (Nat.le_add_right _ _) (by simp only; omega)
  have built : m.AgreesOn s.buildTable.mem (engineReads .parse s.buildTable) := by
    simpa only [engineReads, State.buildTable_mem, State.buildTable_verify, State.buildTable_srcAddr] using h
  simp only [parseHeader, parse_word h 8 (by decide), parse_word h 12 (by decide), parse_word h 29 (by decide),
    State.crc_withMem, header, State.buildTable_withMem, parsePayload_withMem h, parsePayload_withMem built,
    Result.withMem_ite]
  rfl

theorem execParse_withMem (h : m.AgreesOn s.mem (engineReads .parse s)) :
    execParse { s with mem := m } = (execParse s).withMem m := by
  obtain ⟨n, hw, hn, -⟩ := parse_row s
  have signature : m.readBytes s.srcAddr 8 = s.mem.readBytes s.srcAddr 8 :=
    h.readBytes hw le_rfl (by simp only; omega)
  simp only [execParse, parseWith, signature, parseHeader_withMem h, Result.withMem_ite]
  rfl

/-! ### The commands that write -/

theorem execPut32_runsAlike (s : State) (m : Memory) :
    RunsAlike (execMem .put32) s m (execPut32 s) (execPut32 { s with mem := m }) :=
  .check .rfl (fun _ => .written rfl rfl) (fun _ => .raise .range)

theorem execWrchunk_runsAlike (s : State) (m : Memory) :
    RunsAlike (execMem .wrchunk) s m (execWrchunk s) (execWrchunk { s with mem := m }) := by
  refine .check .rfl (fun _ => .check .rfl (fun _ => ?_) (fun _ => .raise .range)) (fun _ => .raise .range)
  refine .check .rfl (fun inPlace => ?_) (fun copied => .check .rfl (fun _ => ?_) (fun _ => .raise .range))
  · refine .written ?_ ?_ <;> simp only [execMem, if_pos inPlace, State.buildTable_withMem, State.buildTable_mem] <;> rfl
  · refine .written ?_ ?_ <;> simp only [execMem, if_neg copied, State.buildTable_withMem, State.buildTable_mem] <;> rfl

/-- `RDCHUNK` with `WD = 1`: only the copy writes (R121). -/
theorem rdchunkWith_runsAlike {wt : Bool} (h : m.AgreesOn s.mem (⟨s.srcAddr, 8⟩ :: s.copySource)) :
    RunsAlike (execMem .rdchunkD) s m (rdchunkWith wt true s) (rdchunkWith wt true { s with mem := m }) := by
  obtain ⟨announced, tag⟩ := State.chunkHead_withMem h List.mem_cons_self le_rfl
  have copies : { s with mem := m }.copiesData true ↔ s.copiesData true := by rw [State.copiesData, announced]
  have ended (m' m'' : Memory) :
      { s with mem := m }.completeRdchunk wt m' = { s.completeRdchunk wt m'' with mem := m' } := by
    rw [State.completeRdchunk, announced, tag]
    rfl
  refine .check .rfl (fun _ => .check .rfl (fun _ => .check copies (fun copied => ?_)
    (fun _ => .untouched rfl (ended _ _))) (fun _ => .raise .trunc)) (fun _ => .raise .range)
  refine .check (by rw [announced]) (fun _ => .check (by rw [announced]) (fun _ => ?_) (fun _ => .raise .range))
    (fun _ => .raise .trunc)
  refine .written ?_ ?_
  · simp only [execMem, if_pos copied.2]
    rfl
  · simp only [execMem, announced, if_pos copied.2]
    exact ended _ _

theorem execEncode_runsAlike (s : State) (m : Memory) :
    RunsAlike (execMem .encode) s m (execEncode s) (execEncode { s with mem := m }) := by
  refine .check .rfl (fun _ => .check .rfl (fun _ => .check .rfl (fun _ => ?_) (fun _ => .raise .cap))
    (fun _ => .raise .range)) (fun _ => .raise .range)
  refine .written ?_ ?_ <;>
    simp only [execMem, State.encodedHeader, State.buildTable_withMem, State.buildTable_mem] <;> rfl

/-- Every execution step over two memories that agree on its row of R48. -/
theorem exec_runsAlike (h : m.AgreesOn s.mem (engineReads i s)) :
    RunsAlike (execMem i) s m (exec i s) (exec i { s with mem := m }) := by
  cases i with
  | nop => exact .untouched rfl rfl
  | tblinit => exact .of_withMem ⟨_, rfl⟩ (fun m _ => execTblinit_withMem s m) h
  | crc32 => exact .of_withMem (execCrc32_next s) (fun _ => execCrc32_withMem) h
  | put32 => exact execPut32_runsAlike s m
  | get32 => exact .of_withMem (execGet32_next s) (fun _ => execGet32_withMem) h
  | wrchunk => exact execWrchunk_runsAlike s m
  | rdchunk => exact .of_withMem (rdchunkWith_next false false s) (fun _ => rdchunkWith_withMem) h
  | rdchunkT => exact .of_withMem (rdchunkWith_next true false s) (fun _ => rdchunkWith_withMem) h
  | rdchunkD => exact rdchunkWith_runsAlike h
  | rdchunkTD => exact rdchunkWith_runsAlike h
  | ckchunk => exact .of_withMem (execCkchunk_next s) (fun _ => execCkchunk_withMem) h
  | encode => exact execEncode_runsAlike s m
  | parse => exact .of_withMem (execParse_next s) (fun _ => execParse_withMem) h
  | inflate => exact .of_withMem (execInflate_next s) (fun m _ => execInflate_withMem s m) h
  | tagIhdr => exact .raise .illcmd
  | tagIdat => exact .raise .illcmd
  | tagIend => exact .raise .illcmd

/-- An execution step leaves memory untouched or as `execMem` says. -/
theorem exec_mem (h : exec i s = .next t) : t.mem = s.mem ∨ t.mem = execMem i s := by
  have again : RunsAlike (execMem i) s s.mem (exec i s) (exec i s) := exec_runsAlike fun _ _ => rfl
  rw [h] at again
  cases again with
  | untouched ht => exact .inl ht
  | written ht => exact .inr ht

/-- What `RDCHUNK` copies depends on its row only (R121). -/
theorem rdchunk_copy_read_congr (h : m.AgreesOn s.mem (⟨s.srcAddr, 8⟩ :: s.copySource)) {a : Nat}
    (ha : inWindows s.copyTarget a) :
    (execMem .rdchunkD { s with mem := m }).read a = (execMem .rdchunkD s).read a := by
  obtain ⟨announced, -⟩ := State.chunkHead_withMem h List.mem_cons_self le_rfl
  by_cases hcap : s.announced ≤ s.dstCap
  · simp only [State.copyTarget, if_pos hcap, inWindows_singleton] at ha
    have source : ⟨s.srcAddr + 8, s.announced⟩ ∈ (⟨s.srcAddr, 8⟩ :: s.copySource : List Window) := by
      simp [State.copySource, hcap]
    simp only [execMem, announced, if_pos hcap]
    exact Memory.read_copyUp_congr (fun j h1 h2 => h.read source h1 h2) (fun hout => absurd ha hout)
  · simp only [State.copyTarget, if_neg hcap] at ha
    obtain ⟨w, hw, -⟩ := ha
    cases hw

theorem wrchunk_read_congr (h : m.AgreesOn s.mem (engineReads .wrchunk s)) {a : Nat}
    (ha : inWindows (execWrites .wrchunk s) a) :
    (execMem .wrchunk { s with mem := m }).read a = (execMem .wrchunk s).read a := by
  obtain ⟨hlo, hhi⟩ := inWindows_singleton.1 ha
  simp only at hlo hhi
  by_cases inPlace : s.writesInPlace
  · have tagAndData : ⟨s.dstAddr + 4, s.srcLen + 4⟩ ∈ engineReads .wrchunk s :=
      List.mem_append_right _ (List.mem_singleton_self _)
    have data (j : Nat) (h1 : s.dstAddr + 8 ≤ j) (h2 : j < s.dstAddr + 8 + s.srcLen) : m.read j = s.mem.read j :=
      h.read tagAndData (by simp only; omega) (by simp only; omega)
    simp only [execMem, if_pos inPlace, State.buildTable_withMem]
    exact Memory.read_frameInPlace_congr _ _ data hlo (by omega)
  · have source : ⟨s.srcAddr, s.srcLen⟩ ∈ engineReads .wrchunk s := by
      simp [engineReads, (not_or.1 inPlace).2]
    simp only [execMem, if_neg inPlace, State.buildTable_withMem]
    exact Memory.read_frameCopy_congr _ _ (fun j h1 h2 => h.read source h1 h2) hlo (by omega)

/-- What a command writes depends on its row of R48 only. -/
theorem execMem_read_congr (h : m.AgreesOn s.mem (engineReads i s)) {a : Nat} (ha : inWindows (execWrites i s) a) :
    (execMem i { s with mem := m }).read a = (execMem i s).read a := by
  cases i with
  | put32 => exact Memory.read_writeBytes_congr _ _ fun hout => absurd (inWindows_singleton.1 ha) hout
  | wrchunk => exact wrchunk_read_congr h ha
  | rdchunkD => exact rdchunk_copy_read_congr h ha
  | rdchunkTD => exact rdchunk_copy_read_congr h ha
  | encode =>
    obtain ⟨hlo, hhi⟩ := inWindows_singleton.1 ha
    simp only at hlo hhi
    simp only [execMem, State.encodedHeader, State.buildTable_withMem]
    refine Memory.read_writeBytes_congr _ _ fun h1 => Memory.read_writeBytes_congr _ _ fun h2 => ?_
    simp only [Vector.length_toList, chunkWith_length, hdr_length, State.dstAddr] at h1 h2 hlo hhi
    omega
  | nop | tblinit | crc32 | get32 | rdchunk | rdchunkT | ckchunk | parse | inflate | tagIhdr | tagIdat | tagIend =>
    obtain ⟨w, hw, -⟩ := ha
    cases hw

end

end Sys2Proof.Machine

section
open Sys2Proof Sys2Proof.Machine

/-- Settles O56: memory is untouched, or only as the command's writes have it, which stay in its row. -/
theorem writesStayInTheFootprint : Obligations.WritesStayInTheFootprint := by
  unfold Obligations.WritesStayInTheFootprint
  intro i s t a h ha
  rcases exec_mem h with hm | hm <;> rw [hm]
  exact execMem_read_out ha

/-- Settles O57: the two runs are alike, and what they write they write from the bytes on which the memories agree. -/
theorem readsStayInTheFootprint : Obligations.ReadsStayInTheFootprint := by
  unfold Obligations.ReadsStayInTheFootprint
  intro i s t m h hm
  have alike := exec_runsAlike hm
  rw [h] at alike
  generalize hr : exec i { s with mem := m } = r at alike
  cases alike with
  | untouched ht ht' => exact ⟨_, rfl, by rw [ht'], .inr ⟨ht, by rw [ht']⟩⟩
  | written ht ht' =>
    refine ⟨_, rfl, by rw [ht'], .inl fun a ha => ?_⟩
    rw [ht, ht']
    exact execMem_read_congr hm ha

end

/-! PROOFS. The windows that are handed over (R48, R49): what an issue adds to them, and who takes them back. -/

namespace Sys2Proof.Machine

variable {s t : State}

/-! ## The issue -/

/-- The issue of a command hands over every window it claims (R49). -/
theorem issue_lends {v : Word} {i : Instr} (hv : decode v = .ok i) {base size : Nat} (hw : ⟨base, size⟩ ∈ claims i s)
    (a : Nat) (hlo : base ≤ a) (hhi : a < base + size) : inWindows (s.issue v).lent a := by
  have claimed : ⟨base, size⟩ ∈ claimsOfWord v s := by
    unfold claimsOfWord
    rw [hv]
    exact hw
  exact ⟨⟨base, size⟩, List.mem_append_right _ claimed, hlo, hhi⟩

/-- The issue as a step (R172, R173). -/
theorem step_issue {v : DWord} {rest : List Move} (ha : s.agenda = .hostWrite 0 v :: rest) (hp : s.phase = .idle) :
    step s = .next ({ s with agenda := rest }.issue (v.setWidth 32)) := by
  rw [step_of_cons ha]
  simp [moveStep, State.hostWrite, hp]

/-- Every spelling of `RDCHUNK` claims the eight bytes of the chunk's length and tag (R48). -/
theorem rdchunk_claims_chunkHead {v : Word} (hv : v = 0x006#32 ∨ v = 0x106#32 ∨ v = 0x206#32 ∨ v = 0x306#32) :
    ∃ i, decode v = .ok i ∧ ⟨s.srcAddr, 8⟩ ∈ claims i s := by
  rcases hv with rfl | rfl | rfl | rfl
  · exact ⟨.rdchunk, by decide, by simp [claims, engineReads]⟩
  · exact ⟨.rdchunkT, by decide, by simp [claims, engineReads]⟩
  · exact ⟨.rdchunkD, by decide, by simp [claims, engineReads]⟩
  · exact ⟨.rdchunkTD, by decide, by simp [claims, engineReads]⟩

/-- With `WD = 1` and room for the data it claims the data's source and destination (R48). -/
theorem rdchunk_claims_data {v : Word} (hv : v = 0x206#32 ∨ v = 0x306#32) (hcap : s.announced ≤ s.dstCap) :
    ∃ i, decode v = .ok i ∧ ⟨s.srcAddr + 8, s.announced⟩ ∈ claims i s ∧ ⟨s.dstAddr, s.announced⟩ ∈ claims i s := by
  rcases hv with rfl | rfl
  · exact ⟨.rdchunkD, by decide, by simp [claims, engineReads, execWrites, State.copySource, State.copyTarget, hcap]⟩
  · exact ⟨.rdchunkTD, by decide, by simp [claims, engineReads, execWrites, State.copySource, State.copyTarget, hcap]⟩

/-- The row of `ENCODE` up to its budget; with too little room for one it still holds the bytes before the payload (R48,
log entry 10). -/
theorem encode_claims_destination (s : State) : ∃ n, ⟨s.dstAddr, n⟩ ∈ claims .encode s ∧ 41 ≤ n ∧
    (58 ≤ s.dstCap → n = 57 + s.budget) := by
  by_cases hcap : 58 ≤ s.dstCap
  · exact ⟨57 + s.budget, by simp [claims, Config.minOut, hcap], by omega, fun _ => rfl⟩
  · exact ⟨41, by simp [claims, Config.minOut, hcap], le_rfl, fun h => absurd h hcap⟩

/-! ## The other steps -/

theorem State.Prepares.lent {u : State} (h : s.Prepares u) : u.lent = s.lent := by rw [h.frame]

/-- The engine takes no window back. -/
theorem EngineAnswers.lent (h : EngineAnswers s t) : t.lent = s.lent := by
  cases h with
  | nothing => rfl
  | ends hu _ ht => cases ht <;> exact hu.lent
  | requests _ hu => exact hu.lent

/-- A host write hands windows over and takes none back (R49). -/
theorem State.lent_subset_hostWrite (s : State) (i : Nat) (v : DWord) : s.lent ⊆ (s.hostWrite i v).lent := by
  rcases s.hostWrite_cases i v with ⟨-, h⟩ | ⟨-, -, h⟩ | ⟨-, -, h⟩ | ⟨-, -, h⟩ <;> rw [h]
  · exact List.Subset.refl _
  · exact List.Subset.refl _
  · exact List.subset_append_left _ _
  · rw [s.writeOperand_frame]
    exact List.Subset.refl _

/-- Only a read of `STATUS` with `DONE = 1` and the reset event take windows back (R49, R210). -/
theorem moveStep_takes_back {mv : Move} {w : Window} (h : moveStep mv s = .next t) (hs : w ∈ s.lent) (ht : w ∉ t.lent) :
    (mv = .hostRead 1 ∧ s.done = true) ∨ ∃ left, mv = .reset left := by
  cases mv with
  | engine => exact absurd ((engineStep_answers h).lent ▸ hs) ht
  | reset left => exact .inr ⟨left, rfl⟩
  | hostWrite i v =>
    cases h
    exact absurd (s.lent_subset_hostWrite i v hs) ht
  | hostRead i =>
    cases h
    by_cases hi : i = 1 ∧ s.done = true
    · exact .inl ⟨by rw [hi.1], hi.2⟩
    · rw [State.hostRead_lent, if_neg hi] at ht
      exact absurd hs ht
  | hostStore a b =>
    obtain ⟨-, rfl⟩ := hostMayTouch_cases h
    exact absurd hs ht
  | hostLoad a =>
    obtain ⟨-, rfl⟩ := hostMayTouch_cases h
    exact absurd hs ht
  | collaborator ws r =>
    cases h
    rcases collaboratorStep_cases ws r s with hc | ⟨q, -, -, hc⟩ <;> rw [hc] at ht <;> exact absurd hs ht
  | strayWrites ws => cases h; exact absurd hs ht
  | quiet => cases h; exact absurd hs ht

end Sys2Proof.Machine

section
open Sys2Proof Sys2Proof.Machine

/-- Settles O18: word by word the row is among the claims that the issue hands over, and of all moves only the two take a
window back. -/
theorem windowsAreLentUntilDoneIsRead : Obligations.WindowsAreLentUntilDoneIsRead := by
  unfold Obligations.WindowsAreLentUntilDoneIsRead
  refine ⟨fun s t v rest ha hp h => ?_, fun s t w h hs ht => ?_⟩
  · rw [step_issue ha hp] at h
    cases h
    dsimp only
    generalize v.setWidth 32 = w
    refine ⟨?_, ?_, ?_, ?_, ?_, ?_, ?_, ?_, ?_, ?_, ?_⟩
    · rintro rfl
      exact issue_lends (i := .crc32) (by decide) (List.mem_singleton_self _)
    · rintro rfl
      exact issue_lends (i := .put32) (by decide) (List.mem_singleton_self _)
    · rintro rfl
      exact issue_lends (i := .get32) (by decide) (List.mem_singleton_self _)
    · rintro rfl
      refine ⟨issue_lends (i := .wrchunk) (by decide) ?_, fun hne => issue_lends (i := .wrchunk) (by decide) ?_⟩
      · simp [claims, execWrites]
      · simp [claims, engineReads, hne]
    · intro hw
      obtain ⟨i, hi, hc⟩ := rdchunk_claims_chunkHead (s := { s with agenda := rest }) hw
      exact issue_lends hi hc
    · intro hw hcap
      obtain ⟨i, hi, hsrc, hdst⟩ := rdchunk_claims_data (s := { s with agenda := rest }) hw hcap
      exact ⟨issue_lends hi hsrc, issue_lends hi hdst⟩
    · rintro rfl
      exact issue_lends (i := .ckchunk) (by decide) (List.mem_singleton_self _)
    · rintro rfl
      obtain ⟨n, hdst, hn, hbudget⟩ := encode_claims_destination { s with agenda := rest }
      refine ⟨issue_lends (i := .encode) (by decide) List.mem_cons_self, fun a hlo hhi => ?_, fun hcap => ?_⟩
      · exact issue_lends (i := .encode) (by decide) hdst a hlo (hhi.trans_le (Nat.add_le_add_left hn _))
      · rw [hbudget hcap] at hdst
        exact issue_lends (i := .encode) (by decide) hdst
    · rintro rfl hv
      exact issue_lends (i := .parse) (by decide) (by simp [claims, engineReads, hv])
    · rintro rfl hv
      refine issue_lends (i := .parse) (by decide) (List.mem_append_left _ ?_)
      rw [engineReads, if_pos hv]
      exact List.mem_singleton_self _
    · rintro rfl
      refine ⟨issue_lends (i := .inflate) (by decide) ?_, issue_lends (i := .inflate) (by decide) ?_⟩ <;> simp [claims]
  · rcases step_cases h with ⟨-, he⟩ | ⟨mv, rest, ha, hm⟩
    · exact absurd ((engineStep_answers he).lent ▸ hs) ht
    · rcases moveStep_takes_back hm hs ht with ⟨rfl, hd⟩ | ⟨left, rfl⟩
      · exact .inl ⟨rest, ha, hd⟩
      · exact .inr ⟨left, rest, ha⟩

end

/-! PROOFS. The encoder against the decoder (R60 to R63), and the command words as numbers. -/

namespace Sys2Proof

/-- The word of every row decodes to the row (R61, R62, R69). -/
theorem decode_encode (i : Instr) : decode (encode i) = .ok i := by
  cases i <;> rfl

/-- A word decodes to a row exactly when it is the row's word. -/
theorem decode_eq_ok_iff {w : Word} {i : Instr} : decode w = .ok i ↔ w = encode i :=
  ⟨eq_encode_of_decode, fun h => h ▸ decode_encode i⟩

/-- The word of a command is a number of R61's list; the tag rows, whose numbers are not, are no commands. -/
theorem encode_toNat_of_wellFormed {i : Instr} (h : i.wellFormed = true) :
    (encode i).toNat ≤ 0x0A ∨ (encode i).toNat = 0x106 ∨ (encode i).toNat = 0x206 ∨ (encode i).toNat = 0x306 := by
  cases i with
  | tagIhdr | tagIdat | tagIend => cases h
  | _ => decide

/-- The table of R61 for the words without a flag, by number. -/
theorem exists_command_of_opcode : ∀ n ≤ 0x0A, ∃ i : Instr, i.wellFormed = true ∧ (encode i).toNat = n
  | 0x00, _ => ⟨.nop, rfl, rfl⟩
  | 0x01, _ => ⟨.tblinit, rfl, rfl⟩
  | 0x02, _ => ⟨.crc32, rfl, rfl⟩
  | 0x03, _ => ⟨.put32, rfl, rfl⟩
  | 0x04, _ => ⟨.get32, rfl, rfl⟩
  | 0x05, _ => ⟨.wrchunk, rfl, rfl⟩
  | 0x06, _ => ⟨.rdchunk, rfl, rfl⟩
  | 0x07, _ => ⟨.ckchunk, rfl, rfl⟩
  | 0x08, _ => ⟨.encode, rfl, rfl⟩
  | 0x09, _ => ⟨.parse, rfl, rfl⟩
  | 0x0A, _ => ⟨.inflate, rfl, rfl⟩
  | n + 0x0B, h => absurd h (by omega)

/-- Every number of R61's list is the word of a command (R61, R62). -/
theorem exists_command_of_toNat {n : Nat} (h : n ≤ 0x0A ∨ n = 0x106 ∨ n = 0x206 ∨ n = 0x306) :
    ∃ i : Instr, i.wellFormed = true ∧ (encode i).toNat = n := by
  rcases h with h | rfl | rfl | rfl
  · exact exists_command_of_opcode n h
  · exact ⟨.rdchunkT, rfl, rfl⟩
  · exact ⟨.rdchunkD, rfl, rfl⟩
  · exact ⟨.rdchunkTD, rfl, rfl⟩

end Sys2Proof

section
open Sys2Proof Sys2Proof.Machine

/-- Settles O3: each row's own word decodes to it, and no other word does; the three tag rows, which are no commands, are
the named illegal words of log entry 7. -/
theorem decodeEncodeAgreeBothWays : Obligations.DecodeEncodeAgreeBothWays := by
  unfold Obligations.DecodeEncodeAgreeBothWays
  exact ⟨decode_encode, fun _ _ => eq_encode_of_decode⟩

/-- Settles O2: a word decodes to a command exactly when it is the command's word, and those words are R61's list. -/
theorem legalWordsAreThoseOfR61 : Obligations.LegalWordsAreThoseOfR61 := by
  unfold Obligations.LegalWordsAreThoseOfR61
  intro w
  simp only [decode_eq_ok_iff]
  constructor
  · rintro ⟨i, hi, rfl⟩
    exact encode_toNat_of_wellFormed hi
  · intro h
    obtain ⟨i, hi, hw⟩ := exists_command_of_toNat h
    exact ⟨i, hi, BitVec.eq_of_toNat_eq hw.symm⟩

/-- Settles O1: the fourteen legal words are the encoder's, and of the other five the decoder names what is wrong. -/
theorem commandWordsDecode : Obligations.CommandWordsDecode := by
  unfold Obligations.CommandWordsDecode
  have unknownOpcode : decode 0x0B#32 = .reject .unknownOpcode := by decide
  have flag : decode 0x105#32 = .reject .flagNotAllowed ∧ decode 0x208#32 = .reject .flagNotAllowed := by decide
  have reserved : decode 0x400#32 = .reject .reservedBits ∧ decode 0x80000002#32 = .reject .reservedBits := by decide
  exact ⟨decode_encode .nop, decode_encode .tblinit, decode_encode .crc32, decode_encode .put32, decode_encode .get32,
    decode_encode .wrchunk, decode_encode .rdchunk, decode_encode .rdchunkT, decode_encode .rdchunkD,
    decode_encode .rdchunkTD, decode_encode .ckchunk, decode_encode .encode, decode_encode .parse,
    decode_encode .inflate, unknownOpcode, flag.1, flag.2, reserved⟩

end

/-! PROOFS. The end of an illegal command word (R63, R174, R190, R194). -/

namespace Sys2Proof.Machine

variable (s : State)

/-- The failing end leaves `RESULT = 0` (R190). -/
theorem State.raise_eq_ended (e : ErrCode) : s.raise e = s.ended 0 e := rfl

/-- What an illegal command word does, with its frame (R174, R194). -/
theorem illegalWord_eq : illegalWord s = .next (s.ended 0 .illcmd) :=
  congrArg Host.Outcome.next (s.raise_eq_ended .illcmd)

/-- The three tag rows run as illegal words (R63; log entry 7). -/
theorem exec_tagRow {i : Instr} (hi : i = .tagIhdr ∨ i = .tagIdat ∨ i = .tagIend) :
    exec i s = .next (s.ended 0 .illcmd) := by
  rcases hi with rfl | rfl | rfl <;> exact illegalWord_eq s

end Sys2Proof.Machine

section
open Sys2Proof Sys2Proof.Machine

/-- Settles O7: each tag row runs as an illegal word, whose whole effect is the end with `ILLCMD`. -/
theorem tagRowsAreIllegalCommands : Obligations.TagRowsAreIllegalCommands := by
  unfold Obligations.TagRowsAreIllegalCommands
  exact fun s => ⟨exec_tagRow s (.inl rfl), exec_tagRow s (.inr (.inl rfl)), exec_tagRow s (.inr (.inr rfl))⟩

end

/-! PROOFS. The checksum's update step (R91 to R94): one bit of the division is linear and loses nothing, so the step
through the table is the step without one, and it is injective in the accumulator and in the byte. -/

namespace Sys2Proof.Machine

/-! ## One bit of the division -/

/-- `f` as a shift and an addition of the polynomial (R91). -/
theorem crcBit_eq_xor (c : Word) : crcBit c = c >>> 1 ^^^ (if c.getLsbD 0 then Config.crcPoly else 0#32) := by
  unfold crcBit
  split <;> simp

/-- `f` is linear over bitwise exclusive-or. -/
theorem crcBit_xor : Function.Semiconj₂ crcBit (· ^^^ ·) (· ^^^ ·) := by
  intro c d
  have poly (p q : Bool) : (if p ^^ q then Config.crcPoly else 0#32) =
      (if p then Config.crcPoly else 0#32) ^^^ (if q then Config.crcPoly else 0#32) := by
    cases p <;> cases q <;> rfl
  simp only [crcBit_eq_xor, BitVec.ushiftRight_xor_distrib, BitVec.getLsbD_xor, poly]
  ac_rfl

/-- The bit that `f` shifts out decides the top bit of its answer, since the polynomial has that bit. -/
theorem getLsbD_31_crcBit (c : Word) : (crcBit c).getLsbD 31 = c.getLsbD 0 := by
  rw [crcBit_eq_xor]
  cases c.getLsbD 0 <;> simp [Config.crcPoly]

/-- A word is known from its lowest bit and the rest. -/
theorem eq_of_lowest_of_rest {c d : Word} (low : c.getLsbD 0 = d.getLsbD 0) (rest : c >>> 1 = d >>> 1) : c = d := by
  apply BitVec.eq_of_getLsbD_eq
  intro i _
  cases i with
  | zero => exact low
  | succ j => simpa [Nat.add_comm] using congrArg (BitVec.getLsbD · j) rest

theorem crcBit_injective : Function.Injective crcBit := by
  intro c d h
  have low : c.getLsbD 0 = d.getLsbD 0 := by rw [← getLsbD_31_crcBit, h, getLsbD_31_crcBit]
  refine eq_of_lowest_of_rest low ?_
  rw [crcBit_eq_xor, crcBit_eq_xor, low] at h
  exact (BitVec.xor_left_inj _).1 h

/-- Where the low `n` bits are 0, `n` applications of `f` only shift. -/
theorem crcBit_iterate_of_low_zero (n : Nat) {c : Word} (h : ∀ i < n, c.getLsbD i = false) :
    crcBit^[n] c = c >>> n := by
  induction n generalizing c with
  | zero => simp
  | succ n ih =>
    have shift : crcBit c = c >>> 1 := by rw [crcBit, h 0 n.succ_pos, if_neg Bool.false_ne_true]
    have low : ∀ i < n, (c >>> 1).getLsbD i = false := fun i hi => by
      simpa [Nat.add_comm] using h (i + 1) (by omega)
    rw [Function.iterate_succ_apply, shift, ih low, Nat.add_comm, BitVec.shiftRight_add]

/-! ## The table and the update step -/

theorem crcByte_eq_iterate (c : Word) : crcByte c = crcBit^[8] c := rfl

/-- Entry `i` of the table of R91. -/
theorem crcTable_getElem? {i : Nat} (h : i < 256) : crcTable[i]? = some (crcByte (BitVec.ofNat 32 i)) := by
  simp [crcTable, h]

/-- The table holds, for every byte, what eight applications of `f` make of it. -/
theorem crcTable_getD (b : Byte) : crcTable.getD b.toNat 0#32 = crcByte (b.setWidth 32) := by
  rw [List.getD_eq_getElem?_getD, crcTable_getElem? b.isLt, Option.getD_some, BitVec.ofNat_toNat]

/-- A byte is shifted out whole by eight steps. -/
theorem byte_ushiftRight_eight (b : Byte) : b.setWidth 32 >>> 8 = 0#32 := by
  apply BitVec.eq_of_getLsbD_eq
  simp

/-- A word is its low byte and the rest: `f⁸` looks the one up in the table and only shifts the other. -/
theorem crcByte_eq_table_xor_shift (c : Word) : crcByte c = crcByte ((c.extractLsb' 0 8).setWidth 32) ^^^ c >>> 8 := by
  have rest : crcByte ((c.extractLsb' 0 8).setWidth 32 ^^^ c) = c >>> 8 := by
    rw [crcByte_eq_iterate, crcBit_iterate_of_low_zero 8 (fun i hi => by simp [hi, show i < 32 by omega]),
      BitVec.ushiftRight_xor_distrib, byte_ushiftRight_eight, BitVec.zero_xor]
  rw [← rest, crcByte_eq_iterate, crcByte_eq_iterate, crcByte_eq_iterate, ← (crcBit_xor.iterate 8).eq,
    ← BitVec.xor_assoc, BitVec.xor_self, BitVec.zero_xor]

/-- The update through the table of R91 is the one without a table (R93). -/
theorem crcUpd_crcTable (acc : Word) (b : Byte) : crcUpd crcTable acc b = crcUpdPoly acc b := by
  have shifted : (acc ^^^ b.setWidth 32) >>> 8 = acc >>> 8 := by
    rw [BitVec.ushiftRight_xor_distrib, byte_ushiftRight_eight, BitVec.xor_zero]
  rw [crcUpd, crcTable_getD, ← shifted, ← crcByte_eq_table_xor_shift, crcUpdPoly]

/-- The checksum without a table (R93, R94). -/
theorem crc32_eq_foldl_crcUpdPoly (bytes : List Byte) :
    crc32 bytes = bytes.foldl crcUpdPoly Config.crcInit ^^^ Config.crcXorOut := by
  have update : crcUpd crcTable = crcUpdPoly := funext₂ crcUpd_crcTable
  rw [crc32, crcWith, update]

/-! ## The update step loses nothing -/

theorem crcByte_injective : Function.Injective crcByte := crcBit_injective.iterate 8

/-- For one byte the update is injective in the accumulator. -/
theorem crcUpdPoly_injective_acc (b : Byte) : Function.Injective (crcUpdPoly · b) :=
  fun _ _ h => (BitVec.xor_left_inj _).1 (crcByte_injective h)

/-- For one accumulator the update is injective in the byte. -/
theorem crcUpdPoly_injective_byte (acc : Word) : Function.Injective (crcUpdPoly acc) := fun x y h => by
  have wide : x.setWidth 32 = y.setWidth 32 := (BitVec.xor_right_inj _).1 (crcByte_injective h)
  simpa using congrArg (BitVec.setWidth 8) wide

/-- Running over more bytes, two accumulators stay different. -/
theorem foldl_crcUpdPoly_injective (bytes : List Byte) :
    Function.Injective (fun acc => bytes.foldl crcUpdPoly acc) := by
  induction bytes with
  | nil => exact fun _ _ h => h
  | cons b bytes ih => exact fun _ _ h => crcUpdPoly_injective_acc b (ih h)

end Sys2Proof.Machine

section
open Sys2Proof Sys2Proof.Machine

/-- Settles O25: the low byte's part of `f⁸` is the table's entry, the other bits are only shifted. -/
theorem tableAndPolynomialStepsAgree : Obligations.TableAndPolynomialStepsAgree := by
  unfold Obligations.TableAndPolynomialStepsAgree
  exact crcUpd_crcTable

/-- Settles O27: the update with the changed byte gives another accumulator, and the bytes after it keep the two apart. -/
theorem checksumSeesOneChangedByte : Obligations.ChecksumSeesOneChangedByte := by
  unfold Obligations.ChecksumSeesOneChangedByte
  intro before after x y hxy h
  simp only [crc32_eq_foldl_crcUpdPoly, List.foldl_append, List.foldl_cons] at h
  exact hxy (crcUpdPoly_injective_byte _ (foldl_crcUpdPoly_injective after ((BitVec.xor_left_inj _).1 h)))

/-- Settles O24: each entry by the table's definition, the spot values by eight applications of `f`. -/
theorem tableSpotValues : Obligations.TableSpotValues := by
  unfold Obligations.TableSpotValues
  refine ⟨fun c => ?_, fun i hi => crcTable_getElem? hi, crcTable_length, ?_⟩
  · have low : c.getLsbD 0 = decide (c.toNat % 2 = 1) := by rw [← BitVec.testBit_toNat, Nat.testBit_zero]
    simp only [crcBit, low, decide_eq_true_eq]
    split <;> simp [Nat.shiftRight_one, Config.crcPoly]
  · iterate 7 rw [crcTable_getElem? (by decide)]
    decide

/-- Settles O26: the vectors are computed without a table. -/
theorem checksumVectors : Obligations.ChecksumVectors := by
  unfold Obligations.ChecksumVectors
  simp only [crc32_eq_foldl_crcUpdPoly]
  decide +kernel

end

/-! PROOFS. The table as state (R96 to R99): the commands `TBLINIT` and `CRC32`, and two runs of a command that differ in
the table only. -/

namespace Sys2Proof.Machine

variable {s : State}

/-! ## The end of a command and the engine's checksum -/

/-- The successful end (R176). -/
theorem State.complete_eq_ended (s : State) (r : Nat) : s.complete r = s.ended r .ok := rfl

/-- With the table built, the engine's checksum is `crc32` (R94, R96). -/
theorem State.buildTable_crc (h : s.tableOk) (bytes : List Byte) : s.buildTable.crc bytes = crc32 bytes := by
  rw [State.crc, s.buildTable_table h, crc32]

/-- The checksum of no byte needs no table (R95, R96). -/
theorem State.crc_nil (s : State) : s.crc [] = crc32 [] := rfl

/-! ## The commands `TBLINIT` and `CRC32` -/

/-- The whole effect of `TBLINIT` (R99). -/
theorem execTblinit_eq (h : s.tableOk) :
    execTblinit s = .next ({ s with tvalid := true, table := crcTable }.ended 0 .ok) := by
  rw [execTblinit, buildTable_of_tableOk h, State.complete_eq_ended]

/-- `CRC32` of no byte leaves the table as it is (R96, R98). -/
theorem execCrc32_of_len_zero (hf : fits s.srcAddr s.srcLen) (h0 : s.srcLen = 0) :
    execCrc32 s = .next (s.ended (crc32 []).toNat .ok) := by
  rw [execCrc32, if_pos hf]
  simp only [h0, if_true, Memory.readBytes, State.crc_nil, State.complete_eq_ended]

/-- `CRC32` of some bytes builds the table (R96, R98). -/
theorem execCrc32_of_len_ne_zero (h : s.tableOk) (hf : fits s.srcAddr s.srcLen) (h0 : s.srcLen ≠ 0) :
    execCrc32 s = .next ({ s with tvalid := true, table := crcTable }.ended
      (crc32 (s.mem.readBytes s.srcAddr s.srcLen)).toNat .ok) := by
  rw [execCrc32, if_pos hf]
  simp only [h0, if_false, State.buildTable_crc h, State.buildTable_mem, State.buildTable_srcAddr,
    State.buildTable_srcLen]
  rw [State.complete_eq_ended, buildTable_of_tableOk h]

/-- `CRC32` of a window that wraps (R98). -/
theorem execCrc32_of_wraps (hf : ¬ fits s.srcAddr s.srcLen) : execCrc32 s = .next (s.ended 0 .range) := by
  rw [execCrc32, if_neg hf, State.raise_eq_ended]

/-! ## Two runs over two tables -/

/-- The state with another table (R22). -/
def State.withTable (s : State) (valid : Bool) (table : List Word) : State := { s with tvalid := valid, table := table }

/-- Once built, the table is the same whichever it was before (R96). -/
theorem State.withTable_buildTable {valid : Bool} {table : List Word} (h : s.tableOk)
    (h' : (s.withTable valid table).tableOk) : (s.withTable valid table).buildTable = s.buildTable := by
  rw [buildTable_of_tableOk h, buildTable_of_tableOk h', State.withTable]

/-- Two answers whose states differ in `TVALID` and `TABLE` only (R97). -/
inductive DifferInTable : Result → Result → Prop where
  | next {t t' : State} (ht : t' = { t with tvalid := t'.tvalid, table := t'.table }) :
      DifferInTable (.next t) (.next t')

namespace DifferInTable

theorem refl {r : Result} (h : ∃ t, r = .next t) : DifferInTable r r := by
  obtain ⟨t, rfl⟩ := h
  exact .next rfl

/-- A check that comes out the same in both runs. -/
theorem check {p p' : Prop} [Decidable p] [Decidable p'] {a b a' b' : Result} (hp : p' ↔ p)
    (ha : p → DifferInTable a a') (hb : ¬ p → DifferInTable b b') :
    DifferInTable (if p then a else b) (if p' then a' else b') := by
  by_cases h : p
  · rw [if_pos h, if_pos (hp.2 h)]
    exact ha h
  · rw [if_neg h, if_neg (mt hp.1 h)]
    exact hb h

/-- A command's failing end writes nothing of the table (R190). -/
theorem raise {valid : Bool} {table : List Word} (e : ErrCode) :
    DifferInTable (.next (s.raise e)) (.next ((s.withTable valid table).raise e)) := .next rfl

/-- The other run's answer. -/
theorem exists_next {r r' : Result} {t : State} (h : DifferInTable r r') (hr : r = .next t) :
    ∃ t', r' = .next t' ∧ t' = { t with tvalid := t'.tvalid, table := t'.table } := by
  cases h with
  | next ht =>
    cases hr
    exact ⟨_, rfl, ht⟩

end DifferInTable

variable {valid : Bool} {table : List Word}

/-! ### The commands that do not read the table -/

theorem execPut32_differInTable : DifferInTable (execPut32 s) (execPut32 (s.withTable valid table)) :=
  .check .rfl (fun _ => .next rfl) (fun _ => .raise .range)

theorem execGet32_differInTable : DifferInTable (execGet32 s) (execGet32 (s.withTable valid table)) :=
  .check .rfl (fun _ => .next rfl) (fun _ => .raise .range)

theorem rdchunkWith_differInTable (wt wd : Bool) :
    DifferInTable (rdchunkWith wt wd s) (rdchunkWith wt wd (s.withTable valid table)) := by
  refine .check .rfl (fun _ => .check .rfl (fun _ => .check .rfl (fun _ => ?_) (fun _ => .next rfl))
    (fun _ => .raise .trunc)) (fun _ => .raise .range)
  exact .check .rfl (fun _ => .check .rfl (fun _ => .next rfl) (fun _ => .raise .range)) (fun _ => .raise .trunc)

theorem execInflate_differInTable : DifferInTable (execInflate s) (execInflate (s.withTable valid table)) :=
  .check .rfl (fun _ => .check .rfl (fun _ => .next rfl) (fun _ => .raise .range)) (fun _ => .raise .range)

theorem resumeInflate_differInTable (r : CRsp) :
    DifferInTable (resumeInflate r s) (resumeInflate r (s.withTable valid table)) := by
  cases r with
  | error => exact .raise .collab
  | ok k =>
    exact .check .rfl (fun _ => .check .rfl (fun _ => .next rfl) (fun _ => .raise .collab)) (fun _ => .raise .cap)

/-- The payload's part of `PARSE` reads the table with `VERIFY = 1` only (R152, R153). -/
theorem parsePayload_differInTable (hv : ¬ s.verify = true) :
    DifferInTable (parsePayload s) (parsePayload (s.withTable valid table)) := by
  refine .check .rfl (fun _ => .check .rfl (fun _ => .check .rfl (fun _ => ?_) (fun _ => .raise .trunc))
    (fun _ => .raise .format)) (fun _ => .raise .trunc)
  exact .check .rfl (fun h => absurd h hv) (fun _ => .next rfl)

/-! ### The commands that build the table before they read it -/

section
variable (h : s.tableOk) (h' : (s.withTable valid table).tableOk)
include h h'

theorem execTblinit_differInTable : DifferInTable (execTblinit s) (execTblinit (s.withTable valid table)) := by
  rw [execTblinit, execTblinit, State.withTable_buildTable h h']
  exact .next rfl

theorem execCrc32_differInTable : DifferInTable (execCrc32 s) (execCrc32 (s.withTable valid table)) := by
  by_cases hf : fits s.srcAddr s.srcLen
  · by_cases h0 : s.srcLen = 0
    · rw [execCrc32_of_len_zero hf h0, execCrc32_of_len_zero (s := s.withTable valid table) hf h0]
      exact .next rfl
    · rw [execCrc32_of_len_ne_zero h hf h0, execCrc32_of_len_ne_zero h' hf h0]
      exact .next rfl
  · rw [execCrc32_of_wraps hf, execCrc32_of_wraps (s := s.withTable valid table) hf]
    exact .next rfl

theorem execWrchunk_differInTable : DifferInTable (execWrchunk s) (execWrchunk (s.withTable valid table)) := by
  refine .check .rfl (fun _ => .check .rfl (fun _ => .check .rfl (fun _ => ?_) (fun _ => .check .rfl (fun _ => ?_)
    (fun _ => .raise .range))) (fun _ => .raise .range)) (fun _ => .raise .range)
  all_goals
    simp only [State.withTable_buildTable h h']
    exact .next rfl

theorem execCkchunk_differInTable : DifferInTable (execCkchunk s) (execCkchunk (s.withTable valid table)) := by
  refine .check .rfl (fun _ => .check .rfl (fun _ => .check .rfl (fun _ => ?_) (fun _ => .raise .trunc))
    (fun _ => .raise .trunc)) (fun _ => .raise .range)
  simp only [State.withTable_buildTable h h']
  exact .refl (check_next ⟨_, rfl⟩ ⟨_, rfl⟩)

theorem execEncode_differInTable : DifferInTable (execEncode s) (execEncode (s.withTable valid table)) := by
  refine .check .rfl (fun _ => .check .rfl (fun _ => .check .rfl (fun _ => ?_) (fun _ => .raise .cap))
    (fun _ => .raise .range)) (fun _ => .raise .range)
  simp only [State.withTable_buildTable h h']
  exact .next rfl

theorem resumeEncode_differInTable (q : CReq) (r : CRsp) :
    DifferInTable (resumeEncode q r s) (resumeEncode q r (s.withTable valid table)) := by
  cases r with
  | error => exact .raise .collab
  | ok k =>
    refine .check .rfl (fun _ => .check .rfl (fun _ => ?_) (fun _ => .raise .collab)) (fun _ => .raise .cap)
    simp only [State.withTable_buildTable h h']
    exact .next rfl

/-- With `VERIFY = 1` both runs go on from the same state when they reach the header's checksum (R96, R152). -/
theorem parseHeader_differInTable : DifferInTable (parseHeader s) (parseHeader (s.withTable valid table)) := by
  refine .check .rfl (fun _ => .check .rfl (fun _ => .check .rfl (fun _ => .check .rfl (fun _ => ?_)
    parsePayload_differInTable) (fun _ => .raise .format)) (fun _ => .raise .format)) (fun _ => .raise .trunc)
  simp only [State.withTable_buildTable h h']
  exact .refl (check_next (parsePayload_next s.buildTable) ⟨_, rfl⟩)

theorem execParse_differInTable : DifferInTable (execParse s) (execParse (s.withTable valid table)) :=
  .check .rfl (fun _ => .check .rfl (fun _ => .check .rfl (fun _ => parseHeader_differInTable h h')
    (fun _ => .raise .sig)) (fun _ => .raise .trunc)) (fun _ => .raise .range)

/-! ### The engine's steps -/

/-- No execution step depends on the table it finds (R97). -/
theorem exec_differInTable (i : Instr) : DifferInTable (exec i s) (exec i (s.withTable valid table)) := by
  cases i with
  | nop => exact .next rfl
  | tblinit => exact execTblinit_differInTable h h'
  | crc32 => exact execCrc32_differInTable h h'
  | put32 => exact execPut32_differInTable
  | get32 => exact execGet32_differInTable
  | wrchunk => exact execWrchunk_differInTable h h'
  | rdchunk => exact rdchunkWith_differInTable false false
  | rdchunkT => exact rdchunkWith_differInTable true false
  | rdchunkD => exact rdchunkWith_differInTable false true
  | rdchunkTD => exact rdchunkWith_differInTable true true
  | ckchunk => exact execCkchunk_differInTable h h'
  | encode => exact execEncode_differInTable h h'
  | parse => exact execParse_differInTable h h'
  | inflate => exact execInflate_differInTable
  | tagIhdr | tagIdat | tagIend => exact .raise .illcmd

/-- Nor does the resume step (R97). -/
theorem resumeStep_differInTable : DifferInTable (resumeStep s) (resumeStep (s.withTable valid table)) := by
  have op : (s.withTable valid table).op = s.op := rfl
  have creq : (s.withTable valid table).creq = s.creq := rfl
  have crsp : (s.withTable valid table).crsp = s.crsp := rfl
  unfold resumeStep
  rw [op, creq, crsp]
  split
  · exact resumeEncode_differInTable h h' _ _
  · exact resumeInflate_differInTable _
  · exact .next rfl

end

end Sys2Proof.Machine

section
open Sys2Proof Sys2Proof.Machine

/-- Settles O23: building a valid table leaves it as it is, since it is the table of R91. -/
theorem tblinitBuildsTable : Obligations.TblinitBuildsTable := by
  unfold Obligations.TblinitBuildsTable
  exact ⟨decode_encode .tblinit, fun _ => execTblinit_eq⟩

/-- Settles O28: no byte, some bytes, and a window that wraps. -/
theorem crc32Result : Obligations.Crc32Result := by
  unfold Obligations.Crc32Result
  refine ⟨decode_encode .crc32, fun s h => ⟨fun hf => ?_, fun hf => execCrc32_of_wraps (Nat.not_le.2 hf)⟩⟩
  by_cases h0 : s.len.toNat = 0
  · simp only [h0, if_true]
    exact execCrc32_of_len_zero hf h0
  · simp only [h0, if_false]
    exact execCrc32_of_len_ne_zero h hf h0

/-- Settles O29: a command leaves the table alone, or builds it before it reads it, after which both runs are one. -/
theorem warmTableMakesNoDifference : Obligations.WarmTableMakesNoDifference := by
  unfold Obligations.WarmTableMakesNoDifference
  exact fun s t valid table h h' =>
    ⟨fun i => (exec_differInTable h h' i).exists_next, (resumeStep_differInTable h h').exists_next⟩

end

/-! PROOFS. The big-endian serializer (R105, R106, R111) and the commands `PUT32` and `GET32` (R108, R109). -/

namespace Sys2Proof.Machine

/-! ## The serializer and the deserializer -/

/-- The serialized bytes as numbers (R105); the top one needs no reduction, since nothing stands above it. -/
theorem map_toNat_be32Ser (v : Word) :
    (be32Ser v).map BitVec.toNat =
      [v.toNat / 2 ^ 24, v.toNat / 2 ^ 16 % 256, v.toNat / 2 ^ 8 % 256, v.toNat % 256] := by
  have top : v.toNat / 2 ^ 24 < 256 := by omega
  simpa [be32Ser, Nat.shiftRight_eq_div_pow] using top

/-- The deserialized value as a number (R106): four bytes do not overflow a word. -/
theorem toNat_be32Des (a b c d : Byte) :
    (be32Des [a, b, c, d]).toNat = a.toNat * 2 ^ 24 + b.toNat * 2 ^ 16 + c.toNat * 2 ^ 8 + d.toNat := by
  simp only [be32Des, List.foldl_cons, List.foldl_nil, BitVec.toNat_ofNat]
  omega

/-- Deserializing undoes serializing (R111). -/
theorem be32Des_be32Ser (v : Word) : be32Des (be32Ser v) = v := by
  apply BitVec.eq_of_toNat_eq
  rw [be32Ser, toNat_be32Des]
  simp only [BitVec.extractLsb'_toNat, Nat.shiftRight_eq_div_pow]
  omega

/-- Serializing undoes deserializing four bytes (R111). -/
theorem be32Ser_be32Des (a b c d : Byte) : be32Ser (be32Des [a, b, c, d]) = [a, b, c, d] := by
  apply List.map_injective_iff.2 BitVec.toNat_injective
  rw [map_toNat_be32Ser, toNat_be32Des]
  simp only [List.map_cons, List.map_nil, List.cons.injEq, and_true]
  omega

/-! ## The commands `PUT32` and `GET32` -/

variable {s : State}

/-- The whole effect of `PUT32` in a legal window (R108). -/
theorem execPut32_of_fits (hf : fits s.dstAddr 4) :
    execPut32 s = .next ({ s with mem := s.mem.put32 s.dstAddr s.val }.ended 4 .ok) := by
  rw [execPut32, if_pos hf, State.complete_eq_ended]

/-- `PUT32` to a window that wraps (R108). -/
theorem execPut32_of_wraps (hf : ¬ fits s.dstAddr 4) : execPut32 s = .next (s.ended 0 .range) := by
  rw [execPut32, if_neg hf, State.raise_eq_ended]

/-- The whole effect of `GET32` from a legal window (R109). -/
theorem execGet32_of_fits (hf : fits s.srcAddr 4) :
    execGet32 s = .next
      ({ s with val := s.mem.get32 s.srcAddr }.ended (s.mem.get32 s.srcAddr).toNat .ok) := by
  simp only [execGet32, if_pos hf, State.complete_eq_ended]

/-- `GET32` from a window that wraps (R109). -/
theorem execGet32_of_wraps (hf : ¬ fits s.srcAddr 4) : execGet32 s = .next (s.ended 0 .range) := by
  rw [execGet32, if_neg hf, State.raise_eq_ended]

end Sys2Proof.Machine

section
open Sys2Proof Sys2Proof.Machine

/-- Settles O31: both functions as numbers. -/
theorem bigEndianFields : Obligations.BigEndianFields := by
  unfold Obligations.BigEndianFields
  exact ⟨map_toNat_be32Ser, toNat_be32Des⟩

/-- Settles O32: each function undoes the other, on a word and on a sequence taken apart into its four bytes. -/
theorem serializerIsBijection : Obligations.SerializerIsBijection := by
  unfold Obligations.SerializerIsBijection
  refine ⟨be32Des_be32Ser, fun bytes h => ?_⟩
  obtain ⟨a, b, c, d, rfl⟩ := List.length_eq_four.1 h
  exact be32Ser_be32Des a b c d

/-- Settles O33: the bytes at `DST` and the frame are those of `Put32`; a window that wraps fails before the write. -/
theorem put32Result : Obligations.Put32Result := by
  unfold Obligations.Put32Result
  refine ⟨decode_encode .put32, fun s => ⟨fun hf => ?_, fun hf => execPut32_of_wraps (Nat.not_le.2 hf)⟩⟩
  exact ⟨_, execPut32_of_fits hf, rfl, Memory.readBytes_put32 s.mem _ s.val,
    fun _ => Memory.read_put32_out s.mem _ s.val⟩

/-- Settles O34: the two cases of the source window. -/
theorem get32Result : Obligations.Get32Result := by
  unfold Obligations.Get32Result
  exact ⟨decode_encode .get32, fun _ => ⟨execGet32_of_fits, fun hf => execGet32_of_wraps (Nat.not_le.2 hf)⟩⟩

end

/-! PROOFS. The type-tag router (R115), and the chunk as bytes and in memory (R116, R117). -/

namespace Sys2Proof.Machine

/-! ## The router -/

theorem routed_tags_distinct :
    Config.tagIhdr ≠ Config.tagIdat ∧ Config.tagIhdr ≠ Config.tagIend ∧ Config.tagIdat ≠ Config.tagIend := by decide

theorem route_eq_header_iff {t : Word} : route t = .header ↔ t = Config.tagIhdr := by
  unfold route
  split_ifs <;> simp_all

theorem route_eq_payload_iff {t : Word} : route t = .payload ↔ t = Config.tagIdat := by
  have distinct := routed_tags_distinct
  unfold route
  split_ifs <;> simp_all

theorem route_eq_terminator_iff {t : Word} : route t = .terminator ↔ t = Config.tagIend := by
  have distinct := routed_tags_distinct
  unfold route
  split_ifs <;> simp_all

theorem route_eq_other_iff {t : Word} :
    route t = .other ↔ t ≠ Config.tagIhdr ∧ t ≠ Config.tagIdat ∧ t ≠ Config.tagIend := by
  unfold route
  split_ifs <;> simp_all

/-- The number of a tag's class (R115). -/
theorem toNat_bits_route (t : Word) : (route t).bits.toNat =
    if t = Config.tagIhdr then 1 else if t = Config.tagIdat then 2 else if t = Config.tagIend then 3 else 0 := by
  unfold route
  split_ifs <;> rfl

/-! ## The chunk as a byte sequence -/

section
variable (t : Word) (data : List Byte)

/-- The four fields of a chunk, each in front of what follows it (R116). -/
theorem chunk_eq : chunk t data = be32Ser (BitVec.ofNat 32 data.length) ++
    (be32Ser t ++ (data ++ be32Ser (crc32 (be32Ser t ++ data)))) := by
  simp only [chunk, chunkWith, crc32, List.append_assoc]

theorem chunk_length : (chunk t data).length = data.length + 12 := chunkWith_length crcTable t data

theorem take_four_chunk : (chunk t data).take 4 = be32Ser (BitVec.ofNat 32 data.length) := by
  rw [chunk_eq, List.take_left' (be32Ser_length _)]

theorem drop_four_chunk :
    (chunk t data).drop 4 = be32Ser t ++ (data ++ be32Ser (crc32 (be32Ser t ++ data))) := by
  rw [chunk_eq, List.drop_left' (be32Ser_length _)]

theorem drop_eight_chunk : (chunk t data).drop 8 = data ++ be32Ser (crc32 (be32Ser t ++ data)) := by
  rw [← List.drop_drop (i := 4) (j := 4), drop_four_chunk, List.drop_left' (be32Ser_length _)]

theorem chunkTag_chunk : chunkTag (chunk t data) = t := by
  rw [chunkTag, drop_four_chunk, List.take_left' (be32Ser_length _), be32Des_be32Ser]

variable {data} (short : data.length < 2 ^ 32)
include short

theorem chunkLen_chunk : chunkLen (chunk t data) = data.length := by
  rw [chunkLen, take_four_chunk, be32Des_be32Ser, BitVec.toNat_ofNat, Nat.mod_eq_of_lt short]

theorem chunkData_chunk : chunkData (chunk t data) = data := by
  rw [chunkData, chunkLen_chunk t short, drop_eight_chunk, List.take_left]

theorem chunkStored_chunk : chunkStored (chunk t data) = crc32 (be32Ser t ++ data) := by
  rw [chunkStored, chunkLen_chunk t short, ← List.drop_drop, drop_eight_chunk, List.drop_left,
    List.take_of_length_le (be32Ser_length _).le, be32Des_be32Ser]

/-- The checksum covers the tag and the data (R116, R117). -/
theorem chunkValid_chunk : chunkValid (chunk t data) = true := by
  have covered : ((chunk t data).drop 4).take (4 + data.length) = be32Ser t ++ data := by
    rw [drop_four_chunk, ← List.append_assoc, List.take_left' (by simp)]
  rw [chunkValid, chunkStored_chunk t short, chunkLen_chunk t short, covered, beq_self_eq_true]

end

/-! ## Windows of memory -/

section
variable {m m' : Memory}

/-- Equal byte sequences at two places, byte by byte. -/
theorem Memory.readBytes_eq_readBytes {a b n : Nat} (h : ∀ i, i < n → m.read (a + i) = m'.read (b + i)) :
    m.readBytes a n = m'.readBytes b n := by
  refine List.ext_getElem (by simp) fun i h1 h2 => ?_
  rw [Memory.readBytes_getElem, Memory.readBytes_getElem]
  exact h i (by simpa using h1)

/-- Two memories that give the same byte sequence agree on its window. -/
theorem Memory.read_eq_of_readBytes_eq {a n k : Nat} (h : m.readBytes a n = m'.readBytes a n) (hlo : a ≤ k)
    (hhi : k < a + n) : m.read k = m'.read k := by
  obtain ⟨i, rfl⟩ := Nat.exists_eq_add_of_le hlo
  have hi : i < n := by omega
  rw [← m.readBytes_getElem a n i (by simpa using hi), ← m'.readBytes_getElem a n i (by simpa using hi)]
  simp only [h]

/-- `Get32` loses nothing of the four bytes it reads (R107, R111). -/
theorem Memory.be32Ser_get32 (m : Memory) (a : Nat) : be32Ser (m.get32 a) = m.readBytes a 4 :=
  be32Ser_be32Des _ _ _ _

/-- A window is what stands before one of its bytes, the byte, and what stands after it. -/
theorem Memory.readBytes_split (m : Memory) (a i k : Nat) :
    m.readBytes a (i + (k + 1)) = m.readBytes a i ++ m.read (a + i) :: m.readBytes (a + i + 1) k :=
  m.readBytes_add a i (k + 1)

end

/-! ## The chunk in memory -/

section
variable {m : Memory} {a n : Nat} {t : Word}

/-- The four fields of a chunk in memory, each at its address (R116). -/
theorem Memory.fields_of_readBytes_eq_chunk {data : List Byte}
    (h : m.readBytes a (data.length + 12) = chunk t data) :
    m.readBytes a 4 = be32Ser (BitVec.ofNat 32 data.length) ∧ m.readBytes (a + 4) 4 = be32Ser t ∧
      m.readBytes (a + 8) data.length = data ∧
      m.readBytes (a + 8 + data.length) 4 = be32Ser (crc32 (be32Ser t ++ data)) := by
  rw [show data.length + 12 = 4 + (4 + (data.length + 4)) by omega, m.readBytes_add, m.readBytes_add,
    m.readBytes_add, chunk_eq] at h
  obtain ⟨length, rest⟩ := List.append_inj h (by simp)
  obtain ⟨tag, rest⟩ := List.append_inj rest (by simp)
  obtain ⟨content, checksum⟩ := List.append_inj rest (by simp)
  exact ⟨length, tag, content, checksum⟩

/-- The bytes at `a` are the chunk of the tag `t` and of the `n` bytes in its data field (R116, R120 (b)). -/
structure Memory.HoldsChunk (m : Memory) (a n : Nat) (t : Word) : Prop where
  short : n < 2 ^ 32
  bytes : m.readBytes a (n + 12) = chunk t (m.readBytes (a + 8) n)

namespace Memory.HoldsChunk

theorem of_data {data : List Byte} (hlen : data.length = n) (short : n < 2 ^ 32)
    (bytes : m.readBytes a (n + 12) = chunk t data) : m.HoldsChunk a n t := by
  subst hlen
  obtain ⟨-, -, content, -⟩ := Memory.fields_of_readBytes_eq_chunk bytes
  exact ⟨short, by rw [bytes, content]⟩

variable (h : m.HoldsChunk a n t)
include h

/-- The length, tag and checksum fields; the checksum covers the tag and the data (R116). -/
theorem fields : m.readBytes a 4 = be32Ser (BitVec.ofNat 32 n) ∧ m.readBytes (a + 4) 4 = be32Ser t ∧
    m.readBytes (a + 8 + n) 4 = be32Ser (crc32 (m.readBytes (a + 4) (n + 4))) := by
  have bytes : m.readBytes a ((m.readBytes (a + 8) n).length + 12) = chunk t (m.readBytes (a + 8) n) := by
    rw [m.readBytes_length, h.bytes]
  obtain ⟨length, tag, -, checksum⟩ := Memory.fields_of_readBytes_eq_chunk bytes
  rw [m.readBytes_length] at length checksum
  exact ⟨length, tag, by rw [checksum, Nat.add_comm n, m.readBytes_add _ 4 n, tag]⟩

theorem toNat_get32_length : (m.get32 a).toNat = n := by
  rw [Memory.get32, h.fields.1, be32Des_be32Ser, BitVec.toNat_ofNat, Nat.mod_eq_of_lt h.short]

theorem get32_tag : m.get32 (a + 4) = t := by
  rw [Memory.get32, h.fields.2.1, be32Des_be32Ser]

theorem get32_checksum : m.get32 (a + 8 + n) = crc32 (m.readBytes (a + 4) (n + 4)) := by
  rw [Memory.get32, h.fields.2.2, be32Des_be32Ser]

/-- As a byte sequence it is a chunk of its length and tag, with a valid checksum (R117). -/
theorem reads_back : chunkLen (m.readBytes a (n + 12)) = n ∧ chunkTag (m.readBytes a (n + 12)) = t ∧
    chunkValid (m.readBytes a (n + 12)) = true := by
  have short : (m.readBytes (a + 8) n).length < 2 ^ 32 := by simpa using h.short
  rw [h.bytes]
  exact ⟨(chunkLen_chunk t short).trans (m.readBytes_length _ _), chunkTag_chunk _ _, chunkValid_chunk t short⟩

end Memory.HoldsChunk

end

end Sys2Proof.Machine

section
open Sys2Proof Sys2Proof.Machine

/-- Settles O35: the router's four classes, and the number of each. -/
theorem routeClasses : Obligations.RouteClasses := by
  unfold Obligations.RouteClasses
  exact ⟨toNat_bits_route,
    fun _ => ⟨route_eq_header_iff, route_eq_payload_iff, route_eq_terminator_iff, route_eq_other_iff⟩⟩

/-- Settles O36: a chunk's fields, each taken off the front in turn. -/
theorem chunkReadsBack : Obligations.ChunkReadsBack := by
  unfold Obligations.ChunkReadsBack
  exact fun t data short => ⟨rfl, chunk_length t data, chunkLen_chunk t short, chunkTag_chunk t data,
    chunkData_chunk t short, chunkValid_chunk t short⟩

end

/-! PROOFS. `WRCHUNK` (R118 to R120). -/

namespace Sys2Proof.Machine

variable {s t : State}

/-! ## The bytes it leaves -/

/-- Whatever the overlap, `WRCHUNK` leaves a chunk with the operands' tag and length (R120 (b)). -/
theorem wrchunk_holdsChunk (h : s.tableOk) (short : s.srcLen < 2 ^ 32) :
    (execMem .wrchunk s).HoldsChunk s.dstAddr s.srcLen s.tag := by
  simp only [execMem, s.buildTable_table h]
  split
  · exact .of_data (Memory.readBytes_length ..) short (Memory.readBytes_frameInPlace ..)
  · exact .of_data (Memory.readBytes_length ..) short (Memory.readBytes_frameCopy ..)

/-- The data field that the copying form leaves (R118, R120 (b)): the copy finds at its source what the length and tag
fields and its own earlier bytes have made of it. -/
theorem Memory.read_frameCopy_data (m : Memory) (table : List Word) (dst n : Nat) (t : Word) (src : Nat) {i : Nat}
    (hi : i < n) : (m.frameCopy table dst n t src).read (dst + 8 + i) =
      if dst ≤ src + i ∧ src + i < dst + 8 + i then (m.frameCopy table dst n t src).read (src + i)
      else m.read (src + i) := by
  unfold Memory.frameCopy
  rw [Memory.read_sealChunk_out _ _ _ _ (by omega), Memory.read_copyUp _ _ _ _ hi]
  by_cases copied : dst + 8 ≤ src + i ∧ src + i < dst + 8 + i
  · rw [if_pos copied, if_pos (by omega), Memory.read_sealChunk_out _ _ _ _ (by omega)]
  · rw [if_neg copied]
    by_cases head : dst ≤ src + i ∧ src + i < dst + 8 + i
    · rw [if_pos head, Memory.read_sealChunk_out _ _ _ _ (by omega), Memory.read_copyUp_out _ _ _ _ (by omega)]
    · rw [if_neg head, Memory.read_put32_out _ _ _ (by omega), Memory.read_put32_out _ _ _ (by omega)]

/-- The data field that `WRCHUNK` leaves, byte by byte (R118 to R120). -/
theorem wrchunk_read_data {i : Nat} (hi : i < s.srcLen) : (execMem .wrchunk s).read (s.dstAddr + 8 + i) =
    if s.dstAddr ≤ s.srcAddr + i ∧ s.srcAddr + i < s.dstAddr + 8 + i then (execMem .wrchunk s).read (s.srcAddr + i)
    else s.mem.read (s.srcAddr + i) := by
  by_cases inPlace : s.writesInPlace
  · have source : s.srcAddr = s.dstAddr + 8 := inPlace.resolve_left (by omega)
    rw [if_neg (by omega), source]
    simp only [execMem, if_pos inPlace]
    exact Memory.read_frameInPlace_out _ _ _ _ _ (by omega)
  · simp only [execMem, if_neg inPlace]
    exact Memory.read_frameCopy_data _ _ _ _ _ _ hi

/-- R120 (a): there is no data, or it stands in place, or the two windows do not meet. -/
abbrev State.framesItsData (s : State) : Prop :=
  s.srcLen = 0 ∨ s.srcAddr = s.dstAddr + 8 ∨ s.srcAddr + s.srcLen ≤ s.dstAddr ∨
    s.dstAddr + s.srcLen + 12 ≤ s.srcAddr

/-- Then no source byte is rewritten before it is read, and the chunk's data field is the source (R120 (a)). -/
theorem wrchunk_readBytes_data (ha : s.framesItsData) :
    (execMem .wrchunk s).readBytes (s.dstAddr + 8) s.srcLen = s.mem.readBytes s.srcAddr s.srcLen :=
  Memory.readBytes_eq_readBytes fun i hi => by rw [wrchunk_read_data hi, if_neg (by omega)]

/-- Every other byte is as it was (R118). -/
theorem wrchunk_read_out {a : Nat} (ha : a < s.dstAddr ∨ s.dstAddr + s.srcLen + 12 ≤ a) :
    (execMem .wrchunk s).read a = s.mem.read a := by
  refine execMem_read_out fun hin => ?_
  obtain ⟨hlo, hhi⟩ := inWindows_singleton.1 hin
  simp only at hlo hhi
  omega

/-! ## Its answers -/

/-- The whole effect of `WRCHUNK` where it completes (R118). -/
theorem execWrchunk_of_legal (h : s.tableOk) (hn : s.srcLen < 2 ^ 32) (hdst : fits s.dstAddr (s.srcLen + 12))
    (hsrc : s.writesInPlace ∨ fits s.srcAddr s.srcLen) :
    execWrchunk s = .next
      ({ s with mem := execMem .wrchunk s, tvalid := true, table := crcTable }.ended (s.srcLen + 12) .ok) := by
  rw [execWrchunk, if_pos hn, if_pos hdst]
  by_cases inPlace : s.writesInPlace
  · simp only [execMem, if_pos inPlace, buildTable_of_tableOk h, State.complete_eq_ended]
  · simp only [execMem, if_neg inPlace, if_pos (hsrc.resolve_left inPlace), buildTable_of_tableOk h,
      State.complete_eq_ended]

/-- Operands that no chunk can have (R118, R193). -/
theorem execWrchunk_of_illegal (hbad : 2 ^ 32 ≤ s.srcLen ∨ ¬ fits s.dstAddr (s.srcLen + 12) ∨
    (¬ s.writesInPlace ∧ ¬ fits s.srcAddr s.srcLen)) : execWrchunk s = .next (s.ended 0 .range) := by
  obtain ⟨t, ht⟩ := execWrchunk_next s
  rw [ht]
  rcases execWrchunk_cases ht with rfl | ⟨hn, hdst, inPlace, -⟩ | ⟨hn, hdst, -, hsrc, -⟩
  · rw [State.raise_eq_ended]
  · rcases hbad with hlong | hwraps | ⟨hcopy, -⟩
    exacts [absurd hn (Nat.not_lt.2 hlong), absurd hdst hwraps, absurd inPlace hcopy]
  · rcases hbad with hlong | hwraps | ⟨-, hsrc'⟩
    exacts [absurd hn (Nat.not_lt.2 hlong), absurd hdst hwraps, absurd hsrc hsrc']

/-- What is known of a `WRCHUNK` that has completed (R118). -/
theorem execWrchunk_completed (h : execWrchunk s = .next t) (ok : t.err = .ok) :
    s.srcLen < 2 ^ 32 ∧ t.mem = execMem .wrchunk s := by
  rcases execWrchunk_cases h with rfl | ⟨hn, -, inPlace, rfl⟩ | ⟨hn, -, inPlace, -, rfl⟩
  · cases ok
  · exact ⟨hn, by simp only [execMem, if_pos inPlace, State.complete_mem]⟩
  · exact ⟨hn, by simp only [execMem, if_neg inPlace, State.complete_mem]⟩

end Sys2Proof.Machine

section
open Sys2Proof Sys2Proof.Machine

/-- Settles O37: the checks of R118; the chunk it leaves, field by field; its data, byte by byte; and where no source byte
is rewritten, the chunk of the source. -/
theorem wrchunkWritesTheChunk : Obligations.WrchunkWritesTheChunk := by
  unfold Obligations.WrchunkWritesTheChunk
  refine ⟨decode_encode .wrchunk, fun s h => ⟨fun hbad => execWrchunk_of_illegal ?_, fun hn hdst hsrc => ?_⟩⟩
  · simpa only [State.writesInPlace, fits, not_or, not_le, and_assoc, ne_eq, Nat.add_assoc] using hbad
  · have holds := wrchunk_holdsChunk h hn
    obtain ⟨length, tag, checksum⟩ := holds.fields
    refine ⟨_, execWrchunk_of_legal h hn hdst (by simpa only [or_assoc] using hsrc), rfl, fun _ => wrchunk_read_out, ?_,
      fun _ => wrchunk_read_data, checksum, fun ha => ?_⟩
    · rw [← BitVec.ofNat_toNat, ← length, ← tag]
      exact Memory.readBytes_add _ _ 4 4
    · rw [← wrchunk_readBytes_data ha]
      exact holds.bytes

/-- Settles O38: whatever the data it leaves, the bytes are a chunk of the operands' length and tag. -/
theorem wrchunkIsAlwaysWellFormed : Obligations.WrchunkIsAlwaysWellFormed := by
  unfold Obligations.WrchunkIsAlwaysWellFormed
  intro s t h ht ok
  obtain ⟨short, written⟩ := execWrchunk_completed ht ok
  rw [written]
  exact (wrchunk_holdsChunk h short).reads_back

end

/-! PROOFS. `RDCHUNK` (R121 to R123) and `CKCHUNK` (R125), case by case in the order of their checks. -/

namespace Sys2Proof.Machine

variable {s : State}

/-! ## `RDCHUNK` -/

section
variable {wt wd : Bool}

/-- The four spellings are one operation with its two flags (R62, R121). -/
theorem exec_rdchunk {i : Instr} (hi : (i, wt, wd) ∈ [(Instr.rdchunk, false, false), (.rdchunkT, true, false),
    (.rdchunkD, false, true), (.rdchunkTD, true, true)]) (s : State) : exec i s = rdchunkWith wt wd s := by
  simp only [List.mem_cons, Prod.mk.injEq, List.not_mem_nil, or_false] at hi
  rcases hi with ⟨rfl, rfl, rfl⟩ | ⟨rfl, rfl, rfl⟩ | ⟨rfl, rfl, rfl⟩ | ⟨rfl, rfl, rfl⟩ <;> rfl

/-- Whether the data is copied does not depend on `WT` (R121). -/
theorem exec_rdchunk_exists {i : Instr} (hi : (i, wd) ∈ [(Instr.rdchunk, false), (.rdchunkT, false),
    (.rdchunkD, true), (.rdchunkTD, true)]) (s : State) : ∃ wt, exec i s = rdchunkWith wt wd s := by
  simp only [List.mem_cons, Prod.mk.injEq, List.not_mem_nil, or_false] at hi
  rcases hi with ⟨rfl, rfl⟩ | ⟨rfl, rfl⟩ | ⟨rfl, rfl⟩ | ⟨rfl, rfl⟩
  exacts [⟨false, rfl⟩, ⟨true, rfl⟩, ⟨false, rfl⟩, ⟨true, rfl⟩]

theorem rdchunkWith_of_wraps (hsrc : ¬ fits s.srcAddr s.srcLen) : rdchunkWith wt wd s = .next (s.ended 0 .range) := by
  rw [rdchunkWith, if_neg hsrc, State.raise_eq_ended]

variable (hsrc : fits s.srcAddr s.srcLen)
include hsrc

theorem rdchunkWith_of_no_head (h8 : s.srcLen < 8) : rdchunkWith wt wd s = .next (s.ended 0 .trunc) := by
  rw [rdchunkWith, if_pos hsrc, if_neg (Nat.not_le.2 h8), State.raise_eq_ended]

variable (h8 : 8 ≤ s.srcLen)
include h8

/-- Without a copy the data field need not be there, and `DST` is not looked at (R122 (a), (b), (d)). -/
theorem rdchunkWith_of_not_copies (hc : ¬ s.copiesData wd) : rdchunkWith wt wd s = .next
    ({ s with kind := route s.tagAtSrc, tag := if wt then s.tagAtSrc else s.tag }.ended (s.announced + 12) .ok) := by
  rw [rdchunkWith, if_pos hsrc, if_pos h8, if_neg hc]
  rfl

variable (hc : s.copiesData wd)
include hc

theorem rdchunkWith_of_no_data (hn : s.srcLen < 8 + s.announced) :
    rdchunkWith wt wd s = .next (s.ended 0 .trunc) := by
  rw [rdchunkWith, if_pos hsrc, if_pos h8, if_pos hc, if_neg (Nat.not_le.2 hn), State.raise_eq_ended]

variable (hn : 8 + s.announced ≤ s.srcLen)
include hn

theorem rdchunkWith_of_target_wraps (hdst : ¬ fits s.dstAddr s.announced) :
    rdchunkWith wt wd s = .next (s.ended 0 .range) := by
  rw [rdchunkWith, if_pos hsrc, if_pos h8, if_pos hc, if_pos hn, if_neg hdst, State.raise_eq_ended]

/-- The whole effect with the copy (R121). -/
theorem rdchunkWith_of_copies (hdst : fits s.dstAddr s.announced) : rdchunkWith wt wd s = .next
    ({ s with
        mem := s.mem.copyUp (s.srcAddr + 8) s.dstAddr s.announced
        kind := route s.tagAtSrc
        tag := if wt then s.tagAtSrc else s.tag }.ended (s.announced + 12) .ok) := by
  rw [rdchunkWith, if_pos hsrc, if_pos h8, if_pos hc, if_pos hn, if_pos hdst]
  rfl

end

/-! ## `CKCHUNK` -/

/-- The checksum over the tag and data fields of the chunk at `SRC` (R125). -/
def State.sumAtSrc (s : State) : Word := crc32 (s.mem.readBytes (s.srcAddr + 4) (s.announced + 4))

/-- The checksum field of the chunk at `SRC` (R125). -/
def State.storedAtSrc (s : State) : Word := s.mem.get32 (s.srcAddr + 8 + s.announced)

theorem execCkchunk_of_wraps (hsrc : ¬ fits s.srcAddr s.srcLen) : execCkchunk s = .next (s.ended 0 .range) := by
  rw [execCkchunk, if_neg hsrc, State.raise_eq_ended]

theorem execCkchunk_of_truncated (hsrc : fits s.srcAddr s.srcLen) (hn : s.srcLen < 12 ∨ s.srcLen < s.announced + 12) :
    execCkchunk s = .next (s.ended 0 .trunc) := by
  rw [execCkchunk, if_pos hsrc]
  split
  · rw [if_neg (by omega), State.raise_eq_ended]
  · rw [State.raise_eq_ended]

section
variable (h : s.tableOk) (hsrc : fits s.srcAddr s.srcLen) (hn : s.announced + 12 ≤ s.srcLen)
include h hsrc hn

/-- With the whole chunk in the window the two checksums decide (R125). -/
theorem execCkchunk_of_whole : execCkchunk s =
    if s.sumAtSrc = s.storedAtSrc then
      .next ({ s with tvalid := true, table := crcTable, kind := route s.tagAtSrc }.ended (s.announced + 12) .ok)
    else .next ({ s with tvalid := true, table := crcTable }.ended 0 .corrupt) := by
  rw [execCkchunk, if_pos hsrc, if_pos (by omega), if_pos hn]
  simp only [buildTable_of_tableOk h]
  rfl

theorem execCkchunk_of_match (hsum : s.sumAtSrc = s.storedAtSrc) : execCkchunk s =
    .next ({ s with tvalid := true, table := crcTable, kind := route s.tagAtSrc }.ended (s.announced + 12) .ok) := by
  rw [execCkchunk_of_whole h hsrc hn, if_pos hsum]

theorem execCkchunk_of_mismatch (hsum : s.sumAtSrc ≠ s.storedAtSrc) :
    execCkchunk s = .next ({ s with tvalid := true, table := crcTable }.ended 0 .corrupt) := by
  rw [execCkchunk_of_whole h hsrc hn, if_neg hsum]

end

end Sys2Proof.Machine

section
open Sys2Proof Sys2Proof.Machine

/-- Settles O39: the equation of either case; the copied bytes are those of the ascending loop. -/
theorem rdchunkResults : Obligations.RdchunkResults := by
  unfold Obligations.RdchunkResults
  intro i wt wd s hi hsrc h8
  rw [exec_rdchunk hi]
  refine ⟨fun hc => rdchunkWith_of_not_copies hsrc h8 ?_, fun hwd hcap hn hdst => ?_⟩
  · rintro ⟨hwd, hcap⟩
    rcases hc with hc | hc
    · exact absurd hwd (by simp [hc])
    · exact absurd hcap (Nat.not_le.2 hc)
  · exact ⟨_, rdchunkWith_of_copies hsrc h8 ⟨hwd, hcap⟩ hn hdst, rfl, fun _ => Memory.read_copyUp_out _ _ _ _,
      fun _ => Memory.read_copyUp _ _ _ _, Memory.readBytes_copyUp _ _ _ _⟩

/-- Settles O40: each check in its place, before any write. -/
theorem rdchunkFailures : Obligations.RdchunkFailures := by
  unfold Obligations.RdchunkFailures
  intro i wd s hi
  obtain ⟨wt, hexec⟩ := exec_rdchunk_exists hi s
  rw [hexec]
  exact ⟨fun hw => rdchunkWith_of_wraps (Nat.not_le.2 hw), rdchunkWith_of_no_head, fun hsrc h8 hwd hcap =>
    ⟨rdchunkWith_of_no_data hsrc h8 ⟨hwd, hcap⟩, fun hn hw =>
      rdchunkWith_of_target_wraps hsrc h8 ⟨hwd, hcap⟩ hn (Nat.not_le.2 hw)⟩⟩

/-- Settles O41: each check in its place; then the two checksums decide. -/
theorem ckchunkResults : Obligations.CkchunkResults := by
  unfold Obligations.CkchunkResults
  refine ⟨decode_encode .ckchunk, fun s h => ⟨fun hw => execCkchunk_of_wraps (Nat.not_le.2 hw), fun hsrc =>
    ⟨execCkchunk_of_truncated hsrc, fun _ hn => ⟨?_, ?_⟩⟩⟩⟩
  · exact execCkchunk_of_mismatch h hsrc hn
  · exact execCkchunk_of_match h hsrc hn

end

/-! PROOFS. A written chunk read back, and a damaged one (R126). -/

namespace Sys2Proof.Machine

variable {s : State} {t : Word} {n : Nat}

/-! ## A whole chunk at `SRC` -/

section
variable (h : s.mem.HoldsChunk s.srcAddr n t) (hsrc : fits s.srcAddr s.srcLen) (hn : n + 12 ≤ s.srcLen)
include h hsrc hn

/-- A whole chunk passes `CKCHUNK` (R126). -/
theorem execCkchunk_of_holdsChunk (htable : s.tableOk) : execCkchunk s =
    .next ({ s with tvalid := true, table := crcTable, kind := route t }.ended (n + 12) .ok) := by
  have announced : s.announced = n := h.toNat_get32_length
  have tag : s.tagAtSrc = t := h.get32_tag
  have valid : s.sumAtSrc = s.storedAtSrc := by
    rw [State.sumAtSrc, State.storedAtSrc, announced, h.get32_checksum]
  rw [execCkchunk_of_match htable hsrc (by rwa [announced]) valid, announced, tag]

/-- `RDCHUNK.TD` returns its tag and copies its data, unless the destination meets the data field (R126, R122 (g)). -/
theorem execRdchunkTD_of_holdsChunk (hcap : n ≤ s.dstCap) (hdst : fits s.dstAddr n)
    (apart : s.srcAddr + 8 + n ≤ s.dstAddr ∨ s.dstAddr + n ≤ s.srcAddr + 8) :
    ∃ m : Memory, execRdchunkTD s = .next ({ s with mem := m, kind := route t, tag := t }.ended (n + 12) .ok) ∧
      m.readBytes s.dstAddr n = s.mem.readBytes (s.srcAddr + 8) n := by
  have announced : s.announced = n := h.toNat_get32_length
  have tag : s.tagAtSrc = t := h.get32_tag
  refine ⟨s.mem.copyUp (s.srcAddr + 8) s.dstAddr n, ?_, Memory.readBytes_copyUp _ _ _ _ apart⟩
  rw [execRdchunkTD, rdchunkWith_of_copies hsrc (by omega) ⟨rfl, by rwa [announced]⟩ (by omega) (by rwa [announced]),
    announced, tag]
  rfl

end

/-! ## One damaged byte -/

/-- A changed byte changes the 32-bit field it lies in (R111). -/
theorem Memory.get32_ne {m m' : Memory} {a b : Nat} (changed : m'.read a ≠ m.read a) (hlo : b ≤ a) (hhi : a < b + 4) :
    m'.get32 b ≠ m.get32 b := fun h =>
  changed (Memory.read_eq_of_readBytes_eq (by rw [← Memory.be32Ser_get32, h, Memory.be32Ser_get32]) hlo hhi)

section
variable {m m' : Memory} {a : Nat} (same : ∀ k, k ≠ a → m'.read k = m.read k) (changed : m'.read a ≠ m.read a)
include same

/-- A window without the changed byte reads as before. -/
theorem Memory.readBytes_of_same {b n : Nat} (hout : a < b ∨ b + n ≤ a) : m'.readBytes b n = m.readBytes b n :=
  Memory.readBytes_congr fun k _ _ => same k (by omega)

theorem Memory.get32_of_same {b : Nat} (hout : a < b ∨ b + 4 ≤ a) : m'.get32 b = m.get32 b :=
  congrArg be32Des (Memory.readBytes_of_same same hout)

include changed

/-- A changed byte changes the checksum of every window it lies in (R92, R94). -/
theorem crc32_readBytes_ne {b n : Nat} (hlo : b ≤ a) (hhi : a < b + n) :
    crc32 (m'.readBytes b n) ≠ crc32 (m.readBytes b n) := by
  obtain ⟨i, rfl⟩ := Nat.exists_eq_add_of_le hlo
  obtain ⟨k, rfl⟩ : ∃ k, n = i + (k + 1) := ⟨n - i - 1, by omega⟩
  rw [Memory.readBytes_split, Memory.readBytes_split, Memory.readBytes_of_same same (by omega),
    Memory.readBytes_of_same same (by omega)]
  exact checksumSeesOneChangedByte _ _ _ _ changed

end

/-- A chunk with one byte of its tag, data or checksum field changed fails `CKCHUNK` (R126, G5): the change is in the
bytes that the checksum covers, or in the checksum field. -/
theorem execCkchunk_of_damaged {m : Memory} {a : Nat} (h : m.HoldsChunk s.srcAddr n t)
    (same : ∀ k, k ≠ a → s.mem.read k = m.read k) (changed : s.mem.read a ≠ m.read a) (hlo : s.srcAddr + 4 ≤ a)
    (hhi : a < s.srcAddr + n + 12) (htable : s.tableOk) (hsrc : fits s.srcAddr s.srcLen) (hn : n + 12 ≤ s.srcLen) :
    execCkchunk s = .next ({ s with tvalid := true, table := crcTable }.ended 0 .corrupt) := by
  have announced : s.announced = n := by
    rw [State.announced, Memory.get32_of_same same (by omega), h.toNat_get32_length]
  refine execCkchunk_of_mismatch htable hsrc (by rwa [announced]) ?_
  rw [State.sumAtSrc, State.storedAtSrc, announced]
  by_cases covered : a < s.srcAddr + 8 + n
  · rw [Memory.get32_of_same same (by omega), h.get32_checksum]
    exact crc32_readBytes_ne same changed hlo (by omega)
  · rw [Memory.readBytes_of_same same (by omega), ← h.get32_checksum]
    exact (Memory.get32_ne changed (by omega) (by omega)).symm

end Sys2Proof.Machine

section
open Sys2Proof Sys2Proof.Machine

/-- Settles O42: the chunk of the source stands at the later state's `SRC`. -/
theorem writtenChunkVerifiesAndReadsBack : Obligations.WrittenChunkVerifiesAndReadsBack := by
  unfold Obligations.WrittenChunkVerifiesAndReadsBack
  intro s t u h ht ok apart hmem htable hu hlen hsrc
  obtain ⟨short, written⟩ := execWrchunk_completed ht ok
  have place : u.srcAddr = s.dstAddr := congrArg BitVec.toNat hu
  have holds : u.mem.HoldsChunk u.srcAddr s.srcLen s.tag := by
    rw [hmem, written, place]
    exact wrchunk_holdsChunk h short
  refine ⟨execCkchunk_of_holdsChunk holds hsrc hlen htable, fun hcap hdst hdata => ?_⟩
  obtain ⟨m, hv, copied⟩ := execRdchunkTD_of_holdsChunk holds hsrc hlen hcap hdst hdata
  refine ⟨_, hv, rfl, rfl, Nat.mod_eq_of_lt (by omega), copied.trans ?_⟩
  rw [hmem, written, place]
  exact wrchunk_readBytes_data apart

/-- Settles O43: the bytes that `WRCHUNK` left are a whole chunk, whatever the overlap. -/
theorem damagedChunkIsDetected : Obligations.DamagedChunkIsDetected := by
  unfold Obligations.DamagedChunkIsDetected
  intro s t u a h ht ok hlo hhi same changed htable hu hlen hsrc
  obtain ⟨short, written⟩ := execWrchunk_completed ht ok
  have place : u.srcAddr = s.dstAddr := congrArg BitVec.toNat hu
  have holds : t.mem.HoldsChunk u.srcAddr s.srcLen s.tag := by
    rw [written, place]
    exact wrchunk_holdsChunk h short
  exact execCkchunk_of_damaged holds same changed (by rwa [place]) (by rwa [place]) htable hsrc hlen

end

/-! PROOFS. The container encoder (R136 to R142): the bytes that each half of `ENCODE` leaves, the answers of each half, and
the run of both with the collaborator's step between them. -/

namespace Sys2Proof.Machine

variable {s : State}

/-! ## The bytes that the first half leaves -/

/-- The signature and the header chunk (R137, R138). -/
theorem State.readBytes_encodedHeader (h : s.tableOk) (sig : Signature) : (s.encodedHeader sig).readBytes s.dstAddr 33 =
    sig.toList ++ chunk Config.tagIhdr (hdr s.width s.height s.depth) := by
  have header := (s.mem.writeBytes s.dstAddr sig.toList).readBytes_writeBytes (s.dstAddr + 8)
    (chunk Config.tagIhdr (hdr s.width s.height s.depth))
  have signature := s.mem.readBytes_writeBytes s.dstAddr sig.toList
  rw [chunk_length, hdr_length] at header
  rw [Vector.length_toList] at signature
  rw [State.encodedHeader, s.buildTable_table h, Memory.readBytes_add _ _ 8 25,
    Memory.readBytes_writeBytes_out _ _ (.inl le_rfl), signature]
  exact congrArg _ header

/-- Every other byte is as it was (R137, R138). -/
theorem State.read_encodedHeader_out {a : Nat} (ha : a < s.dstAddr ∨ s.dstAddr + 33 ≤ a) :
    (s.encodedHeader s.sig).read a = s.mem.read a := by
  refine execMem_read_out (i := .encode) fun hin => ?_
  obtain ⟨hlo, hhi⟩ := inWindows_singleton.1 hin
  simp only at hlo hhi
  omega

/-! ## The bytes that the second half leaves -/

/-- The payload chunk around the bytes in place, and the terminator chunk (R141). -/
theorem State.readBytes_encodedRest (h : s.tableOk) (n : Nat) : (s.encodedRest n).readBytes (s.dstAddr + 33) (24 + n) =
    chunk Config.tagIdat (s.mem.readBytes (s.dstAddr + 41) n) ++ chunk Config.tagIend [] := by
  have payload := s.mem.readBytes_frameInPlace crcTable (s.dstAddr + 33) n Config.tagIdat
  have terminator := (s.mem.frameInPlace crcTable (s.dstAddr + 33) n Config.tagIdat).readBytes_writeBytes
    (s.dstAddr + 45 + n) (chunk Config.tagIend [])
  rw [chunk_length, List.length_nil] at terminator
  rw [State.encodedRest, s.buildTable_table h, show 24 + n = n + 12 + 12 by omega, Memory.readBytes_add,
    Memory.readBytes_writeBytes_out _ _ (by omega), payload, show s.dstAddr + 33 + (n + 12) = s.dstAddr + 45 + n by omega]
  exact congrArg _ terminator

/-- The payload and every byte outside the two chunks are as they were (R141). -/
theorem State.read_encodedRest_out {a n : Nat} (ha : a < s.dstAddr + 33 ∨ (s.dstAddr + 41 ≤ a ∧ a < s.dstAddr + 41 + n) ∨
    s.dstAddr + 57 + n ≤ a) : (s.encodedRest n).read a = s.mem.read a := by
  rw [State.encodedRest, Memory.read_writeBytes_out, Memory.read_frameInPlace_out _ _ _ _ _ (by omega)]
  rw [chunkWith_length, List.length_nil]
  omega

/-- Behind a signature and a header chunk the second half completes the container (R142). -/
theorem State.readBytes_encodedRest_container (h : s.tableOk) {sig : Signature} {width height : Word} {depth : Byte}
    (header : s.mem.readBytes s.dstAddr 33 = sig.toList ++ chunk Config.tagIhdr (hdr width height depth)) (n : Nat) :
    (s.encodedRest n).readBytes s.dstAddr (57 + n) =
      container sig width height depth (s.mem.readBytes (s.dstAddr + 41) n) := by
  have kept : (s.encodedRest n).readBytes s.dstAddr 33 = s.mem.readBytes s.dstAddr 33 :=
    Memory.readBytes_congr fun _ _ hhi => State.read_encodedRest_out (.inl hhi)
  rw [show 57 + n = 33 + (24 + n) by omega, Memory.readBytes_add, kept, header, State.readBytes_encodedRest h, container]
  simp only [List.append_assoc]

/-! ## The answers of the first half -/

/-- A window that wraps, whatever `CAP` is (R136, R193). -/
theorem execEncode_of_wraps (hw : ¬ fits s.dstAddr s.dstCap ∨ ¬ fits s.srcAddr s.srcLen) :
    execEncode s = .next (s.ended 0 .range) := by
  rw [execEncode, encodeFirstHalf]
  split
  · rw [if_neg (hw.resolve_left (not_not_intro ‹_›)), State.raise_eq_ended]
  · rw [State.raise_eq_ended]

/-- The state in which the first half of `ENCODE` leaves its request (R137 to R139); `execEncode_of_room` ties it to
`ENCODE`. -/
def State.encodeSent (s : State) : State :=
  { s with mem := s.encodedHeader s.sig, tvalid := true, table := crcTable }.request s.compressRequest

section
variable (hdst : fits s.dstAddr s.dstCap) (hsrc : fits s.srcAddr s.srcLen)
include hdst hsrc

/-- A capacity that no container fits (R136, R187). -/
theorem execEncode_of_small (hcap : s.dstCap < Config.minOut) : execEncode s = .next (s.ended 0 .cap) := by
  rw [execEncode, encodeFirstHalf, if_pos hdst, if_pos hsrc, if_neg (Nat.not_le.2 hcap), State.raise_eq_ended]

/-- The whole effect of the first half where its checks pass (R137 to R139). -/
theorem execEncode_of_room (hcap : Config.minOut ≤ s.dstCap) (h : s.tableOk) : execEncode s = .next s.encodeSent := by
  rw [execEncode, encodeFirstHalf, if_pos hdst, if_pos hsrc, if_pos hcap, State.encodeSent, State.encodedHeader]
  simp only [buildTable_of_tableOk h]

end

/-! ## The request (R139) -/

theorem State.compressRequest_outAddr (s : State) : s.compressRequest.outAddr = s.dst + 41#64 := by
  simp [State.compressRequest, BitVec.ofNat_add]

theorem State.compressRequest_outMax (s : State) : s.compressRequest.outMax.toNat = s.budget := by
  rw [State.compressRequest, BitVec.toNat_ofNat, Nat.mod_eq_of_lt]
  exact lt_of_le_of_lt (Nat.min_le_right _ _) (by decide)

/-- The collaborator's window begins where the payload is to stand (R139, R141). -/
theorem State.compressRequest_outWindow (hdst : fits s.dstAddr s.dstCap) (hcap : Config.minOut ≤ s.dstCap) :
    s.compressRequest.outWindow = ⟨s.dstAddr + 41, s.budget⟩ := by
  have place : s.compressRequest.outAddr.toNat = s.dstAddr + 41 := by
    simp only [fits, Config.alen, Config.minOut] at hdst hcap
    exact Nat.mod_eq_of_lt (by omega)
  rw [CReq.outWindow, place, s.compressRequest_outMax]

/-! ## The answers of the second half -/

section
variable {q : CReq} {k : DWord}

theorem resumeEncode_error : resumeEncode q .error s = .next (s.ended 0 .collab) := rfl

theorem resumeEncode_of_over (hk : q.outMax.toNat < k.toNat) : resumeEncode q (.ok k) s = .next (s.ended 0 .cap) := by
  simp only [resumeEncode, if_neg (Nat.not_le.2 hk), State.raise_eq_ended]

theorem resumeEncode_of_zero (hk : k.toNat = 0) : resumeEncode q (.ok k) s = .next (s.ended 0 .collab) := by
  simp [resumeEncode, hk, State.raise_eq_ended]

/-- The whole effect of the second half on an answer within the request (R141). -/
theorem resumeEncode_of_within (h : s.tableOk) (hpos : 1 ≤ k.toNat) (hk : k.toNat ≤ q.outMax.toNat) :
    resumeEncode q (.ok k) s = .next
      ({ s with mem := s.encodedRest k.toNat, tvalid := true, table := crcTable }.ended (57 + k.toNat) .ok) := by
  simp only [resumeEncode, if_pos hk, if_pos hpos, State.encodedRest, buildTable_of_tableOk h, State.complete_eq_ended]

end

/-! ## The engine's two steps -/

/-- The execution step runs the command in `OP` (R174). -/
theorem engineStep_of_busy {i : Instr} (hp : s.phase = .busy) (hop : decode s.op = .ok i) : engineStep s = exec i s := by
  simp only [engineStep, hp, executionStep, hop]

/-- The resume step of `ENCODE` runs its second half (R178). -/
theorem engineStep_of_resume_encode {q : CReq} {r : CRsp} (hp : s.phase = .resume) (hop : decode s.op = .ok .encode)
    (hq : s.creq = some q) (hr : s.crsp = some r) : engineStep s = resumeEncode q r s := by
  simp only [engineStep, hp, resumeStep, hop, hq, hr]

/-! ## The run -/

/-- The state in which the collaborator's step leaves the request of `ENCODE` (R177); `step_encodeSent` ties it to that
step. -/
def State.encodeAnswered (s : State) (ws : List (DWord × Byte)) (r : CRsp) : State :=
  { s.encodeSent with
    mem := (s.encodedHeader s.sig).writeWithin [s.compressRequest.outWindow] ws
    crsp := some r
    phase := .resume }

section
variable {ws : List (DWord × Byte)} {r : CRsp}
variable (hdst : fits s.dstAddr s.dstCap) (hcap : Config.minOut ≤ s.dstCap)
include hdst hcap

/-- The collaborator changes bytes of its window only (R50, R139). -/
theorem State.read_encodeAnswered_out {a : Nat} (ha : a < s.dstAddr + 41 ∨ s.dstAddr + 41 + s.budget ≤ a) :
    (s.encodeAnswered ws r).mem.read a = (s.encodedHeader s.sig).read a := by
  refine Memory.read_writeWithin_out _ _ _ ?_
  rw [State.compressRequest_outWindow hdst hcap, inWindows_singleton]
  simp only [Window.holds]
  omega

/-- So the signature and the header chunk stand (R142). -/
theorem State.readBytes_encodeAnswered (h : s.tableOk) : (s.encodeAnswered ws r).mem.readBytes s.dstAddr 33 =
    s.sig.toList ++ chunk Config.tagIhdr (hdr s.width s.height s.depth) := by
  rw [← State.readBytes_encodedHeader h]
  exact Memory.readBytes_congr fun _ _ hhi => State.read_encodeAnswered_out hdst hcap (.inl (by omega))

/-- What stands at `DST` after both halves is the container of the registers and of the payload the collaborator left
(R142). -/
theorem State.readBytes_encoded (h : s.tableOk) (n : Nat) :
    ((s.encodeAnswered ws r).encodedRest n).readBytes s.dstAddr (57 + n) =
      container s.sig s.width s.height s.depth ((s.encodeAnswered ws r).mem.readBytes (s.dstAddr + 41) n) :=
  State.readBytes_encodedRest_container (s := s.encodeAnswered ws r) ⟨crcTable_length, fun _ => rfl⟩
    (State.readBytes_encodeAnswered hdst hcap h) n

/-- Outside the container and the collaborator's window nothing has changed (R142). -/
theorem State.read_encoded_out {a n : Nat}
    (ha : a < s.dstAddr ∨ (s.dstAddr + 57 + n ≤ a ∧ s.dstAddr + 41 + s.budget ≤ a)) :
    ((s.encodeAnswered ws r).encodedRest n).read a = s.mem.read a := by
  have place : (s.encodeAnswered ws r).dstAddr = s.dstAddr := rfl
  rw [State.read_encodedRest_out (by omega), State.read_encodeAnswered_out hdst hcap (by omega),
    State.read_encodedHeader_out (by omega)]

end

/-- What `ENCODE` writes does not depend on the moves to come. -/
theorem State.encodeSent_withAgenda (s : State) (rest : List Move) :
    { s with agenda := rest }.encodeSent = { s.encodeSent with agenda := rest } := by
  have table : { s with agenda := rest }.buildTable.table = s.buildTable.table := by
    unfold State.buildTable
    split <;> rfl
  simp only [State.encodeSent, State.encodedHeader, table]
  rfl

/-- The execution step sends the request (R174). -/
theorem step_encode {rest : List Move} (hop : decode s.op = .ok .encode) (h : s.tableOk) (hp : s.phase = .busy)
    (ha : s.agenda = .engine :: rest) (hdst : fits s.dstAddr s.dstCap) (hsrc : fits s.srcAddr s.srcLen)
    (hcap : Config.minOut ≤ s.dstCap) :
    step s = .next { s.encodeSent with agenda := rest } := by
  rw [step_of_cons ha, ← s.encodeSent_withAgenda]
  exact (engineStep_of_busy (s := { s with agenda := rest }) hp hop).trans (execEncode_of_room hdst hsrc hcap h)

/-- The collaborator answers the request (R177). -/
theorem step_encodeSent (s : State) (ws : List (DWord × Byte)) (r : CRsp) (rest : List Move) :
    step { s.encodeSent with agenda := .collaborator ws r :: rest } = .next { s.encodeAnswered ws r with agenda := rest } :=
  congrArg Host.Outcome.next
    (collaboratorStep_of_waitc (s := { s.encodeSent with agenda := rest }) (q := s.compressRequest) rfl rfl ws r)

/-- The resume step writes the rest (R178). -/
theorem step_encodeAnswered {k : DWord} (hop : decode s.op = .ok .encode) (ws : List (DWord × Byte)) (rest : List Move)
    (hpos : 1 ≤ k.toNat) (hk : k.toNat ≤ s.budget) :
    step { s.encodeAnswered ws (.ok k) with agenda := .engine :: rest } = .next ({ s with
      mem := (s.encodeAnswered ws (.ok k)).encodedRest k.toNat
      tvalid := true, table := crcTable, agenda := rest }.ended (57 + k.toNat) .ok) := by
  have resumes : engineStep { s.encodeAnswered ws (.ok k) with agenda := rest } =
      resumeEncode s.compressRequest (.ok k) { s.encodeAnswered ws (.ok k) with agenda := rest } :=
    engineStep_of_resume_encode rfl hop rfl rfl
  have within : k.toNat ≤ s.compressRequest.outMax.toNat := by rwa [s.compressRequest_outMax]
  exact resumes.trans (resumeEncode_of_within ⟨crcTable_length, fun _ => rfl⟩ hpos within)

/-- `ENCODE` from its execution step to its end, with an answer within the budget (R174, R177, R178). -/
theorem runSteps_encode {ws : List (DWord × Byte)} {k : DWord} (h : s.tableOk) (hp : s.phase = .busy)
    (hop : decode s.op = .ok .encode) (ha : s.agenda = [.engine, .collaborator ws (.ok k), .engine])
    (hdst : fits s.dstAddr s.dstCap) (hsrc : fits s.srcAddr s.srcLen) (hcap : Config.minOut ≤ s.dstCap)
    (hpos : 1 ≤ k.toNat) (hk : k.toNat ≤ s.budget) :
    runSteps 2 s = .next { s.encodeAnswered ws (.ok k) with agenda := [.engine] } ∧
      runSteps 3 s = .next ({ s with
        mem := (s.encodeAnswered ws (.ok k)).encodedRest k.toNat
        tvalid := true, table := crcTable, agenda := [] }.ended (57 + k.toNat) .ok) := by
  have two (n : Nat) : runSteps (n + 2) s = runSteps n { s.encodeAnswered ws (.ok k) with agenda := [.engine] } := by
    rw [runSteps_next (step_encode hop h hp ha hdst hsrc hcap), runSteps_next (step_encodeSent s ws (.ok k) [.engine])]
  exact ⟨two 0, (two 1).trans (runSteps_next (step_encodeAnswered hop ws [] hpos hk))⟩

end Sys2Proof.Machine

section
open Sys2Proof Sys2Proof.Machine

/-- Settles O44: each check in its place, before any write; then the whole effect, and the bytes it leaves. -/
theorem encodeSendsItsRequest : Obligations.EncodeSendsItsRequest := by
  unfold Obligations.EncodeSendsItsRequest
  refine fun s h => ⟨fun hw => execEncode_of_wraps (hw.imp Nat.not_le.2 Nat.not_le.2), execEncode_of_small,
    fun hdst hsrc hcap => ⟨_, execEncode_of_room hdst hsrc hcap h, ?_, State.readBytes_encodedHeader h s.sig,
      fun _ => State.read_encodedHeader_out⟩⟩
  rw [← s.compressRequest_outAddr]
  rfl

/-- Settles O45: the equation of each answer, and the bytes that the framing leaves. -/
theorem encodeFramesTheAnswer : Obligations.EncodeFramesTheAnswer := by
  unfold Obligations.EncodeFramesTheAnswer
  intro s q r h hp hop ha hq hr
  have resumes : step s = resumeEncode q r s := by
    rw [step_of_nil ha]
    exact engineStep_of_resume_encode hp (by rw [hop]; exact decode_encode .encode) hq hr
  rw [resumes]
  refine ⟨fun he => by rw [he, resumeEncode_error], fun k hk => ?_⟩
  subst hk
  exact ⟨resumeEncode_of_over, resumeEncode_of_zero, fun hpos hmax _ => ⟨_, resumeEncode_of_within h hpos hmax, rfl,
    State.readBytes_encodedRest h _, fun _ => State.read_encodedRest_out⟩⟩

/-- Settles O46: the run, and behind the header that the collaborator could not touch, the rest of the container. -/
theorem encodeBuildsTheContainer : Obligations.EncodeBuildsTheContainer := by
  unfold Obligations.EncodeBuildsTheContainer
  intro s ws k h hp hop ha hdst hsrc hcap hpos hk
  obtain ⟨two, three⟩ := runSteps_encode h hp (by rw [hop]; exact decode_encode .encode) ha hdst hsrc hcap hpos hk
  exact ⟨_, _, two, three, rfl, State.readBytes_encoded hdst hcap h _, fun _ => State.read_encoded_out hdst hcap⟩

end

/-! PROOFS. `INFLATE` (R158, R160) and the raw size (R151). -/

namespace Sys2Proof.Machine

variable {s : State}

/-! ## The two halves of `INFLATE` -/

/-- A window that wraps (R158, R193). -/
theorem execInflate_of_wraps (hw : ¬ fits s.srcAddr s.srcLen ∨ ¬ fits s.dstAddr s.dstCap) :
    execInflate s = .next (s.ended 0 .range) := by
  rw [execInflate]
  split
  · rw [if_neg (hw.resolve_left (not_not_intro ‹_›)), State.raise_eq_ended]
  · rw [State.raise_eq_ended]

/-- The whole effect of the first half where its checks pass (R158). -/
theorem execInflate_of_fits (hsrc : fits s.srcAddr s.srcLen) (hdst : fits s.dstAddr s.dstCap) :
    execInflate s = .next (s.request s.decompressRequest) := by
  rw [execInflate, if_pos hsrc, if_pos hdst]

/-- The resume step of `INFLATE` runs its second half (R178). -/
theorem engineStep_of_resume_inflate {q : CReq} {r : CRsp} (hp : s.phase = .resume) (hop : decode s.op = .ok .inflate)
    (hq : s.creq = some q) (hr : s.crsp = some r) : engineStep s = resumeInflate r s := by
  simp only [engineStep, hp, resumeStep, hop, hq, hr]

section
variable {k : DWord}

theorem resumeInflate_error : resumeInflate .error s = .next (s.ended 0 .collab) := rfl

theorem resumeInflate_of_over (hk : s.dstCap < k.toNat) : resumeInflate (.ok k) s = .next (s.ended 0 .cap) := by
  simp only [resumeInflate, if_neg (Nat.not_le.2 hk), State.raise_eq_ended]

theorem resumeInflate_of_zero (hk : k.toNat = 0) : resumeInflate (.ok k) s = .next (s.ended 0 .collab) := by
  simp [resumeInflate, hk, State.raise_eq_ended]

theorem resumeInflate_of_within (hpos : 1 ≤ k.toNat) (hk : k.toNat ≤ s.dstCap) :
    resumeInflate (.ok k) s = .next (s.ended k.toNat .ok) := by
  simp only [resumeInflate, if_pos hk, if_pos hpos, State.complete_eq_ended]

end

/-! ## The raw size -/

/-- The bits of a raster need `32 + 32 + 8` bits to count (R151). -/
theorem rasterBits_lt (w h : Word) (d : Byte) : w.toNat * h.toNat * d.toNat < 2 ^ 72 :=
  calc w.toNat * h.toNat * d.toNat < 2 ^ 32 * 2 ^ 32 * 2 ^ 8 :=
        Nat.mul_lt_mul'' (Nat.mul_lt_mul'' w.isLt h.isLt) d.isLt
    _ = 2 ^ 72 := by decide

/-- So the bytes fit `RESULT` (R16, R151). -/
theorem rawSize_lt (w h : Word) (d : Byte) : rawSize w h d < 2 ^ 69 :=
  Nat.div_lt_of_lt_mul (rasterBits_lt w h d)

end Sys2Proof.Machine

section
open Sys2Proof Sys2Proof.Machine

/-- Settles O52: three factors of 32, 32 and 8 bits. -/
theorem rawSizeFitsResult : Obligations.RawSizeFitsResult := by
  unfold Obligations.RawSizeFitsResult
  exact ⟨fun w h d => ⟨rfl, rasterBits_lt w h d, Nat.mod_eq_of_lt (rawSize_lt w h d)⟩, by decide⟩

/-- Settles O53: the two range checks. -/
theorem inflateSendsItsRequest : Obligations.InflateSendsItsRequest := by
  unfold Obligations.InflateSendsItsRequest
  exact ⟨decode_encode .inflate, fun s =>
    ⟨execInflate_of_fits, fun hw => execInflate_of_wraps (hw.imp Nat.not_le.2 Nat.not_le.2)⟩⟩

/-- Settles O54: the equation of each answer. -/
theorem inflateReportsTheAnswer : Obligations.InflateReportsTheAnswer := by
  unfold Obligations.InflateReportsTheAnswer
  intro s q r hp hop ha hq hr
  have resumes : step s = resumeInflate r s := by
    rw [step_of_nil ha]
    exact engineStep_of_resume_inflate hp (by rw [hop]; exact decode_encode .inflate) hq hr
  rw [resumes]
  refine ⟨fun he => by rw [he, resumeInflate_error], fun k hk => ?_⟩
  subst hk
  exact ⟨resumeInflate_of_over, resumeInflate_of_zero, resumeInflate_of_within⟩

end

/-! PROOFS. `PARSE` (R152, R153): the code it ends with, and the state it leaves. -/

namespace Sys2Proof.Machine

variable {s t : State}

/-! ## The code of the first failing check -/

/-- The data length that the payload chunk announces (R152, step 4). -/
def State.payloadLen (s : State) : Nat := (s.mem.get32 (s.srcAddr + 33)).toNat

/-- The checks that only `VERIFY = 1` makes behind the payload chunk's length and tag, in the order of R153;
`parseVerified_endsWith` ties it to `PARSE`. -/
def State.verifiedCode (s : State) : ErrCode :=
  if s.srcLen < 57 + s.payloadLen then .trunc
  else if crc32 (s.mem.readBytes (s.srcAddr + 37) (s.payloadLen + 4)) ≠ s.mem.get32 (s.srcAddr + (41 + s.payloadLen))
    then .corrupt
  else if s.mem.get32 (s.srcAddr + (45 + s.payloadLen)) ≠ 0#32 then .format
  else if s.mem.get32 (s.srcAddr + (49 + s.payloadLen)) ≠ Config.tagIend then .format
  else if s.mem.get32 (s.srcAddr + (53 + s.payloadLen)) ≠ 0xAE426082#32 then .corrupt
  else .ok

/-- The checks behind the header chunk, in the order of R152; `parsePayload_endsWith` ties it to `PARSE`. -/
def State.payloadCode (s : State) : ErrCode :=
  if s.srcLen < 41 then .trunc
  else if s.mem.get32 (s.srcAddr + 37) ≠ Config.tagIdat then .format
  else if s.srcLen < 41 + s.payloadLen then .trunc
  else if s.verify = false then .ok
  else s.verifiedCode

/-- All checks of `PARSE` in the order of R152 and R153; `execParse_endsWith` ties it to `PARSE`. -/
def State.parseCode (s : State) : ErrCode :=
  if 2 ^ 64 < s.srcAddr + s.srcLen then .range
  else if s.srcLen < 8 then .trunc
  else if s.mem.readBytes s.srcAddr 8 ≠ s.sig.toList then .sig
  else if s.srcLen < 33 then .trunc
  else if s.mem.get32 (s.srcAddr + 8) ≠ 13#32 then .format
  else if s.mem.get32 (s.srcAddr + 12) ≠ Config.tagIhdr then .format
  else if s.verify = true ∧ crc32 (s.mem.readBytes (s.srcAddr + 12) 17) ≠ s.mem.get32 (s.srcAddr + 29) then .corrupt
  else s.payloadCode

/-- The answer is a next state with the code `e`. -/
def Result.EndsWith (r : Result) (e : ErrCode) : Prop := ∃ t, r = .next t ∧ t.err = e

namespace Result.EndsWith

theorem raise (s : State) (e : ErrCode) : EndsWith (.next (s.raise e)) e := ⟨_, rfl, rfl⟩

theorem completeParse (s : State) : EndsWith (.next s.completeParse) .ok := ⟨_, rfl, rfl⟩

/-- A check `p` ends with the code of its failure `f`, or as what comes after it. -/
theorem check {p f : Prop} [Decidable p] [Decidable f] (hf : f ↔ ¬ p) {a b : Result} {e e' : ErrCode}
    (hb : b.EndsWith e') (ha : a.EndsWith e) : EndsWith (if p then a else b) (if f then e' else e) := by
  by_cases hp : p
  · rwa [if_pos hp, if_neg (fun h => hf.1 h hp)]
  · rwa [if_neg hp, if_pos (hf.2 hp)]

end Result.EndsWith

section
open Result.EndsWith

theorem parseVerified_endsWith (htable : s.table = crcTable) :
    (parseVerified s.payloadLen s).EndsWith s.verifiedCode := by
  unfold parseVerified State.verifiedCode State.crc
  rw [htable]
  simp only [← Nat.add_assoc]
  exact check Nat.not_le.symm (raise ..) (check Iff.rfl (raise ..) (check Iff.rfl (raise ..) (check Iff.rfl (raise ..)
    (check Iff.rfl (raise ..) (completeParse s)))))

theorem parsePayload_endsWith (htable : s.verify = true → s.table = crcTable) :
    (parsePayload s).EndsWith s.payloadCode := by
  unfold parsePayload State.payloadCode
  refine check Nat.not_le.symm (raise ..) (check Iff.rfl (raise ..) (check Nat.not_le.symm (raise ..) ?_))
  cases hv : s.verify
  · exact completeParse s
  · exact parseVerified_endsWith (htable hv)

/-- `PARSE` ends with the code of its first failing check (R152, R153). -/
theorem execParse_endsWith (h : s.tableOk) : (execParse s).EndsWith s.parseCode := by
  unfold execParse parseWith parseHeader State.parseCode
  refine check Nat.not_le.symm (raise ..) (check Nat.not_le.symm (raise ..) (check Iff.rfl (raise ..)
    (check Nat.not_le.symm (raise ..) (check Iff.rfl (raise ..) (check Iff.rfl (raise ..) ?_)))))
  cases hv : s.verify
  · exact parsePayload_endsWith fun hv' => absurd hv' (by simp [hv])
  · rw [buildTable_of_tableOk h]
    exact check (and_iff_right rfl) (raise ..)
      (parsePayload_endsWith (s := { s with tvalid := true, table := crcTable }) fun _ => rfl)

end

/-! ## The state it leaves -/

/-- `PARSE` has written the fields of the container and its raw size (R152, R154), with the table built when `VERIFY = 1`
(R96); `execParse_of_ok` and `execParse_of_failed` tie it to `PARSE`. -/
def State.parsed (s : State) : State :=
  { s with tvalid := s.tvalid || s.verify, table := if s.verify then crcTable else s.table }.completeParse

/-- Where `PARSE` succeeds (R152, R154). -/
theorem execParse_of_ok (h : s.tableOk) (ht : execParse s = .next t) (ok : t.err = .ok) : t = s.parsed := by
  rcases parseWith_cases ht with ⟨e, he, ⟨-, rfl⟩ | ⟨-, rfl⟩⟩ | ⟨hv, rfl⟩ | ⟨hv, rfl⟩
  · exact absurd ok he
  · exact absurd ok he
  · have valid : (s.tvalid || s.verify) = s.tvalid := by rw [hv, Bool.or_false]
    have table : (if s.verify then crcTable else s.table) = s.table := if_neg (by simp [hv])
    rw [State.parsed, valid, table]
  · simp [State.parsed, hv, buildTable_of_tableOk h]

/-- Where it fails, the table tells whether it reached the header chunk's checksum (R96, R190). -/
theorem execParse_of_failed (h : s.tableOk) (ht : execParse s = .next t) (failed : t.err ≠ .ok) :
    (s.reachesHeaderChecksum s.sig → t = { s with tvalid := true, table := crcTable }.ended 0 t.err) ∧
    (¬ s.reachesHeaderChecksum s.sig → t = s.ended 0 t.err) := by
  rcases parseWith_cases ht with ⟨e, -, ⟨early, rfl⟩ | ⟨reached, rfl⟩⟩ | ⟨-, rfl⟩ | ⟨-, rfl⟩
  · exact ⟨fun reached => absurd reached early, fun _ => rfl⟩
  · exact ⟨fun _ => by rw [buildTable_of_tableOk h]; rfl, fun early => absurd reached early⟩
  · exact absurd rfl failed
  · exact absurd rfl failed

/-- Where no check fails `PARSE` completes. -/
theorem execParse_of_parseCode_ok (h : s.tableOk) (ok : s.parseCode = .ok) : execParse s = .next s.parsed := by
  obtain ⟨t, ht, hcode⟩ := execParse_endsWith h
  rw [ht, execParse_of_ok h ht (hcode.trans ok)]

/-- `PARSE` succeeds exactly where no check fails (R152, R153). -/
theorem execParse_succeeds_iff (h : s.tableOk) : (∃ t, execParse s = .next t ∧ t.err = .ok) ↔ s.parseCode = .ok := by
  obtain ⟨t, ht, hcode⟩ := execParse_endsWith h
  simp [ht, hcode]

end Sys2Proof.Machine

section
open Sys2Proof Sys2Proof.Machine

/-- Settles O47: the checks in their order. -/
theorem parseReportsTheFirstFailure : Obligations.ParseReportsTheFirstFailure := by
  unfold Obligations.ParseReportsTheFirstFailure
  exact fun s h => execParse_endsWith h

/-- Settles O48: the successful end, and the two failing ends. -/
theorem parseResults : Obligations.ParseResults := by
  unfold Obligations.ParseResults
  exact fun s t h ht => ⟨execParse_of_ok h ht, fun failed => (execParse_of_failed h ht failed).1,
    fun failed => (execParse_of_failed h ht failed).2⟩

end

/-! PROOFS. The container in memory (R142), which is what a verified `PARSE` checks (R153), and the round trip (R161). -/

namespace Sys2Proof.Machine

/-! ## Chunks, field by field -/

section
variable {m : Memory} {a n : Nat} {t : Word}

/-- A chunk's three fields around its data (R116). -/
theorem Memory.holdsChunk_iff : m.HoldsChunk a n t ↔ n < 2 ^ 32 ∧ m.get32 a = BitVec.ofNat 32 n ∧ m.get32 (a + 4) = t ∧
    crc32 (m.readBytes (a + 4) (n + 4)) = m.get32 (a + 8 + n) := by
  constructor
  · intro h
    exact ⟨h.short, by rw [Memory.get32, h.fields.1, be32Des_be32Ser], h.get32_tag, h.get32_checksum.symm⟩
  · rintro ⟨short, length, tag, checksum⟩
    have covered : m.readBytes (a + 4) (n + 4) = be32Ser t ++ m.readBytes (a + 8) n := by
      rw [Nat.add_comm n, m.readBytes_add, ← tag, m.be32Ser_get32]
    refine ⟨short, ?_⟩
    rw [show n + 12 = 4 + ((n + 4) + 4) by omega, m.readBytes_add, m.readBytes_add, covered,
      show a + 4 + (n + 4) = a + 8 + n by omega, ← m.be32Ser_get32 a, ← m.be32Ser_get32 (a + 8 + n), length, ← checksum,
      covered, chunk_eq, m.readBytes_length, List.append_assoc]

/-- The data field of a chunk's bytes (R116). -/
theorem Memory.readBytes_chunk_data {data : List Byte} (hlen : data.length = n)
    (bytes : m.readBytes a (n + 12) = chunk t data) : m.readBytes (a + 8) n = data := by
  subst hlen
  obtain ⟨-, -, content, -⟩ := Memory.fields_of_readBytes_eq_chunk bytes
  exact content

/-- The checksum of the terminator chunk is a constant (R153). -/
theorem Memory.holdsTerminator_iff : m.HoldsChunk a 0 Config.tagIend ↔
    m.get32 a = 0#32 ∧ m.get32 (a + 4) = Config.tagIend ∧ m.get32 (a + 8) = 0xAE426082#32 := by
  have sum (tag : m.get32 (a + 4) = Config.tagIend) : crc32 (m.readBytes (a + 4) 4) = 0xAE426082#32 := by
    obtain ⟨-, -, -, -, terminator, -⟩ := checksumVectors
    rw [← m.be32Ser_get32, tag]
    exact terminator
  rw [Memory.holdsChunk_iff]
  constructor
  · rintro ⟨-, length, tag, checksum⟩
    exact ⟨length, tag, checksum.symm.trans (sum tag)⟩
  · rintro ⟨length, tag, checksum⟩
    exact ⟨by decide, length, tag, (sum tag).trans checksum.symm⟩

end

/-! ## The container, chunk by chunk -/

section
variable {m : Memory} {sig : Signature} {a n : Nat}

/-- At `a` stands the signature, a chunk of 13 bytes with the header's tag, the payload chunk with `n` bytes, and the
terminator chunk: a container up to the header's four mode bytes (R142, R153). -/
structure Memory.HoldsContainer (m : Memory) (sig : Signature) (a n : Nat) : Prop where
  signature : m.readBytes a 8 = sig.toList
  header : m.HoldsChunk (a + 8) 13 Config.tagIhdr
  payload : m.HoldsChunk (a + 33) n Config.tagIdat
  terminator : m.HoldsChunk (a + 45 + n) 0 Config.tagIend

/-- The four parts, each at its address. -/
theorem Memory.readBytes_container_parts (m : Memory) (a n : Nat) : m.readBytes a (57 + n) =
    m.readBytes a 8 ++ m.readBytes (a + 8) (13 + 12) ++ m.readBytes (a + 33) (n + 12) ++
      m.readBytes (a + 45 + n) (0 + 12) := by
  rw [show 57 + n = 8 + (13 + 12) + (n + 12) + (0 + 12) by omega, m.readBytes_add, m.readBytes_add, m.readBytes_add,
    show a + (8 + (13 + 12) + (n + 12)) = a + 45 + n by omega]

theorem Memory.HoldsContainer.bytes (h : m.HoldsContainer sig a n) : m.readBytes a (57 + n) =
    sig.toList ++ chunk Config.tagIhdr (m.readBytes (a + 16) 13) ++ chunk Config.tagIdat (m.readBytes (a + 41) n) ++
      chunk Config.tagIend [] := by
  rw [m.readBytes_container_parts, h.signature, h.header.bytes, h.payload.bytes, h.terminator.bytes]
  rfl

/-- What a container's bytes say of the memory they stand in. -/
theorem Memory.holdsContainer_of_bytes {header payload : List Byte} (hheader : header.length = 13)
    (short : payload.length < 2 ^ 32)
    (bytes : m.readBytes a (57 + payload.length) = sig.toList ++ chunk Config.tagIhdr header ++
      chunk Config.tagIdat payload ++ chunk Config.tagIend []) :
    m.HoldsContainer sig a payload.length ∧ m.readBytes (a + 16) 13 = header ∧
      m.readBytes (a + 41) payload.length = payload := by
  rw [m.readBytes_container_parts] at bytes
  obtain ⟨bytes, terminator⟩ := List.append_inj' bytes (by simp [chunk_length])
  obtain ⟨bytes, idat⟩ := List.append_inj' bytes (by simp [chunk_length])
  obtain ⟨signature, ihdr⟩ := List.append_inj' bytes (by simp [chunk_length, hheader])
  exact ⟨⟨signature, .of_data hheader (by decide) ihdr, .of_data rfl short idat, .of_data rfl (by decide) terminator⟩,
    Memory.readBytes_chunk_data hheader ihdr, Memory.readBytes_chunk_data rfl idat⟩

/-- The header record's fields, taken apart (R70). -/
theorem Memory.readBytes_header (m : Memory) (a : Nat) : m.readBytes a 13 =
    be32Ser (m.get32 a) ++ be32Ser (m.get32 (a + 4)) ++ [m.read (a + 8)] ++ m.readBytes (a + 9) 4 := by
  simp only [Memory.be32Ser_get32]
  rfl

/-- Bytes that begin with a width, a height and a depth are read as these (R70, R154). -/
theorem Memory.header_fields {w h : Word} {d : Byte} {modes : List Byte}
    (bytes : m.readBytes a 13 = be32Ser w ++ be32Ser h ++ [d] ++ modes) :
    m.get32 a = w ∧ m.get32 (a + 4) = h ∧ m.read (a + 8) = d := by
  rw [m.readBytes_header] at bytes
  obtain ⟨bytes, -⟩ := List.append_inj bytes (by simp)
  obtain ⟨bytes, depth⟩ := List.append_inj bytes (by simp)
  obtain ⟨width, height⟩ := List.append_inj bytes (by simp)
  exact ⟨by rw [← be32Des_be32Ser w, ← width, be32Des_be32Ser],
    by rw [← be32Des_be32Ser h, ← height, be32Des_be32Ser], by simpa using depth⟩

end

/-! ## `PARSE` and the container -/

section
variable {s : State}

/-- A check comes out right when it does not fail and the rest comes out right. -/
theorem check_eq_ok_iff {f : Prop} [Decidable f] {e e' : ErrCode} (he : e ≠ .ok) :
    (if f then e else e') = .ok ↔ ¬ f ∧ e' = .ok := by
  by_cases hf : f <;> simp [hf, he]

/-- The checks of R152, which `PARSE` makes in either mode. -/
structure State.PassesFraming (s : State) : Prop where
  window : fits s.srcAddr s.srcLen
  room : 41 + s.payloadLen ≤ s.srcLen
  signature : s.mem.readBytes s.srcAddr 8 = s.sig.toList
  headerLen : s.mem.get32 (s.srcAddr + 8) = 13#32
  headerTag : s.mem.get32 (s.srcAddr + 12) = Config.tagIhdr
  payloadTag : s.mem.get32 (s.srcAddr + 37) = Config.tagIdat

/-- The checks that only `VERIFY = 1` makes (R153). -/
structure State.PassesVerify (s : State) : Prop where
  headerSum : crc32 (s.mem.readBytes (s.srcAddr + 12) 17) = s.mem.get32 (s.srcAddr + 29)
  rest : s.verifiedCode = .ok

theorem State.parseCode_eq_ok_iff : s.parseCode = .ok ↔ s.PassesFraming ∧ (s.verify = true → s.PassesVerify) := by
  simp only [State.parseCode, State.payloadCode, check_eq_ok_iff, ne_eq, reduceCtorEq, not_false_eq_true,
    ite_eq_left_iff, not_lt, not_not, not_and]
  constructor
  · rintro ⟨window, -, signature, -, headerLen, headerTag, headerSum, -, payloadTag, room, rest⟩
    exact ⟨⟨window, room, signature, headerLen, headerTag, payloadTag⟩, fun hv => ⟨headerSum hv, rest (by simp [hv])⟩⟩
  · rintro ⟨⟨window, room, signature, headerLen, headerTag, payloadTag⟩, verified⟩
    exact ⟨window, by omega, signature, by omega, headerLen, headerTag, fun hv => (verified hv).headerSum, by omega,
      payloadTag, room, fun hv => (verified (by simpa using hv)).rest⟩

theorem State.verifiedCode_eq_ok_iff : s.verifiedCode = .ok ↔ 57 + s.payloadLen ≤ s.srcLen ∧
    crc32 (s.mem.readBytes (s.srcAddr + 37) (s.payloadLen + 4)) = s.mem.get32 (s.srcAddr + 41 + s.payloadLen) ∧
    s.mem.HoldsChunk (s.srcAddr + 45 + s.payloadLen) 0 Config.tagIend := by
  simp only [State.verifiedCode, check_eq_ok_iff, ne_eq, reduceCtorEq, not_false_eq_true, not_lt, not_not, and_true,
    Memory.holdsTerminator_iff]
  rw [show s.srcAddr + 45 + s.payloadLen + 4 = s.srcAddr + (49 + s.payloadLen) by omega,
    show s.srcAddr + 45 + s.payloadLen + 8 = s.srcAddr + (53 + s.payloadLen) by omega, Nat.add_assoc, Nat.add_assoc]

/-- With `VERIFY = 1` the checks are those of a container (R153). -/
theorem State.passes_iff_holdsContainer : s.PassesFraming ∧ s.PassesVerify ↔
    fits s.srcAddr s.srcLen ∧ 57 + s.payloadLen ≤ s.srcLen ∧ s.mem.HoldsContainer s.sig s.srcAddr s.payloadLen := by
  constructor
  · rintro ⟨framing, headerSum, rest⟩
    obtain ⟨room, payloadSum, terminator⟩ := State.verifiedCode_eq_ok_iff.1 rest
    refine ⟨framing.window, room, framing.signature, ?_, ?_, terminator⟩
    · exact Memory.holdsChunk_iff.2 ⟨by decide, framing.headerLen, framing.headerTag, headerSum⟩
    · exact Memory.holdsChunk_iff.2 ⟨BitVec.isLt _, by simp [State.payloadLen], framing.payloadTag, payloadSum⟩
  · rintro ⟨window, room, signature, header, payload, terminator⟩
    obtain ⟨-, headerLen, headerTag, headerSum⟩ := Memory.holdsChunk_iff.1 header
    obtain ⟨-, -, payloadTag, payloadSum⟩ := Memory.holdsChunk_iff.1 payload
    exact ⟨⟨window, by omega, signature, headerLen, headerTag, payloadTag⟩, headerSum,
      State.verifiedCode_eq_ok_iff.2 ⟨room, payloadSum, terminator⟩⟩

/-- With `VERIFY = 1` `PARSE` succeeds exactly on a container, up to its mode bytes (R153). -/
theorem State.parseCode_eq_ok_iff_holdsContainer (hv : s.verify = true) : s.parseCode = .ok ↔
    fits s.srcAddr s.srcLen ∧ 57 + s.payloadLen ≤ s.srcLen ∧ s.mem.HoldsContainer s.sig s.srcAddr s.payloadLen := by
  rw [State.parseCode_eq_ok_iff, ← State.passes_iff_holdsContainer]
  simp [hv]

/-- On a container `PARSE` succeeds in either mode (R152). -/
theorem execParse_of_holdsContainer {n : Nat} (h : s.tableOk) (window : fits s.srcAddr s.srcLen)
    (room : 57 + n ≤ s.srcLen) (holds : s.mem.HoldsContainer s.sig s.srcAddr n) : execParse s = .next s.parsed := by
  have announced : s.payloadLen = n := holds.payload.toNat_get32_length
  subst announced
  obtain ⟨framing, verified⟩ := State.passes_iff_holdsContainer.2 ⟨window, room, holds⟩
  exact execParse_of_parseCode_ok h (State.parseCode_eq_ok_iff.2 ⟨framing, fun _ => verified⟩)

end

/-! ## The round trip -/

section
variable {s v : State} {ws : List (DWord × Byte)}

theorem collaboratorStep_of_idle (hp : s.phase = .idle) (ws : List (DWord × Byte)) (r : CRsp) :
    collaboratorStep ws r s = s := by
  simp only [collaboratorStep, hp]

/-- After a first half that has failed nothing more happens (R177, R179). -/
theorem runSteps_of_idle {r : CRsp} (hp : s.phase = .idle) (ha : s.agenda = [.collaborator ws r, .engine]) :
    runSteps 2 s = .next { s with agenda := [] } := by
  have collaborator : step s = .next { s with agenda := [.engine] } := by
    rw [step_of_cons ha]
    exact congrArg Host.Outcome.next (collaboratorStep_of_idle (s := { s with agenda := [.engine] }) hp ws r)
  have engine : step { s with agenda := [.engine] } = .next { s with agenda := [] } := by
    rw [step_of_cons rfl, moveStep, engineStep, hp]
  rw [runSteps_next collaborator, runSteps_next engine, runSteps]

/-- The engine's move in `BUSY` runs the first half of `ENCODE` (R174). -/
theorem step_execEncode {rest : List Move} (hp : s.phase = .busy) (hop : decode s.op = .ok .encode)
    (ha : s.agenda = .engine :: rest) : step s = execEncode { s with agenda := rest } := by
  rw [step_of_cons ha]
  exact engineStep_of_busy (s := { s with agenda := rest }) hp hop

variable {k : DWord} (hp : s.phase = .busy) (hop : decode s.op = .ok .encode)
  (ha : s.agenda = [.engine, .collaborator ws (.ok k), .engine]) (hrun : runSteps 3 s = .next v) (ok : v.err = .ok)
include hp hop ha hrun ok

/-- Of an `ENCODE` that has completed, the first half's checks have passed (R136). -/
theorem encode_checks_passed : fits s.dstAddr s.dstCap ∧ fits s.srcAddr s.srcLen ∧ Config.minOut ≤ s.dstCap := by
  obtain ⟨t, ht⟩ := execEncode_next { s with agenda := [.collaborator ws (.ok k), .engine] }
  rw [runSteps_next ((step_execEncode hp hop ha).trans ht)] at hrun
  rcases encodeFirstHalf_cases ht with rfl | rfl | ⟨hdst, hsrc, hcap, -⟩
  · rw [runSteps_of_idle rfl rfl] at hrun
    cases hrun
    cases ok
  · rw [runSteps_of_idle rfl rfl] at hrun
    cases hrun
    cases ok
  · exact ⟨hdst, hsrc, hcap⟩

/-- And the answer was within the budget (R140). -/
theorem encode_answer_within (h : s.tableOk) : 1 ≤ k.toNat ∧ k.toNat ≤ s.budget := by
  obtain ⟨hdst, hsrc, hcap⟩ := encode_checks_passed hp hop ha hrun ok
  have resumes : step { s.encodeAnswered ws (.ok k) with agenda := [.engine] } =
      resumeEncode s.compressRequest (.ok k) { s.encodeAnswered ws (.ok k) with agenda := [] } :=
    engineStep_of_resume_encode (s := { s.encodeAnswered ws (.ok k) with agenda := [] }) rfl hop rfl rfl
  obtain ⟨t, ht⟩ := resumeEncode_next s.compressRequest (.ok k) { s.encodeAnswered ws (.ok k) with agenda := [] }
  rw [runSteps_next (step_encode hop h hp ha hdst hsrc hcap), runSteps_next (step_encodeSent s ws (.ok k) [.engine]),
    runSteps_next (resumes.trans ht)] at hrun
  cases hrun
  rcases resumeEncode_cases ht with rfl | rfl | ⟨_, hk, hmax, hpos, -⟩
  · cases ok
  · cases ok
  · cases hk
    exact ⟨hpos, by rwa [s.compressRequest_outMax] at hmax⟩

end

end Sys2Proof.Machine

section
open Sys2Proof Sys2Proof.Machine

/-- Settles O49: a verified `PARSE` checks the container's parts, and 13 header bytes are a width, a height, a depth and
four mode bytes. -/
theorem verifiedParseAcceptsExactlyContainers : Obligations.VerifiedParseAcceptsExactlyContainers := by
  unfold Obligations.VerifiedParseAcceptsExactlyContainers
  intro s h hv
  refine (execParse_succeeds_iff h).trans ((State.parseCode_eq_ok_iff_holdsContainer hv).trans ?_)
  constructor
  · rintro ⟨window, room, holds⟩
    have bytes := holds.bytes
    rw [Memory.readBytes_header] at bytes
    refine ⟨window, s.mem.get32 (s.srcAddr + 16), s.mem.get32 (s.srcAddr + 20), s.mem.read (s.srcAddr + 24),
      s.mem.readBytes (s.srcAddr + 25) 4, s.mem.readBytes (s.srcAddr + 41) s.payloadLen, ?_⟩
    simp only [Memory.readBytes_length]
    exact ⟨trivial, holds.payload.short, room, bytes⟩
  · rintro ⟨window, w, h, d, modes, p, hmodes, short, room, bytes⟩
    obtain ⟨holds, -⟩ := Memory.holdsContainer_of_bytes (by simp [hmodes]) short bytes
    have announced : s.payloadLen = p.length := holds.payload.toNat_get32_length
    rw [announced]
    exact ⟨window, room, holds⟩

/-- Settles O50: a container passes the checks of either mode, and its bytes hold its fields and its payload. -/
theorem parseCompletesOnContainers : Obligations.ParseCompletesOnContainers := by
  unfold Obligations.ParseCompletesOnContainers
  intro s w h d p htable window short room bytes
  obtain ⟨holds, header, payload⟩ := Memory.holdsContainer_of_bytes (hdr_length w h d) short bytes
  obtain ⟨width, height, depth⟩ := Memory.header_fields header
  obtain ⟨-, payloadLen, -⟩ := Memory.holdsChunk_iff.1 holds.payload
  refine ⟨(execParse_of_holdsContainer htable window room holds).trans ?_, payload⟩
  rw [← width, ← height, ← depth, ← payloadLen]
  rfl

/-- Settles O51: an `ENCODE` that completes has left a container, on which `PARSE` completes. -/
theorem encodeThenParseRoundTrip : Obligations.EncodeThenParseRoundTrip := by
  unfold Obligations.EncodeThenParseRoundTrip
  intro s v x ws k h hp hop ha hrun ok same htable hsig hplace room window
  have hdec : decode s.op = .ok .encode := by rw [hop]; exact decode_encode .encode
  obtain ⟨hdst, hsrc, hcap⟩ := encode_checks_passed hp hdec ha hrun ok
  obtain ⟨hpos, hk⟩ := encode_answer_within hp hdec ha hrun ok h
  obtain ⟨u, v', -, hrun', -, built, -⟩ := encodeBuildsTheContainer s ws k h hp hop ha hdst hsrc hcap hpos hk
  obtain rfl : v = v' := Host.Outcome.next.inj (hrun.symm.trans hrun')
  have short : k.toNat < 2 ^ 32 := lt_of_le_of_lt (hk.trans (Nat.min_le_right _ _)) (by decide)
  have place : x.src.toNat = s.dst.toNat := congrArg BitVec.toNat hplace
  have kept : x.mem.readBytes s.dst.toNat (57 + k.toNat) = v.mem.readBytes s.dst.toNat (57 + k.toNat) :=
    Memory.readBytes_congr fun a hlo hhi => same a hlo (by omega)
  obtain ⟨parses, -⟩ := parseCompletesOnContainers x s.width s.height s.depth
    (u.mem.readBytes (s.dst.toNat + 41) k.toNat) htable window (by simpa using short) (by simpa using room)
    (by rw [Memory.readBytes_length, hsig, ← built, place, kept])
  refine ⟨_, parses, rfl, rfl, rfl, rfl, rfl, by simpa [State.ended] using short, ?_⟩
  rw [place]
  exact Memory.readBytes_congr fun a hlo hhi => same a (by omega) (by omega)

end

/-! PROOFS. The command sequencer (R174 to R180): how a command ends, and which registers it writes. -/

namespace Sys2Proof.Machine

variable {s t : State} {i : Instr}

/-! ## The end of a command (R176, R190) -/

theorem State.Ends.idle {u : State} (h : u.Ends t) :
    t.phase = .idle ∧ t.done = true ∧ t.creq = none ∧ t.crsp = none := by
  cases h <;> exact ⟨rfl, rfl, rfl, rfl⟩

/-- An execution step ends its command, or sends the request of `ENCODE` or `INFLATE` and leaves `DONE` and `ERR`
(R174). -/
theorem ExecAnswers.ends_or_waits (h : ExecAnswers i s t) :
    (t.phase = .idle ∧ t.done = true ∧ t.creq = none ∧ t.crsp = none) ∨
    ((i = .encode ∨ i = .inflate) ∧ t.phase = .waitc ∧ t.creq.isSome = true ∧ t.err = s.err ∧ t.done = s.done) := by
  cases h with
  | ends _ _ ht => exact .inl ht.idle
  | compress hu _ hi =>
    rw [hu.frame]
    exact .inr ⟨.inl hi, rfl, rfl, rfl, rfl⟩
  | decompress hi => exact .inr ⟨.inr hi, rfl, rfl, rfl, rfl⟩

theorem resumeEncode_idle {q : CReq} {r : CRsp} (h : resumeEncode q r s = .next t) :
    t.phase = .idle ∧ t.done = true ∧ t.creq = none ∧ t.crsp = none := by
  obtain rfl | rfl | ⟨k, -, -, -, rfl⟩ := resumeEncode_cases h <;> exact ⟨rfl, rfl, rfl, rfl⟩

theorem resumeInflate_idle {r : CRsp} (h : resumeInflate r s = .next t) :
    t.phase = .idle ∧ t.done = true ∧ t.creq = none ∧ t.crsp = none := by
  obtain rfl | rfl | ⟨k, -, -, -, rfl⟩ := resumeInflate_cases h <;> exact ⟨rfl, rfl, rfl, rfl⟩

/-- In `RESUME` a request and its answer stand, and the request is that of `ENCODE` or `INFLATE` (R18, R24, R178). -/
theorem State.Inv.resumes (hs : s.Inv) (hp : s.phase = .resume) : ∃ q r, s.creq = some q ∧ s.crsp = some r ∧
    (decode s.op = .ok .encode ∨ decode s.op = .ok .inflate) := by
  have port : s.creq.isSome = true ∧ s.crsp.isSome = true := by simpa only [State.portOk, hp] using hs.port
  obtain ⟨q, hq⟩ := Option.isSome_iff_exists.1 port.1
  obtain ⟨r, hr⟩ := Option.isSome_iff_exists.1 port.2
  refine ⟨q, r, hq, hr, ?_⟩
  rcases hs.request q hq with ⟨hop, -⟩ | ⟨hop, -⟩
  · exact .inl (decode_eq_ok_iff.2 hop)
  · exact .inr (decode_eq_ok_iff.2 hop)

/-! ## The registers that a command writes (R180) -/

/-- `s` after a command that has left `t`, if the command has written no register but `RESULT`: the fields of its end, the
port, memory and the table are those of `t`. -/
def State.afterCommand (s t : State) : State :=
  { s with
    result := t.result, err := t.err, done := t.done, phase := t.phase, creq := t.creq, crsp := t.crsp
    mem := t.mem, tvalid := t.tvalid, table := t.table }

/-- The command `i` has made `t` of `s`, and of the registers beside `RESULT` it has written those that R10, R19 and R180
give it at most. -/
inductive WritesRegisters (s t : State) : Instr → Prop where
  | nothing {i : Instr} (h : t = s.afterCommand t) : WritesRegisters s t i
  | val (h : t = { s.afterCommand t with val := t.val }) : WritesRegisters s t .get32
  | kind {i : Instr} (hi : i = .rdchunk ∨ i = .rdchunkD ∨ i = .ckchunk)
      (h : t = { s.afterCommand t with kind := t.kind }) : WritesRegisters s t i
  | kindAndTag {i : Instr} (hi : i = .rdchunkT ∨ i = .rdchunkTD)
      (h : t = { s.afterCommand t with kind := t.kind, tag := t.tag }) : WritesRegisters s t i
  | raster (h : t = { s.afterCommand t with
      width := t.width, height := t.height, depth := t.depth, payoff := t.payoff, paylen := t.paylen }) :
      WritesRegisters s t .parse

/-- Building the table changes nothing but the table and `TVALID` (R96). -/
theorem State.buildTable_frame (s : State) :
    s.buildTable = { s with tvalid := s.buildTable.tvalid, table := s.buildTable.table } := by
  rcases s.buildTable_cases with h | h <;> rw [h]

theorem execCrc32_afterCommand (h : execCrc32 s = .next t) : t = s.afterCommand t := by
  obtain ⟨-, rfl⟩ | ⟨-, -, rfl⟩ | ⟨-, -, rfl⟩ := execCrc32_cases h
  · rfl
  · rfl
  · rw [s.buildTable_frame]
    rfl

theorem execPut32_afterCommand (h : execPut32 s = .next t) : t = s.afterCommand t := by
  unfold execPut32 at h
  split at h <;> cases h <;> rfl

theorem execGet32_frame (h : execGet32 s = .next t) : t = { s.afterCommand t with val := t.val } := by
  unfold execGet32 at h
  split at h <;> cases h <;> rfl

theorem execWrchunk_afterCommand (h : execWrchunk s = .next t) : t = s.afterCommand t := by
  obtain rfl | ⟨-, -, -, rfl⟩ | ⟨-, -, -, -, rfl⟩ := execWrchunk_cases h
  · rfl
  · rw [s.buildTable_frame]
    rfl
  · rw [s.buildTable_frame]
    rfl

theorem rdchunkWith_frame {wt wd : Bool} (h : rdchunkWith wt wd s = .next t) :
    t = { s.afterCommand t with kind := t.kind, tag := if wt then t.tag else s.tag } := by
  obtain rfl | rfl | ⟨-, rfl⟩ | ⟨-, -, rfl⟩ := rdchunkWith_cases h <;> cases wt <;> rfl

theorem execCkchunk_frame (h : execCkchunk s = .next t) : t = { s.afterCommand t with kind := t.kind } := by
  obtain rfl | rfl | rfl | rfl := execCkchunk_cases h
  · rfl
  · rfl
  · rw [s.buildTable_frame]
    rfl
  · rw [s.buildTable_frame]
    rfl

theorem execEncode_afterCommand (h : execEncode s = .next t) : t = s.afterCommand t := by
  obtain rfl | rfl | ⟨-, -, -, rfl⟩ := encodeFirstHalf_cases h
  · rfl
  · rfl
  · rw [s.buildTable_frame]
    rfl

theorem execParse_frame (h : execParse s = .next t) : t = { s.afterCommand t with
    width := t.width, height := t.height, depth := t.depth, payoff := t.payoff, paylen := t.paylen } := by
  obtain ⟨e, -, ⟨-, rfl⟩ | ⟨-, rfl⟩⟩ | ⟨-, rfl⟩ | ⟨-, rfl⟩ := parseWith_cases h
  · rfl
  · rw [s.buildTable_frame]
    rfl
  · rfl
  · rw [s.buildTable_frame]
    rfl

theorem execInflate_afterCommand (h : execInflate s = .next t) : t = s.afterCommand t := by
  obtain rfl | ⟨-, -, rfl⟩ := execInflate_cases h <;> rfl

theorem execNop_afterCommand (h : execNop s = .next t) : t = s.afterCommand t := by
  cases h
  rfl

theorem execTblinit_afterCommand (h : execTblinit s = .next t) : t = s.afterCommand t := by
  cases h
  rw [s.buildTable_frame]
  rfl

theorem illegalWord_afterCommand (h : illegalWord s = .next t) : t = s.afterCommand t := by
  cases h
  rfl

/-- The registers that an execution step writes, command by command. -/
theorem exec_writesRegisters (h : exec i s = .next t) : WritesRegisters s t i := by
  cases i with
  | nop => exact .nothing (execNop_afterCommand h)
  | tblinit => exact .nothing (execTblinit_afterCommand h)
  | crc32 => exact .nothing (execCrc32_afterCommand h)
  | put32 => exact .nothing (execPut32_afterCommand h)
  | get32 => exact .val (execGet32_frame h)
  | wrchunk => exact .nothing (execWrchunk_afterCommand h)
  | rdchunk => exact .kind (.inl rfl) (rdchunkWith_frame h)
  | rdchunkT => exact .kindAndTag (.inl rfl) (rdchunkWith_frame h)
  | rdchunkD => exact .kind (.inr (.inl rfl)) (rdchunkWith_frame h)
  | rdchunkTD => exact .kindAndTag (.inr rfl) (rdchunkWith_frame h)
  | ckchunk => exact .kind (.inr (.inr rfl)) (execCkchunk_frame h)
  | encode => exact .nothing (execEncode_afterCommand h)
  | parse => exact .raster (execParse_frame h)
  | inflate => exact .nothing (execInflate_afterCommand h)
  | tagIhdr => exact .nothing (illegalWord_afterCommand h)
  | tagIdat => exact .nothing (illegalWord_afterCommand h)
  | tagIend => exact .nothing (illegalWord_afterCommand h)

/-- The resume step writes no register but `RESULT` (R140, R141, R160). -/
theorem resumeStep_afterCommand (h : resumeStep s = .next t) : t = s.afterCommand t := by
  rcases resumeStep_cases h with rfl | ⟨q, r, -, -, -, hr⟩ | ⟨q, r, -, -, -, hr⟩
  · rfl
  · obtain rfl | rfl | ⟨k, -, -, -, rfl⟩ := resumeEncode_cases hr
    · rfl
    · rfl
    · rw [s.buildTable_frame]
      rfl
  · obtain rfl | rfl | ⟨k, -, -, -, rfl⟩ := resumeInflate_cases hr <;> rfl

end Sys2Proof.Machine

section
open Sys2Proof Sys2Proof.Machine

/-- Settles O8: no instruction faults, and the inversion of `exec` names the two ends. -/
theorem everyExecutionStepEnds : Obligations.EveryExecutionStepEnds := by
  unfold Obligations.EveryExecutionStepEnds
  intro i s
  obtain ⟨t, ht⟩ := exec_next i s
  exact ⟨t, ht, (exec_answers ht).ends_or_waits⟩

/-- Settles O9: the invariant supplies the request and the answer, and either second half ends the command. -/
theorem resumeStepEnds : Obligations.ResumeStepEnds := by
  unfold Obligations.ResumeStepEnds
  intro s hs hp ha
  rw [step_of_nil ha]
  obtain ⟨q, r, hq, hr, hop | hop⟩ := hs.resumes hp
  · rw [engineStep_of_resume_encode hp hop hq hr]
    exact (resumeEncode_next q r s).imp fun t ht => ⟨ht, resumeEncode_idle ht⟩
  · rw [engineStep_of_resume_inflate hp hop hq hr]
    exact (resumeInflate_next r s).imp fun t ht => ⟨ht, resumeInflate_idle ht⟩

/-- Settles O58: every command's frame has its own exception at most, and the resume step's none. -/
theorem operandsSurviveCommands : Obligations.OperandsSurviveCommands := by
  unfold Obligations.OperandsSurviveCommands
  refine ⟨fun s t h => ?_, fun i s t h => ?_⟩
  · rw [resumeStep_afterCommand h]
    simp [State.afterCommand]
  · rcases exec_writesRegisters h with ht | ht | ⟨hi, ht⟩ | ⟨hi, ht⟩ | ht <;> rw [ht]
    · simp [State.afterCommand]
    · simp [State.afterCommand]
    · rcases hi with rfl | rfl | rfl <;> simp [State.afterCommand]
    · rcases hi with rfl | rfl <;> simp [State.afterCommand]
    · simp [State.afterCommand]

end

/-! PROOFS. The host's transactions and the collaborator beside the engine (R171 to R173, R177, R50), and the steps that
end no command. -/

namespace Sys2Proof.Machine

variable {s t : State} {i : Nat}

/-! ## Registers as the host reads them (R16, R25, R171) -/

/-- The two halves of `RESULT` make up its 69 bits (R16). -/
theorem State.toNat_result (s : State) :
    (s.readReg 13).toNat + 2 ^ 64 * (s.readReg 14).toNat = s.result.toNat := by
  have hr : s.result.toNat < 2 ^ 69 := s.result.isLt
  simp only [State.readReg, State.resultLo, State.resultHi, BitVec.extractLsb'_toNat, BitVec.toNat_setWidth,
    Nat.shiftRight_eq_div_pow]
  omega

theorem State.readReg_ctrl (s : State) : s.readReg 2 = if s.verify then 1#64 else 0#64 := by
  simp only [State.readReg, State.ctrlWord]
  cases s.verify <;> rfl

theorem State.readReg_of_above (s : State) (hi : 16 < i) : s.readReg i = 0#64 := by
  unfold State.readReg
  split
  case h_18 => rfl
  all_goals omega

/-! ## Steps that end no command (R174, R178, R179) -/

/-- The registers beside `CTRL` that a command may write: `TAG`, `VAL`, `WIDTH`, `HEIGHT`, `DEPTH`, `RESULT` in its two
halves, `PAYOFF` and `PAYLEN` (R10). -/
def isOutputReg (i : Nat) : Prop :=
  i = 7 ∨ i = 8 ∨ i = 9 ∨ i = 10 ∨ i = 11 ∨ i = 13 ∨ i = 14 ∨ i = 15 ∨ i = 16

/-- An execution step that does not end its command has written no register (R139, R158). -/
theorem exec_afterCommand_of_waits {i : Instr} (h : exec i s = .next t) (hp : t.phase ≠ .idle) :
    t = s.afterCommand t ∧ t.result = s.result := by
  cases exec_answers h with
  | ends _ _ ht => exact absurd ht.idle.1 hp
  | compress hu _ hi =>
    subst hi
    exact ⟨execEncode_afterCommand h, by rw [hu.frame]; rfl⟩
  | decompress => exact ⟨rfl, rfl⟩

/-- A step of the engine that does not end a command writes no register. -/
theorem engineStep_afterCommand_of_waits (h : engineStep s = .next t) (hp : t.phase ≠ .idle) :
    t = s.afterCommand t ∧ t.result = s.result := by
  unfold engineStep at h
  split at h
  case h_1 => cases h; exact ⟨rfl, rfl⟩
  case h_2 =>
    unfold executionStep at h
    split at h
    · exact exec_afterCommand_of_waits h hp
    · cases h; exact absurd rfl hp
  case h_3 => cases h; exact ⟨rfl, rfl⟩
  case h_4 =>
    rcases resumeStep_cases h with rfl | ⟨q, r, -, -, -, hr⟩ | ⟨q, r, -, -, -, hr⟩
    · exact ⟨rfl, rfl⟩
    · exact absurd (resumeEncode_idle hr).1 hp
    · exact absurd (resumeInflate_idle hr).1 hp

theorem engineStep_readReg_of_waits (h : engineStep s = .next t) (hp : t.phase ≠ .idle) (hi : isOutputReg i) :
    t.readReg i = s.readReg i := by
  obtain ⟨ht, result⟩ := engineStep_afterCommand_of_waits h hp
  rw [ht, State.afterCommand, result]
  rcases hi with rfl | rfl | rfl | rfl | rfl | rfl | rfl | rfl | rfl <;> rfl

/-- While the engine is busy the host writes `OVR` only, and an issue writes no register that a command may write. -/
theorem State.hostWrite_readReg_of_busy (s : State) {j : Nat} {v : DWord} (hp : (s.hostWrite j v).phase ≠ .idle)
    (hi : isOutputReg i) : (s.hostWrite j v).readReg i = s.readReg i := by
  have untouched : (s.hostWrite j v).readReg i = s.readReg i ∨ (s.hostWrite j v).phase = .idle := by
    rcases s.hostWrite_cases j v with ⟨-, hw⟩ | ⟨-, -, hw⟩ | ⟨-, -, hw⟩ | ⟨-, idle, hw⟩ <;> rw [hw]
    case inr.inr.inr => exact .inr (by rw [s.writeOperand_frame]; exact idle)
    all_goals exact .inl (by rcases hi with rfl | rfl | rfl | rfl | rfl | rfl | rfl | rfl | rfl <;> rfl)
  exact untouched.resolve_right hp

/-- No move that leaves a command in progress changes a register that a command may write (R171). -/
theorem moveStep_readReg_of_busy {mv : Move} (h : moveStep mv s = .next t) (hp : t.phase ≠ .idle) (hi : isOutputReg i) :
    t.readReg i = s.readReg i := by
  cases mv with
  | engine => exact engineStep_readReg_of_waits h hp hi
  | hostWrite j v => cases h; exact s.hostWrite_readReg_of_busy hp hi
  | hostRead j => cases h; rfl
  | hostStore a b =>
    obtain ⟨-, rfl⟩ := hostMayTouch_cases h
    rfl
  | hostLoad a =>
    obtain ⟨-, rfl⟩ := hostMayTouch_cases h
    rfl
  | collaborator ws r =>
    cases h
    rcases collaboratorStep_cases ws r s with hc | ⟨q, -, -, hc⟩ <;> rw [hc]
    rcases hi with rfl | rfl | rfl | rfl | rfl | rfl | rfl | rfl | rfl <;> rfl
  | reset left => cases h; exact absurd rfl hp
  | strayWrites ws => cases h; rfl
  | quiet => cases h; rfl

/-! ## `HostWrite` (R172) -/

theorem State.hostWrite_status (s : State) (v : DWord) :
    s.hostWrite 1 v = { s with ovr := if v.getLsbD 2 then false else s.ovr } := by
  rw [State.hostWrite, if_pos rfl]
  split <;> rfl

theorem State.hostWrite_of_busy (hi : i ≠ 1) (hp : s.phase ≠ .idle) (v : DWord) :
    s.hostWrite i v = { s with ovr := true } := by
  rw [State.hostWrite, if_neg hi, if_pos hp]

theorem State.hostWrite_of_idle (hi : 2 ≤ i) (hp : s.phase = .idle) (v : DWord) :
    s.hostWrite i v = s.writeOperand i v := by
  rw [State.hostWrite, if_neg (by omega), if_neg (not_not_intro hp), if_neg (by omega)]

/-- From `RESULT_LO` on no register takes a host write (R25, R172). -/
theorem State.writeOperand_of_above (hi : 13 ≤ i) (v : DWord) : s.writeOperand i v = s := by
  unfold State.writeOperand
  split
  case h_12 => rfl
  all_goals omega

end Sys2Proof.Machine

section
open Sys2Proof Sys2Proof.Machine

/-- Settles O14: the read's slot register by register, and of the steps that leave a command in progress none writes a
register that commands write. -/
theorem hostReadReturnsSlot : Obligations.HostReadReturnsSlot := by
  unfold Obligations.HostReadReturnsSlot
  refine ⟨fun s i rest ha => ⟨_, step_of_cons ha, rfl, rfl⟩, fun s => ?_, fun s t h hp i hi => ?_⟩
  · exact ⟨rfl, rfl, s.readReg_ctrl, rfl, rfl, rfl, rfl, rfl, rfl, rfl, rfl, rfl, rfl, s.toNat_result, rfl, rfl,
      fun i => s.readReg_of_above⟩
  · rcases step_cases h with ⟨-, he⟩ | ⟨mv, rest, -, hm⟩
    · exact engineStep_readReg_of_waits he hp hi
    · have kept := moveStep_readReg_of_busy hm hp hi
      exact kept

/-- Settles O20: the collaborator's writes are confined to its window, or to those it may still be using. -/
theorem collaboratorStaysInItsWindow : Obligations.CollaboratorStaysInItsWindow := by
  unfold Obligations.CollaboratorStaysInItsWindow
  refine ⟨fun s q ws r rest hp hq ha => ?_, fun s ws rest ha => ?_, fun s rest ha => step_of_cons ha⟩
  · have answered := collaboratorStep_of_waitc (s := { s with agenda := rest }) hp hq ws r
    refine ⟨_, (step_of_cons ha).trans (congrArg Host.Outcome.next answered), rfl, fun a ha => ?_⟩
    refine Memory.read_writeWithin_out _ _ _ fun hin => ?_
    have hwin : q.outAddr.toNat ≤ a ∧ a < q.outAddr.toNat + q.outMax.toNat := inWindows_singleton.1 hin
    omega
  · exact ⟨_, step_of_cons ha, rfl, fun a ha => Memory.read_writeWithin_out _ _ _ ha⟩

/-- Settles O4: the engine's step in `BUSY`, taken with an empty agenda or as its first move. -/
theorem stepRunsTheLatchedCommand : Obligations.StepRunsTheLatchedCommand := by
  unfold Obligations.StepRunsTheLatchedCommand
  intro s i hp hop
  refine ⟨fun ha => ?_, fun rest ha => ?_⟩
  · rw [step_of_nil ha, engineStep_of_busy hp hop]
  · exact (step_of_cons ha).trans (engineStep_of_busy (s := { s with agenda := rest }) hp hop)

/-- Settles O5: the issue latches the word in `OP`, and the engine's move stands first on the agenda. -/
theorem issuedWordRunsNext : Obligations.IssuedWordRunsNext := by
  unfold Obligations.IssuedWordRunsNext
  intro s w i hw
  have word : BitVec.ofNat 32 (w.toNat % 2 ^ 32) = w := by
    rw [Nat.mod_eq_of_lt w.isLt]
    simp
  have issued : { s.withFetchWord 32 w.toNat with agenda := s.agenda } = { s.issue w with agenda := s.agenda } := by
    rw [State.withFetchWord, word]
  have move : step (s.withFetchWord 32 w.toNat) = engineStep { s.withFetchWord 32 w.toNat with agenda := s.agenda } :=
    step_of_cons (mv := .engine) rfl
  rw [move, issued]
  exact engineStep_of_busy (s := { s.issue w with agenda := s.agenda }) rfl hw

/-- Settles O15: the cases of R172 one by one; while idle each number from 2 on by `writeOperand`. -/
theorem hostWriteRule : Obligations.HostWriteRule := by
  unfold Obligations.HostWriteRule
  intro s i v rest ha
  rw [step_of_cons ha]
  refine ⟨?_, fun hi hp => ?_, fun hp => ?_⟩
  · rintro rfl
    exact congrArg Host.Outcome.next (State.hostWrite_status _ v)
  · exact congrArg Host.Outcome.next (State.hostWrite_of_busy (s := { s with agenda := rest }) hi hp v)
  · have operand (hi : 2 ≤ i) : moveStep (.hostWrite i v) { s with agenda := rest } =
        .next ({ s with agenda := rest }.writeOperand i v) :=
      congrArg Host.Outcome.next (State.hostWrite_of_idle (s := { s with agenda := rest }) hi hp v)
    refine ⟨?_, ?_, ?_, ?_, ?_, ?_, ?_, ?_, ?_, ?_, ?_, fun hi => ?above⟩
    case above => rw [operand (by omega), State.writeOperand_of_above hi]
    all_goals
      rintro rfl
      exact operand (by decide)

/-- Settles O16: the issue as a step. -/
theorem issueAcceptsAnyWord : Obligations.IssueAcceptsAnyWord := by
  unfold Obligations.IssueAcceptsAnyWord
  exact fun s v rest ha hp => ⟨_, step_issue ha hp, rfl⟩

/-- Settles O22: `NOP` is its word's instruction, and its successful end writes nothing else. -/
theorem nopCompletes : Obligations.NopCompletes := by
  unfold Obligations.NopCompletes
  exact ⟨decode_encode .nop, fun s => congrArg Host.Outcome.next (s.complete_eq_ended 0)⟩

end

/-! PROOFS. Failing commands and the wait without an answer (R190, R194, R199). -/

namespace Sys2Proof.Machine

variable {s t : State} {i : Instr}

/-! ## Illegal command words (R63, R194) -/

/-- The rows that are no commands are the three tag rows (R69). -/
theorem tagRow_of_not_wellFormed (h : i.wellFormed ≠ true) : i = .tagIhdr ∨ i = .tagIdat ∨ i = .tagIend := by
  cases i with
  | tagIhdr => exact .inl rfl
  | tagIdat => exact .inr (.inl rfl)
  | tagIend => exact .inr (.inr rfl)
  | _ => exact absurd rfl h

/-- A word outside R61's list is a tag row's or none at all, and either way it runs as an illegal word. -/
theorem executionStep_of_illegal
    (h : ¬ (s.op.toNat ≤ 0x0A ∨ s.op.toNat = 0x106 ∨ s.op.toNat = 0x206 ∨ s.op.toNat = 0x306)) :
    executionStep s = .next (s.ended 0 .illcmd) := by
  unfold executionStep
  split
  case h_1 i hi =>
    rw [decode_eq_ok_iff.1 hi] at h
    exact exec_tagRow s (tagRow_of_not_wellFormed fun legal => h (encode_toNat_of_wellFormed legal))
  case h_2 => exact illegalWord_eq s

theorem engineStep_of_phase_busy (hp : s.phase = .busy) : engineStep s = executionStep s := by
  simp only [engineStep, hp]

/-! ## The wait without an answer (R199) -/

/-- In `WAITC` the engine has no step (R174, R178; log entry 2). -/
theorem engineStep_of_waitc (hp : s.phase = .waitc) : engineStep s = .next s := by
  simp only [engineStep, hp]

/-- While a command is in progress a host write changes `OVR` at most (R172). -/
theorem State.hostWrite_frame_of_busy (hp : s.phase ≠ .idle) (j : Nat) (v : DWord) :
    s.hostWrite j v = { s with ovr := (s.hostWrite j v).ovr } := by
  by_cases hj : j = 1
  · rw [hj, s.hostWrite_status]
  · rw [State.hostWrite_of_busy hj hp]

/-- A move that neither answers the request nor resets the engine. -/
def Move.LeavesUnanswered (mv : Move) : Prop :=
  (∀ ws r, mv ≠ .collaborator ws r) ∧ ∀ left, mv ≠ .reset left

/-- In `WAITC` such a move changes nothing but `OVR`, memory and the records of the outside agents. -/
theorem moveStep_frame_of_waitc {mv : Move} (hp : s.phase = .waitc) (hmv : mv.LeavesUnanswered)
    (h : moveStep mv s = .next t) :
    t = { s with ovr := t.ovr, mem := t.mem, hostIn := t.hostIn, lent := t.lent, stray := t.stray } := by
  obtain ⟨noAnswer, noReset⟩ := hmv
  cases mv with
  | engine =>
    obtain rfl := Host.Outcome.next.inj ((engineStep_of_waitc hp).symm.trans h)
    rfl
  | hostWrite j v =>
    cases h
    rw [State.hostWrite_frame_of_busy (by simp [hp])]
  | hostRead j => cases h; rfl
  | hostStore a b =>
    obtain ⟨-, rfl⟩ := hostMayTouch_cases h
    rfl
  | hostLoad a =>
    obtain ⟨-, rfl⟩ := hostMayTouch_cases h
    rfl
  | collaborator ws r => exact absurd rfl (noAnswer ws r)
  | reset left => exact absurd rfl (noReset left)
  | strayWrites ws => cases h; rfl
  | quiet => cases h; rfl

/-- The command waits, and no move on the agenda answers its request or resets the engine. -/
structure State.WaitsUnanswered (s : State) : Prop where
  phase : s.phase = .waitc
  done : s.done = false
  agenda : ∀ mv ∈ s.agenda, mv.LeavesUnanswered

/-- Every step of every agent keeps the wait. -/
theorem State.WaitsUnanswered.step (hs : s.WaitsUnanswered) (h : step s = .next t) : t.WaitsUnanswered := by
  rcases step_cases h with ⟨-, he⟩ | ⟨mv, rest, ha, hm⟩
  · obtain rfl := Host.Outcome.next.inj ((engineStep_of_waitc hs.phase).symm.trans he)
    exact hs
  · have unanswered : ∀ m ∈ mv :: rest, m.LeavesUnanswered := ha ▸ hs.agenda
    obtain ⟨hmv, hrest⟩ := List.forall_mem_cons.1 unanswered
    have waits : ({ s with agenda := rest } : State).phase = .waitc := hs.phase
    rw [moveStep_frame_of_waitc waits hmv hm]
    exact ⟨hs.phase, hs.done, hrest⟩

/-- What every step keeps, a run of any length keeps. -/
theorem runSteps_keeps {P : State → Prop} (keeps : ∀ {s t : State}, P s → step s = .next t → P t) {k : Nat}
    (hs : P s) (h : runSteps k s = .next t) : P t := by
  induction k generalizing s with
  | zero => cases h; exact hs
  | succ k ih =>
    rw [runSteps_succ] at h
    split at h
    case h_1 u hu => exact ih (keeps hs hu) h
    case h_2 => cases h
    case h_3 => cases h

/-! ## The failing end is precise (R190) -/

/-- How an execution step that begins in `s` can end: in a failure, which has built the table at most (R96, R190); in
success (R176), or in a request (R174), of whatever the command has made of `s`. -/
inductive EndsPrecisely (s : State) : State → Prop where
  | failed (e : ErrCode) : EndsPrecisely s (s.raise e)
  | failedAfterTable (e : ErrCode) : EndsPrecisely s (s.buildTable.raise e)
  | completed (u : State) (r : Nat) : EndsPrecisely s (u.complete r)
  | requested (u : State) (q : CReq) : EndsPrecisely s (u.request q)

theorem illegalWord_endsPrecisely (h : illegalWord s = .next t) : EndsPrecisely s t := by
  cases h
  exact .failed .illcmd

theorem execCrc32_endsPrecisely (h : execCrc32 s = .next t) : EndsPrecisely s t := by
  obtain ⟨-, rfl⟩ | ⟨-, -, rfl⟩ | ⟨-, -, rfl⟩ := execCrc32_cases h
  · exact .failed .range
  · exact .completed ..
  · exact .completed ..

theorem execPut32_endsPrecisely (h : execPut32 s = .next t) : EndsPrecisely s t := by
  unfold execPut32 at h
  split at h <;> cases h
  · exact .completed ..
  · exact .failed .range

theorem execGet32_endsPrecisely (h : execGet32 s = .next t) : EndsPrecisely s t := by
  unfold execGet32 at h
  split at h <;> cases h
  · exact .completed ..
  · exact .failed .range

theorem execWrchunk_endsPrecisely (h : execWrchunk s = .next t) : EndsPrecisely s t := by
  obtain rfl | ⟨-, -, -, rfl⟩ | ⟨-, -, -, -, rfl⟩ := execWrchunk_cases h
  · exact .failed .range
  · exact .completed ..
  · exact .completed ..

theorem rdchunkWith_endsPrecisely {wt wd : Bool} (h : rdchunkWith wt wd s = .next t) : EndsPrecisely s t := by
  obtain rfl | rfl | ⟨-, rfl⟩ | ⟨-, -, rfl⟩ := rdchunkWith_cases h
  · exact .failed .range
  · exact .failed .trunc
  · exact .completed ..
  · exact .completed ..

theorem execCkchunk_endsPrecisely (h : execCkchunk s = .next t) : EndsPrecisely s t := by
  obtain rfl | rfl | rfl | rfl := execCkchunk_cases h
  · exact .failed .range
  · exact .failed .trunc
  · exact .failedAfterTable .corrupt
  · exact .completed ..

theorem execEncode_endsPrecisely (h : execEncode s = .next t) : EndsPrecisely s t := by
  obtain rfl | rfl | ⟨-, -, -, rfl⟩ := encodeFirstHalf_cases h
  · exact .failed .range
  · exact .failed .cap
  · exact .requested ..

theorem execParse_endsPrecisely (h : execParse s = .next t) : EndsPrecisely s t := by
  obtain ⟨e, -, ⟨-, rfl⟩ | ⟨-, rfl⟩⟩ | ⟨-, rfl⟩ | ⟨-, rfl⟩ := parseWith_cases h
  · exact .failed e
  · exact .failedAfterTable e
  · exact .completed ..
  · exact .completed ..

theorem execInflate_endsPrecisely (h : execInflate s = .next t) : EndsPrecisely s t := by
  obtain rfl | ⟨-, -, rfl⟩ := execInflate_cases h
  · exact .failed .range
  · exact .requested ..

/-- No command writes anything but the table before it fails. -/
theorem exec_endsPrecisely (h : exec i s = .next t) : EndsPrecisely s t := by
  cases i with
  | nop => cases h; exact .completed ..
  | tblinit => cases h; exact .completed ..
  | crc32 => exact execCrc32_endsPrecisely h
  | put32 => exact execPut32_endsPrecisely h
  | get32 => exact execGet32_endsPrecisely h
  | wrchunk => exact execWrchunk_endsPrecisely h
  | rdchunk => exact rdchunkWith_endsPrecisely h
  | rdchunkT => exact rdchunkWith_endsPrecisely h
  | rdchunkD => exact rdchunkWith_endsPrecisely h
  | rdchunkTD => exact rdchunkWith_endsPrecisely h
  | ckchunk => exact execCkchunk_endsPrecisely h
  | encode => exact execEncode_endsPrecisely h
  | parse => exact execParse_endsPrecisely h
  | inflate => exact execInflate_endsPrecisely h
  | tagIhdr => exact illegalWord_endsPrecisely h
  | tagIdat => exact illegalWord_endsPrecisely h
  | tagIend => exact illegalWord_endsPrecisely h

/-- The whole effect of a failure, over a sound table. -/
theorem EndsPrecisely.eq_ended (h : EndsPrecisely s t) (hs : s.tableOk) (idle : t.phase = .idle) (failed : t.err ≠ .ok) :
    t = s.ended 0 t.err ∨ t = { s with tvalid := true, table := crcTable }.ended 0 t.err := by
  cases h with
  | failed e => exact .inl (s.raise_eq_ended e)
  | failedAfterTable e =>
    rw [buildTable_of_tableOk hs]
    exact .inr (State.raise_eq_ended _ e)
  | completed => exact absurd rfl failed
  | requested => cases idle

/-- A resume step that fails has written nothing before its end (R140, R160, R190). -/
theorem resumeStep_eq_ended_of_failed (hs : s.err = .ok) (h : resumeStep s = .next t) (failed : t.err ≠ .ok) :
    t = s.ended 0 t.err := by
  rcases resumeStep_cases h with rfl | ⟨q, r, -, -, -, hr⟩ | ⟨q, r, -, -, -, hr⟩
  · exact absurd hs failed
  · obtain rfl | rfl | ⟨k, -, -, -, rfl⟩ := resumeEncode_cases hr
    · exact s.raise_eq_ended .collab
    · exact s.raise_eq_ended .cap
    · exact absurd rfl failed
  · obtain rfl | rfl | ⟨k, -, -, -, rfl⟩ := resumeInflate_cases hr
    · exact s.raise_eq_ended .collab
    · exact s.raise_eq_ended .cap
    · exact absurd rfl failed

end Sys2Proof.Machine

section
open Sys2Proof Sys2Proof.Machine

/-- Settles O6: the engine's step in `BUSY` is the execution step, and no word outside R61's list is a command's. -/
theorem illegalWordsFail : Obligations.IllegalWordsFail := by
  unfold Obligations.IllegalWordsFail
  intro s hp ha illegal
  rw [step_of_nil ha, engineStep_of_phase_busy hp, executionStep_of_illegal illegal]

/-- Settles O10: the wait is an invariant of the steps that such an agenda makes. -/
theorem unansweredRequestHangs : Obligations.UnansweredRequestHangs := by
  unfold Obligations.UnansweredRequestHangs
  intro k s t hp hd ha h
  obtain ⟨phase, done, -⟩ := runSteps_keeps State.WaitsUnanswered.step ⟨hp, hd, ha⟩ h
  exact ⟨phase, done⟩

/-- Settles O55: every failure of either step comes before any write but the table's. -/
theorem failureIsPrecise : Obligations.FailureIsPrecise := by
  unfold Obligations.FailureIsPrecise
  exact ⟨fun _ _ _ hs h => (exec_endsPrecisely h).eq_ended hs, fun _ _ => resumeStep_eq_ended_of_failed⟩

end

/-! PROOFS. The reset event in the middle of a command (R210, R211): which bytes the interrupted step leaves open. -/

namespace Sys2Proof.Machine

variable {s : State}

/-- Every register of the reset machine reads as after power-on; memory and the outside agents are in no register
(R210, R27). -/
theorem resetStep_readReg (left : List (DWord × Byte)) (s : State) (i : Nat) :
    (resetStep left s).readReg i = if i = 2 then 1#64 else 0#64 :=
  (rfl : (resetStep left s).readReg i = State.reset.readReg i).trans (State.reset_readReg i)

/-- A step that leaves no byte open leaves memory to the reset as it was (R211). -/
theorem resetStep_mem_of_no_openWrites (left : List (DWord × Byte)) (h : s.openWrites = []) :
    (resetStep left s).mem = s.mem := by
  simp only [resetStep, h, Memory.writeWithin_nil]

/-! ## The bytes an interrupted step leaves open -/

/-- An execution step that would fail leaves none (R190, R211). -/
theorem State.openWrites_of_failing_execution {i : Instr} {u : State} (hp : s.phase = .busy) (hop : decode s.op = .ok i)
    (hu : exec i s = .next u) (idle : u.phase = .idle) (failed : u.err ≠ .ok) : s.openWrites = [] := by
  have fails : stepFails (exec i s) = true := by simp [stepFails, hu, idle, failed]
  simp only [State.openWrites, hp, hop, fails, if_true]

/-- While the collaborator is at work only its output window is open (R211). -/
theorem State.openWrites_of_waitc {q : CReq} (hp : s.phase = .waitc) (hq : s.creq = some q) :
    s.openWrites = [q.outWindow] := by
  simp only [State.openWrites, hp, hq]

/-- The window of an outstanding request is the one a reset abandons (R211). -/
theorem State.abandoned_of_waitc {q : CReq} (hp : s.phase = .waitc) (hq : s.creq = some q) :
    s.abandoned = [q.outWindow] := by
  simp only [State.abandoned, hp, hq]

/-- The second half of `ENCODE` fails on an answer above `out_max` or zero (R140). -/
theorem resumeEncode_fails_of_refused {q : CReq} {k : DWord} (refused : q.outMax.toNat < k.toNat ∨ k.toNat = 0) :
    stepFails (resumeEncode q (.ok k) s) = true := by
  rcases refused with above | zero
  · rw [resumeEncode_of_over above]
    rfl
  · rw [resumeEncode_of_zero zero]
    rfl

/-- An answer that the second half refuses leaves no byte open, whichever command waits for it (R140, R160, R211). -/
theorem State.openWrites_of_refused_answer {q : CReq} {r : CRsp} (hp : s.phase = .resume) (hq : s.creq = some q)
    (hr : s.crsp = some r) (refused : ∀ k, r = .ok k → q.outMax.toNat < k.toNat ∨ k.toNat = 0) : s.openWrites = [] := by
  simp only [State.openWrites, hp, hq, hr]
  split
  case h_1 hqk hrk =>
    cases hqk
    cases hrk
    simp only [resumeEncode_fails_of_refused (refused _ rfl), if_true]
  case h_2 => rfl

/-- Where a reset in `WAITC` may leave other bytes than it found (R211). -/
theorem resetStep_read_out_of_waitc {q : CReq} {a : Nat} (left : List (DWord × Byte)) (hp : s.phase = .waitc)
    (hq : s.creq = some q) (ha : a < q.outAddr.toNat ∨ q.outAddr.toNat + q.outMax.toNat ≤ a) :
    (resetStep left s).mem.read a = s.mem.read a := by
  refine Memory.read_writeWithin_out _ _ _ fun hin => ?_
  rw [State.openWrites_of_waitc hp hq, inWindows_singleton] at hin
  obtain ⟨above, below⟩ : q.outAddr.toNat ≤ a ∧ a < q.outAddr.toNat + q.outMax.toNat := hin
  omega

/-- A reset in `WAITC` records the window of the outstanding request as abandoned (R211; log entry 11). -/
theorem outWindow_mem_resetStep_stray {q : CReq} (left : List (DWord × Byte)) (hp : s.phase = .waitc)
    (hq : s.creq = some q) : q.outWindow ∈ (resetStep left s).stray := by
  simp only [resetStep, State.abandoned_of_waitc hp hq]
  exact List.mem_append_right _ (List.mem_singleton_self _)

end Sys2Proof.Machine

section
open Sys2Proof Sys2Proof.Machine

/-- Settles O12: the reset machine is the one after power-on but for memory, and memory changes only at the bytes that
the interrupted step leaves open. -/
theorem resetEventAnyPhase : Obligations.ResetEventAnyPhase := by
  unfold Obligations.ResetEventAnyPhase
  intro s left rest ha
  refine ⟨resetStep left { s with agenda := rest }, step_of_cons ha, resetStep_readReg left _, rfl, rfl, rfl, rfl, rfl, rfl,
    ?frame, ?nothingWritten, ?idle, ?busy, ?waitc, ?resume, ?stray⟩
  case frame => exact fun a => Memory.read_writeWithin_out _ _ _
  case nothingWritten =>
    rintro rfl
    rfl
  case idle => exact resetStep_mem_of_idle (s := { s with agenda := rest }) left
  case busy =>
    exact fun i u hp hop hu idle failed =>
      resetStep_mem_of_no_openWrites left (State.openWrites_of_failing_execution hp hop hu idle failed)
  case waitc =>
    exact fun q hp hq => ⟨outWindow_mem_resetStep_stray (s := { s with agenda := rest }) left hp hq,
      fun a => resetStep_read_out_of_waitc (s := { s with agenda := rest }) left hp hq⟩
  case resume =>
    exact fun q r hp hq hr refused =>
      resetStep_mem_of_no_openWrites left (State.openWrites_of_refused_answer hp hq hr refused)
  case stray => exact fun w => List.mem_append_left _

end
